-- ==== Sys2Proof/Word.lean ====
section
/-! DEFINITION. The word types of the big_uint arithmetic unit (BU) and the command that travels over its issue port
(spec 00_scope.md R8, R9; 30_encoding.md R60). -/

namespace Sys2Proof

/-- One byte of the text buffer (R41: "Each byte holds one 8-bit character code"). -/
abbrev Byte := BitVec 8

/-- A 4-bit field: a width tag (R21), a width code (R62) or any other nibble of the command word (R61). -/
abbrev Nibble := BitVec 4

/-- The number of a wide register, W0 to W15 (R20, R63). -/
abbrev Reg := Fin 16

/-- What one ISSUE presents: the 32-bit command word and its 64-bit argument ARG (R60, R29). -/
structure Command where
  word : BitVec 32
  arg : BitVec 64
deriving DecidableEq, Repr

end Sys2Proof
end

