-- ==== Sys2Proof/Config.lean ====
section
/-! DEFINITION. What one instance of the unit fixes (spec 00_scope.md R5) and the values the spec leaves open
(93_implementation_defined.md rows 3 to 8). The free values are opaque: nothing can evaluate them or prove anything
of their value. -/

namespace Sys2Proof

/-- The parameters of one instance, readable in the ID register (R5, R27): the largest width code K, which R5 bounds
by 7, and the size of the text buffer. They are held in the state and no step changes them (assumption 1). -/
structure Params where
  k : Fin 8
  textBytes : Nat
deriving DecidableEq, Repr

/-- The reference configuration of R5: K = 3 and TEXT_BYTES = 4096. -/
def Params.reference : Params := { k := 3, textBytes := 4096 }

/-- FREE VALUE (R32, R210): the byte an address of TEXT holds after a reset, until something writes it. The first
argument is the number of the draw, one for each reset; the second is the address, so that every byte is independent
of the others (assumption 4). -/
opaque Config.textAtReset : Nat → Nat → Byte

/-- FREE VALUE (R46): what a read of NRES or EINFO returns while BUSY = 1, one draw for each read (assumption 5). -/
opaque Config.busyWord : Nat → BitVec 64

/-- FREE VALUE (R47): what a host read of TEXT returns while BUSY = 1, one draw for each read (assumption 5). -/
opaque Config.busyByte : Nat → Byte

/-- FREE VALUE, the open parameter LAT (R5, R218): how many host port operations land before an accepted command
completes, one draw for each accepted command (assumption 3). -/
opaque Config.latency : Nat → Nat

/-- FREE VALUE (60_exceptions.md R205): whether a host stream takes a byte for whitespace, where the spec does not say
(assumption 14). -/
opaque Config.isWhitespace : Byte → Bool

end Sys2Proof
end

