-- ==== Sys2Proof/Machine/State.lean ====
section
/-! DEFINITION. The state of the unit and of its host port, as plain data, and the state after reset
(10_state.md R20 to R32, 20_memory.md R40 to R50, 60_exceptions.md R185). -/

namespace Sys2Proof.Machine

/-- The error codes held in STATUS.ERR (R185). Codes 6 to 15 are "reserved" and "never produced", so they have no
constructor. -/
inductive ErrCode where
  | none | invalidFormat | divisionByZero | illegalCommand | operandType | textBounds
deriving DecidableEq, Repr

/-- An error with the information it records (R190). -/
inductive UnitError where
  /-- A non-digit byte in the text: its address and value (R186). -/
  | invalidFormat (address : Nat) (value : Byte)
  /-- The divisor register holds 0 (R187). -/
  | divisionByZero (divisor : Reg)
  /-- The word is illegal (R68). -/
  | illegalCommand (word : BitVec 32)
  /-- A source register's tag is not the width the command needs (R22). -/
  | operandType (r : Reg) (tag required : Nibble)
  /-- A text range does not fit in TEXT (R188). -/
  | textBounds (base : BitVec 32)
deriving DecidableEq, Repr

/-- A command that has been accepted and not yet completed (R30), and how many host operations still land before it
completes (the open latency, assumption 3). -/
structure InFlight where
  cmd : Command
  opsLeft : Nat
deriving DecidableEq, Repr

/-- What the host's read port reads (R44). -/
inductive ReadPort where
  | status | nres | einfo | id
deriving DecidableEq, Repr

/-- A port operation of the host (R44): "Each is one indivisible event". -/
inductive HostOp where
  | issue (c : Command)
  | read (p : ReadPort)
  | textRead (a : BitVec 32)
  | textWrite (a : BitVec 32) (v : Byte)
  | reset
deriving DecidableEq, Repr

/-- What a READ or a TEXT_READ returned to the host. -/
inductive Reply where
  | word (v : BitVec 64)
  | byte (v : Byte)
deriving DecidableEq, Repr

/-- The whole machine. The first nine fields are the unit's state; `inFlight` is the command being executed, and
BUSY is whether there is one; `host` and `replies` are the host's side of the port; `textDraw` and `draws` are the
model's own counters, which the free values of Config are applied to. -/
structure State where
  /-- The parameters the ID register shows, fixed for an instance (R5, R27). -/
  params : Params
  /-- W0 to W15, each a natural number (R20). -/
  w : Vector Nat 16
  /-- TAG[0] to TAG[15]: a width code, or 15 for EMPTY (R21). -/
  tag : Vector Nibble 16
  /-- The native result register (R24). -/
  nres : BitVec 64
  /-- STATUS.ERR (R27, R185). -/
  err : ErrCode
  /-- STATUS.EOP: OP of the command that raised the pending error (R27). -/
  eop : BitVec 8
  /-- The error information register (R27, R190). -/
  einfo : BitVec 64
  /-- The bytes of TEXT written since the last reset, in canonical form (R41, assumption 4). -/
  text : List Host.Cell
  /-- The command in flight (R30). -/
  inFlight : Option InFlight
  /-- The host operations still to come, the next one first (R14, R44; assumption 2). -/
  host : List HostOp
  /-- What the host's reads have returned, the oldest first (assumption 2). -/
  replies : List Reply
  /-- Which draw of `Config.textAtReset` the unwritten bytes of TEXT are (assumption 4). -/
  textDraw : Nat
  /-- The number of the next draw of a free value (assumption 6). -/
  draws : Nat
deriving DecidableEq, Repr

/-- The machine never stops with a fault. "Traps in the processor sense do not exist: an error ends the command and is
recorded in STATUS" (60_exceptions.md), and "The unit never hangs" (R218); so the type has no constructor. Safe. -/
inductive Fault where
deriving DecidableEq, Repr

/-- Why a step has no meaning. -/
inductive Refusal where
  /-- Raised by an arm of exec whose command has no meaning yet; no arm raises it. Safe. -/
  | notModelled (mnemonic : String)
deriving DecidableEq, Repr

/-- What a step or a command answers. -/
abbrev Outcome := Host.Outcome State Fault Refusal

/-- The tag value EMPTY (R21). -/
def emptyTag : Nibble := 15#4

/-- The state after reset (R32, R210, R212) of an instance with the parameters `p`. The counters are the model's own
(assumption 6). -/
def State.resetOf (p : Params) : State where
  params := p
  w := Vector.replicate 16 0
  tag := Vector.replicate 16 emptyTag
  nres := 0
  err := .none
  eop := 0
  einfo := 0
  text := []
  inFlight := none
  host := []
  replies := []
  textDraw := 0
  draws := 1

/-- The state after reset of the reference configuration (R5, R32), with no host operation to come. -/
def State.reset : State := State.resetOf Params.reference

end Sys2Proof.Machine
end

