-- ==== Sys2Proof/Machine/Flags.lean ====
section
/-! DEFINITION. The words the host reads: error codes, the EINFO layouts, STATUS and ID (10_state.md R25 to R27,
60_exceptions.md R185, R190). The unit has no condition codes and no arithmetic flags (R25); the error state is the only
status it keeps (R26). -/

namespace Sys2Proof.Machine

/-- The 4-bit code of STATUS.ERR (R185). -/
def ErrCode.toBits : ErrCode → Nibble
  | .none => 0#4
  | .invalidFormat => 1#4
  | .divisionByZero => 2#4
  | .illegalCommand => 3#4
  | .operandType => 4#4
  | .textBounds => 5#4

/-- The code of an error (R185). -/
def UnitError.code : UnitError → ErrCode
  | .invalidFormat .. => .invalidFormat
  | .divisionByZero .. => .divisionByZero
  | .illegalCommand .. => .illegalCommand
  | .operandType .. => .operandType
  | .textBounds .. => .textBounds

/-- The EINFO layout of each error; "Bits not listed are 0" (R190). -/
def UnitError.info : UnitError → BitVec 64
  | .invalidFormat address value => value.setWidth 64 <<< 32 ||| (BitVec.ofNat 32 address).setWidth 64
  | .divisionByZero divisor => BitVec.ofNat 64 divisor.val
  | .illegalCommand word => word.setWidth 64
  | .operandType r tag required =>
    required.setWidth 64 <<< 8 ||| tag.setWidth 64 <<< 4 ||| BitVec.ofNat 64 r.val
  | .textBounds base => base.setWidth 64

/-- STATUS.BUSY: "1 while a command is executing" (R27, R214). -/
def State.busy (s : State) : Bool := s.inFlight.isSome

/-- The STATUS register: EOP in bits 23:16, ERR in bits 11:8, BUSY in bit 0, the rest 0 (R27). -/
def State.status (s : State) : BitVec 64 :=
  s.eop.setWidth 64 <<< 16 ||| s.err.toBits.setWidth 64 <<< 8 ||| (BitVec.ofBool s.busy).setWidth 64

/-- The ID register: TEXT_BYTES in bits 63:32, REV = 1 in bits 23:16, NREG = 16 in bits 15:8, K in bits 3:0, the rest
0 (R27). -/
def idWord (p : Params) : BitVec 64 :=
  BitVec.ofNat 64 p.textBytes <<< 32 ||| 1#64 <<< 16 ||| 16#64 <<< 8 ||| BitVec.ofNat 64 p.k.val

end Sys2Proof.Machine
end

