-- ==== Sys2Proof/Syntax.lean ====
section
/-! DEFINITION. The commands of the unit, one constructor of `Instr` for each row of spec/opcode_table.json
(30_encoding.md R66, R67), with the operands each row names and the ARG bits R65 gives it. -/

namespace Sys2Proof

/-- The native integer types that LDN reads and TONAT writes (R7, R64). -/
inductive NativeType where
  | u8 | u16 | u32 | u64 | s8 | s16 | s32 | s64
deriving DecidableEq, Repr

/-- The thirty operations of the opcode map, in its order (R66). -/
inductive Opcode where
  | clr | mov | ldn | resize | tonat
  | add | sub | neg | inc | dec | mul
  | div | mod
  | shl | shr | not | and | or | xor | test
  | eq | ne | lt | le | gt | ge
  | parse | parsez | fmt
  | clrerr
deriving DecidableEq, Repr

/-- A command. `wc` is the operating width code (R62), `swc` the source width code of RESIZE (R64); register operands
are in the assembler's order, destination first (R71). A width code is a whole nibble here: whether it is legal
depends on K and is a check of `Instr.wellFormed`. -/
inductive Instr where
  /-- CLR: construct 0 (R81). -/
  | clr (rd : Reg) (wc : Nibble)
  /-- MOV: copy (R82). -/
  | mov (rd rs1 : Reg) (wc : Nibble)
  /-- LDN: construct from the native integer in ARG (R84). -/
  | ldn (rd : Reg) (wc : Nibble) (nt : NativeType) (arg : BitVec 64)
  /-- RESIZE: convert from width `swc` to width `wc` (R85). -/
  | resize (rd rs1 : Reg) (wc swc : Nibble)
  /-- TONAT: truncating conversion to a native integer, in NRES (R86). -/
  | tonat (rs1 : Reg) (wc : Nibble) (nt : NativeType)
  /-- ADD (R101). -/
  | add (rd rs1 rs2 : Reg) (wc : Nibble)
  /-- SUB (R103). -/
  | sub (rd rs1 rs2 : Reg) (wc : Nibble)
  /-- NEG (R104). -/
  | neg (rd rs1 : Reg) (wc : Nibble)
  /-- INC (R105). -/
  | inc (rd rs1 : Reg) (wc : Nibble)
  /-- DEC (R106). -/
  | dec (rd rs1 : Reg) (wc : Nibble)
  /-- MUL (R108). -/
  | mul (rd rs1 rs2 : Reg) (wc : Nibble)
  /-- DIV: quotient (R121). -/
  | div (rd rs1 rs2 : Reg) (wc : Nibble)
  /-- MOD: remainder (R122). -/
  | mod (rd rs1 rs2 : Reg) (wc : Nibble)
  /-- SHL: logical shift left by ARG (R131). -/
  | shl (rd rs1 : Reg) (wc : Nibble) (amount : BitVec 64)
  /-- SHR: logical shift right by ARG (R133). -/
  | shr (rd rs1 : Reg) (wc : Nibble) (amount : BitVec 64)
  /-- NOT (R134). -/
  | not (rd rs1 : Reg) (wc : Nibble)
  /-- AND (R135). -/
  | and (rd rs1 rs2 : Reg) (wc : Nibble)
  /-- OR (R136). -/
  | or (rd rs1 rs2 : Reg) (wc : Nibble)
  /-- XOR (R137). -/
  | xor (rd rs1 rs2 : Reg) (wc : Nibble)
  /-- TEST: truth value, in NRES (R138). -/
  | test (rs1 : Reg) (wc : Nibble)
  /-- EQ (R151). -/
  | eq (rs1 rs2 : Reg) (wc : Nibble)
  /-- NE (R152). -/
  | ne (rs1 rs2 : Reg) (wc : Nibble)
  /-- LT (R153). -/
  | lt (rs1 rs2 : Reg) (wc : Nibble)
  /-- LE (R154). -/
  | le (rs1 rs2 : Reg) (wc : Nibble)
  /-- GT (R155). -/
  | gt (rs1 rs2 : Reg) (wc : Nibble)
  /-- GE (R156). -/
  | ge (rs1 rs2 : Reg) (wc : Nibble)
  /-- PARSE: the `length` bytes of TEXT from `base` (R162). -/
  | parse (rd : Reg) (wc : Nibble) (base length : BitVec 32)
  /-- PARSEZ: the bytes of TEXT from `base` to the first 0x00 (R163). -/
  | parsez (rd : Reg) (wc : Nibble) (base : BitVec 32)
  /-- FMT: write the decimal digits at `base` (R168). -/
  | fmt (rs1 : Reg) (wc : Nibble) (base : BitVec 32)
  /-- CLRERR: clear the pending error (R180). -/
  | clrerr
deriving DecidableEq, Repr

end Sys2Proof
end

