-- ==== Sys2Proof/WellFormed.lean ====
section
/-! DEFINITION. Which commands an instance with width parameter K can encode (30_encoding.md R62, R64, R68). Every
other condition of R68 (reserved bits, unused fields, native type codes) is met by every term of `Instr`, because the
type has no place for what it excludes. -/

namespace Sys2Proof

/-- R62: "WC is legal only if WC ≤ K"; R64 asks the same of RESIZE's SWC. -/
def widthLegal (k : Fin 8) (wc : Nibble) : Bool := decide (wc.toNat ≤ k.val)

/-- The operating width code of a command; CLRERR "carries no width" (R62). -/
def Instr.widthCode : Instr → Option Nibble
  | .clr _ wc => some wc
  | .mov _ _ wc => some wc
  | .ldn _ wc _ _ => some wc
  | .resize _ _ wc _ => some wc
  | .tonat _ wc _ => some wc
  | .add _ _ _ wc => some wc
  | .sub _ _ _ wc => some wc
  | .neg _ _ wc => some wc
  | .inc _ _ wc => some wc
  | .dec _ _ wc => some wc
  | .mul _ _ _ wc => some wc
  | .div _ _ _ wc => some wc
  | .mod _ _ _ wc => some wc
  | .shl _ _ wc _ => some wc
  | .shr _ _ wc _ => some wc
  | .not _ _ wc => some wc
  | .and _ _ _ wc => some wc
  | .or _ _ _ wc => some wc
  | .xor _ _ _ wc => some wc
  | .test _ wc => some wc
  | .eq _ _ wc => some wc
  | .ne _ _ wc => some wc
  | .lt _ _ wc => some wc
  | .le _ _ wc => some wc
  | .gt _ _ wc => some wc
  | .ge _ _ wc => some wc
  | .parse _ wc _ _ => some wc
  | .parsez _ wc _ => some wc
  | .fmt _ wc _ => some wc
  | .clrerr => none

/-- The source width code of RESIZE, the only command that has one (R64). -/
def Instr.sourceWidthCode : Instr → Option Nibble
  | .resize _ _ _ swc => some swc
  | .clr .. | .mov .. | .ldn .. | .tonat .. | .add .. | .sub .. | .neg .. | .inc .. | .dec .. | .mul .. | .div ..
  | .mod .. | .shl .. | .shr .. | .not .. | .and .. | .or .. | .xor .. | .test .. | .eq .. | .ne .. | .lt .. | .le ..
  | .gt .. | .ge .. | .parse .. | .parsez .. | .fmt .. | .clrerr => none

/-- A command that an instance with parameter K can hold: its width codes are legal (R68 conditions 4 and 6). -/
def Instr.wellFormed (k : Fin 8) (i : Instr) : Bool :=
  i.widthCode.all (widthLegal k) && i.sourceWidthCode.all (widthLegal k)

end Sys2Proof
end

