-- ==== Sys2Proof/Decode.lean ====
section
/-! DEFINITION. The decoder, total on every command word and ARG and rejecting by name, and the encoder written from
the same tables (30_encoding.md R60 to R70). -/

namespace Sys2Proof

/-! ### Codes -/

/-- The OP byte of each operation (R66). -/
def Opcode.toByte : Opcode → BitVec 8
  | .clr => 0x01#8
  | .mov => 0x02#8
  | .ldn => 0x03#8
  | .resize => 0x04#8
  | .tonat => 0x05#8
  | .add => 0x10#8
  | .sub => 0x11#8
  | .neg => 0x12#8
  | .inc => 0x13#8
  | .dec => 0x14#8
  | .mul => 0x15#8
  | .div => 0x18#8
  | .mod => 0x19#8
  | .shl => 0x20#8
  | .shr => 0x21#8
  | .not => 0x22#8
  | .and => 0x23#8
  | .or => 0x24#8
  | .xor => 0x25#8
  | .test => 0x26#8
  | .eq => 0x28#8
  | .ne => 0x29#8
  | .lt => 0x2A#8
  | .le => 0x2B#8
  | .gt => 0x2C#8
  | .ge => 0x2D#8
  | .parse => 0x30#8
  | .parsez => 0x31#8
  | .fmt => 0x32#8
  | .clrerr => 0x3F#8

/-- Every operation, in the order of R66. -/
def Opcode.all : List Opcode :=
  [.clr, .mov, .ldn, .resize, .tonat, .add, .sub, .neg, .inc, .dec, .mul, .div, .mod, .shl, .shr] ++
  [.not, .and, .or, .xor, .test, .eq, .ne, .lt, .le, .gt, .ge, .parse, .parsez, .fmt, .clrerr]

/-- The operation of an OP byte; none for an unassigned one, 0x00 included (R66, R68). -/
def Opcode.ofByte (b : BitVec 8) : Option Opcode := Opcode.all.find? (fun o => o.toByte == b)

/-- The AUX code NT of a native type (R64). -/
def NativeType.toCode : NativeType → Nibble
  | .u8 => 0x0#4
  | .u16 => 0x1#4
  | .u32 => 0x2#4
  | .u64 => 0x3#4
  | .s8 => 0x4#4
  | .s16 => 0x5#4
  | .s32 => 0x6#4
  | .s64 => 0x7#4

/-- The native type of an AUX code; 0x8 to 0xF are illegal (R64). -/
def NativeType.ofCode (c : Nibble) : Option NativeType :=
  [NativeType.u8, .u16, .u32, .u64, .s8, .s16, .s32, .s64].find? (fun t => t.toCode == c)

/-- The wide register a register field names (R63: every value is legal). -/
def regOf (n : Nibble) : Reg := ⟨n.toNat, n.isLt⟩

/-- The register field that names a wide register (R63). -/
def regCode (r : Reg) : Nibble := BitVec.ofNat 4 r.val

/-! ### The fields of a command word -/

/-- The fields of R61, the most significant first. -/
structure Fields where
  rsv : Nibble
  aux : Nibble
  wc : Nibble
  rs2 : Nibble
  rs1 : Nibble
  rd : Nibble
  op : BitVec 8
deriving DecidableEq, Repr

/-- The fields of a command word (R61). -/
def fieldsOf (word : BitVec 32) : Fields where
  rsv := word.extractLsb' 28 4
  aux := word.extractLsb' 24 4
  wc := word.extractLsb' 20 4
  rs2 := word.extractLsb' 16 4
  rs1 := word.extractLsb' 12 4
  rd := word.extractLsb' 8 4
  op := word.extractLsb' 0 8

/-- `cmd = RSV<<28 | AUX<<24 | WC<<20 | RS2<<16 | RS1<<12 | RD<<8 | OP` (R61). -/
def wordOf (f : Fields) : BitVec 32 :=
  f.rsv.setWidth 32 <<< 28 ||| f.aux.setWidth 32 <<< 24 ||| f.wc.setWidth 32 <<< 20 ||| f.rs2.setWidth 32 <<< 16 |||
    f.rs1.setWidth 32 <<< 12 ||| f.rd.setWidth 32 <<< 8 ||| f.op.setWidth 32

/-- The argument word that carries a text base and a length: `ARG = n<<32 | b` (R65, R71). -/
def argOf (base length : BitVec 32) : BitVec 64 := length.setWidth 64 <<< 32 ||| base.setWidth 64

/-- ARG[31:0], a text base address (R65). -/
def argBase (arg : BitVec 64) : BitVec 32 := arg.extractLsb' 0 32

/-- ARG[63:32], the text length of PARSE (R65). -/
def argLength (arg : BitVec 64) : BitVec 32 := arg.extractLsb' 32 32

/-! ### The decoder -/

/-- Why a command word is illegal (R68). -/
inductive DecodeError where
  /-- RSV is not 0 (condition 1). -/
  | reservedBits
  /-- OP is not in R66 (condition 2). -/
  | unknownOpcode
  /-- A field the command does not use is not 0 (condition 3). -/
  | unusedField
  /-- WC > K (condition 4). -/
  | width
  /-- AUX ≥ 8 in LDN or TONAT (condition 5). -/
  | nativeType
  /-- AUX > K in RESIZE (condition 6). -/
  | sourceWidth
deriving DecidableEq, Repr

/-- Conditions 3 and 4 of R68 for a command that must have the fields `unused` zero: the command `i` if both hold. -/
def checked (k : Fin 8) (wc : Nibble) (unused : List Nibble) (i : Instr) : Except DecodeError Instr :=
  if unused.any (fun f => f != 0#4) then .error .unusedField
  else if widthLegal k wc then .ok i
  else .error .width

/-- Condition 5 of R68, for LDN and TONAT. -/
def checkedNative (aux : Nibble) (next : NativeType → Except DecodeError Instr) : Except DecodeError Instr :=
  match NativeType.ofCode aux with
  | some nt => next nt
  | none => .error .nativeType

/-- Condition 6 of R68, for RESIZE. -/
def checkedSource (k : Fin 8) (swc : Nibble) (next : Except DecodeError Instr) : Except DecodeError Instr :=
  if widthLegal k swc then next else .error .sourceWidth

/-- The command of operation `o` with the other fields of the word (R67): which fields it uses, and that the rest are
zero. -/
def decodeOperation (k : Fin 8) (f : Fields) (arg : BitVec 64) (o : Opcode) : Except DecodeError Instr :=
  let d := regOf f.rd
  let a := regOf f.rs1
  let b := regOf f.rs2
  match o with
  | .clr => checked k f.wc [f.rs1, f.rs2, f.aux] (.clr d f.wc)
  | .mov => checked k f.wc [f.rs2, f.aux] (.mov d a f.wc)
  | .ldn => checkedNative f.aux fun nt => checked k f.wc [f.rs1, f.rs2] (.ldn d f.wc nt arg)
  | .resize => checkedSource k f.aux (checked k f.wc [f.rs2] (.resize d a f.wc f.aux))
  | .tonat => checkedNative f.aux fun nt => checked k f.wc [f.rd, f.rs2] (.tonat a f.wc nt)
  | .add => checked k f.wc [f.aux] (.add d a b f.wc)
  | .sub => checked k f.wc [f.aux] (.sub d a b f.wc)
  | .neg => checked k f.wc [f.rs2, f.aux] (.neg d a f.wc)
  | .inc => checked k f.wc [f.rs2, f.aux] (.inc d a f.wc)
  | .dec => checked k f.wc [f.rs2, f.aux] (.dec d a f.wc)
  | .mul => checked k f.wc [f.aux] (.mul d a b f.wc)
  | .div => checked k f.wc [f.aux] (.div d a b f.wc)
  | .mod => checked k f.wc [f.aux] (.mod d a b f.wc)
  | .shl => checked k f.wc [f.rs2, f.aux] (.shl d a f.wc arg)
  | .shr => checked k f.wc [f.rs2, f.aux] (.shr d a f.wc arg)
  | .not => checked k f.wc [f.rs2, f.aux] (.not d a f.wc)
  | .and => checked k f.wc [f.aux] (.and d a b f.wc)
  | .or => checked k f.wc [f.aux] (.or d a b f.wc)
  | .xor => checked k f.wc [f.aux] (.xor d a b f.wc)
  | .test => checked k f.wc [f.rd, f.rs2, f.aux] (.test a f.wc)
  | .eq => checked k f.wc [f.rd, f.aux] (.eq a b f.wc)
  | .ne => checked k f.wc [f.rd, f.aux] (.ne a b f.wc)
  | .lt => checked k f.wc [f.rd, f.aux] (.lt a b f.wc)
  | .le => checked k f.wc [f.rd, f.aux] (.le a b f.wc)
  | .gt => checked k f.wc [f.rd, f.aux] (.gt a b f.wc)
  | .ge => checked k f.wc [f.rd, f.aux] (.ge a b f.wc)
  | .parse => checked k f.wc [f.rs1, f.rs2, f.aux] (.parse d f.wc (argBase arg) (argLength arg))
  | .parsez => checked k f.wc [f.rs1, f.rs2, f.aux] (.parsez d f.wc (argBase arg))
  | .fmt => checked k f.wc [f.rd, f.rs2, f.aux] (.fmt a f.wc (argBase arg))
  | .clrerr => checked k f.wc [f.rd, f.rs1, f.rs2, f.wc, f.aux] .clrerr

/-- The decode checks of R68 on the fields of a word, with the ARG that came with it. -/
def decodeFields (k : Fin 8) (f : Fields) (arg : BitVec 64) : Except DecodeError Instr :=
  if f.rsv != 0#4 then .error .reservedBits
  else
    match Opcode.ofByte f.op with
    | none => .error .unknownOpcode
    | some o => decodeOperation k f arg o

/-- The decoder of an instance with width parameter K: "An encoding either selects exactly one command of rule R66 or
is illegal" (R69). -/
def decode (k : Fin 8) (c : Command) : Except DecodeError Instr := decodeFields k (fieldsOf c.word) c.arg

/-! ### The encoder -/

/-- The operation of a command (R66). -/
def Instr.opcode : Instr → Opcode
  | .clr .. => .clr
  | .mov .. => .mov
  | .ldn .. => .ldn
  | .resize .. => .resize
  | .tonat .. => .tonat
  | .add .. => .add
  | .sub .. => .sub
  | .neg .. => .neg
  | .inc .. => .inc
  | .dec .. => .dec
  | .mul .. => .mul
  | .div .. => .div
  | .mod .. => .mod
  | .shl .. => .shl
  | .shr .. => .shr
  | .not .. => .not
  | .and .. => .and
  | .or .. => .or
  | .xor .. => .xor
  | .test .. => .test
  | .eq .. => .eq
  | .ne .. => .ne
  | .lt .. => .lt
  | .le .. => .le
  | .gt .. => .gt
  | .ge .. => .ge
  | .parse .. => .parse
  | .parsez .. => .parsez
  | .fmt .. => .fmt
  | .clrerr => .clrerr

/-- The fields of a word of operation `o` that uses the fields given; the rest are zero (R67). -/
def fieldsFor (o : Opcode) (wc : Nibble := 0) (rd rs1 rs2 : Reg := 0) (aux : Nibble := 0) : Fields where
  rsv := 0
  aux := aux
  wc := wc
  rs2 := regCode rs2
  rs1 := regCode rs1
  rd := regCode rd
  op := o.toByte

/-- The fields of a command's word (R67). -/
def Instr.fields : Instr → Fields
  | .clr rd wc => fieldsFor .clr wc (rd := rd)
  | .mov rd rs1 wc => fieldsFor .mov wc (rd := rd) (rs1 := rs1)
  | .ldn rd wc nt _ => fieldsFor .ldn wc (rd := rd) (aux := nt.toCode)
  | .resize rd rs1 wc swc => fieldsFor .resize wc (rd := rd) (rs1 := rs1) (aux := swc)
  | .tonat rs1 wc nt => fieldsFor .tonat wc (rs1 := rs1) (aux := nt.toCode)
  | .add rd rs1 rs2 wc => fieldsFor .add wc rd rs1 rs2
  | .sub rd rs1 rs2 wc => fieldsFor .sub wc rd rs1 rs2
  | .neg rd rs1 wc => fieldsFor .neg wc rd rs1
  | .inc rd rs1 wc => fieldsFor .inc wc rd rs1
  | .dec rd rs1 wc => fieldsFor .dec wc rd rs1
  | .mul rd rs1 rs2 wc => fieldsFor .mul wc rd rs1 rs2
  | .div rd rs1 rs2 wc => fieldsFor .div wc rd rs1 rs2
  | .mod rd rs1 rs2 wc => fieldsFor .mod wc rd rs1 rs2
  | .shl rd rs1 wc _ => fieldsFor .shl wc rd rs1
  | .shr rd rs1 wc _ => fieldsFor .shr wc rd rs1
  | .not rd rs1 wc => fieldsFor .not wc rd rs1
  | .and rd rs1 rs2 wc => fieldsFor .and wc rd rs1 rs2
  | .or rd rs1 rs2 wc => fieldsFor .or wc rd rs1 rs2
  | .xor rd rs1 rs2 wc => fieldsFor .xor wc rd rs1 rs2
  | .test rs1 wc => fieldsFor .test wc (rs1 := rs1)
  | .eq rs1 rs2 wc => fieldsFor .eq wc (rs1 := rs1) (rs2 := rs2)
  | .ne rs1 rs2 wc => fieldsFor .ne wc (rs1 := rs1) (rs2 := rs2)
  | .lt rs1 rs2 wc => fieldsFor .lt wc (rs1 := rs1) (rs2 := rs2)
  | .le rs1 rs2 wc => fieldsFor .le wc (rs1 := rs1) (rs2 := rs2)
  | .gt rs1 rs2 wc => fieldsFor .gt wc (rs1 := rs1) (rs2 := rs2)
  | .ge rs1 rs2 wc => fieldsFor .ge wc (rs1 := rs1) (rs2 := rs2)
  | .parse rd wc _ _ => fieldsFor .parse wc (rd := rd)
  | .parsez rd wc _ => fieldsFor .parsez wc (rd := rd)
  | .fmt rs1 wc _ => fieldsFor .fmt wc (rs1 := rs1)
  | .clrerr => fieldsFor .clrerr

/-- The ARG of a command; the bits R65 gives no meaning are written as 0. -/
def Instr.arg : Instr → BitVec 64
  | .ldn _ _ _ arg => arg
  | .shl _ _ _ amount => amount
  | .shr _ _ _ amount => amount
  | .parse _ _ base length => argOf base length
  | .parsez _ _ base => argOf base 0
  | .fmt _ _ base => argOf base 0
  | .clr .. | .mov .. | .resize .. | .tonat .. | .add .. | .sub .. | .neg .. | .inc .. | .dec .. | .mul .. | .div ..
  | .mod .. | .not .. | .and .. | .or .. | .xor .. | .test .. | .eq .. | .ne .. | .lt .. | .le .. | .gt .. | .ge ..
  | .clrerr => 0

/-- The word and ARG of a command (R60, R61). -/
def encode (i : Instr) : Command := { word := wordOf i.fields, arg := i.arg }

/-! ### The host's numbering of instruction bits -/

/-- The command whose bits are the first `nbits` bits of `w`, every bit above them 0: the command word is bits 31..0
and ARG the 64 bits above it, the order in which R60 names them. -/
def commandOfBits (nbits w : Nat) : Command :=
  let bits := w % 2 ^ nbits
  { word := BitVec.ofNat 32 bits, arg := BitVec.ofNat 64 (bits / 2 ^ 32) }

/-- What the decoder of the reference configuration (R5) reads from those bits. -/
def decodeTableWord (nbits w : Nat) : Option Instr :=
  match decode Params.reference.k (commandOfBits nbits w) with
  | .ok i => some i
  | .error _ => none

end Sys2Proof
end

