-- ==== Sys2Proof/Machine/Operands.lean ====
section
/-! DEFINITION. Operand widths, native types, sign extension and the operand-width check (00_scope.md R7 to R9,
10_state.md R22, 30_encoding.md R62, R64). -/

namespace Sys2Proof.Machine

/-- The operating width `w = 128 · 2^WC` of a width code (R62). -/
def widthOf (wc : Nibble) : Nat := 128 * 2 ^ wc.toNat

/-- `M = 2^w` (R8). -/
def modulus (wc : Nibble) : Nat := 2 ^ widthOf wc

/-- `N = 8 · 2^AUX[1:0]`, the width of a native type (R64). -/
def nativeWidth : NativeType → Nat
  | .u8 => 8
  | .u16 => 16
  | .u32 => 32
  | .u64 => 64
  | .s8 => 8
  | .s16 => 16
  | .s32 => 32
  | .s64 => 64

/-- `signed = AUX[2]` (R64). -/
def nativeSigned : NativeType → Bool
  | .u8 => false
  | .u16 => false
  | .u32 => false
  | .u64 => false
  | .s8 => true
  | .s16 => true
  | .s32 => true
  | .s64 => true

/-- `sext_n(v)` of a value v of width m < n: "`v + (2^n − 2^m)` if `v[m−1] = 1`, else v" (R9). -/
def signExtend (n m v : Nat) : Nat := if v.testBit (m - 1) then v + (2 ^ n - 2 ^ m) else v

/-- The n-bit value of the N-bit native field `x` of a native type: `sext_n(x)` when signed, `zext_n(x)` when unsigned
(R83, R86). -/
def nativeValue (nt : NativeType) (n x : Nat) : Nat :=
  if nativeSigned nt then signExtend n (nativeWidth nt) x else x

/-- The wide destination of a command (R67, column RD); none where the column is 0. -/
def destOf : Instr → Option Reg
  | .clr rd _ => some rd
  | .mov rd _ _ => some rd
  | .ldn rd _ _ _ => some rd
  | .resize rd _ _ _ => some rd
  | .tonat _ _ _ => none
  | .add rd _ _ _ => some rd
  | .sub rd _ _ _ => some rd
  | .neg rd _ _ => some rd
  | .inc rd _ _ => some rd
  | .dec rd _ _ => some rd
  | .mul rd _ _ _ => some rd
  | .div rd _ _ _ => some rd
  | .mod rd _ _ _ => some rd
  | .shl rd _ _ _ => some rd
  | .shr rd _ _ _ => some rd
  | .not rd _ _ => some rd
  | .and rd _ _ _ => some rd
  | .or rd _ _ _ => some rd
  | .xor rd _ _ _ => some rd
  | .test _ _ => none
  | .eq _ _ _ => none
  | .ne _ _ _ => none
  | .lt _ _ _ => none
  | .le _ _ _ => none
  | .gt _ _ _ => none
  | .ge _ _ _ => none
  | .parse rd _ _ _ => some rd
  | .parsez rd _ _ => some rd
  | .fmt _ _ _ => none
  | .clrerr => none

/-- The wide sources of a command and the width code each must have, RS1 before RS2 (R22, R67); RESIZE's source must have
the code SWC (R85). -/
def sourcesOf : Instr → List (Reg × Nibble)
  | .clr _ _ => []
  | .mov _ rs1 wc => [(rs1, wc)]
  | .ldn _ _ _ _ => []
  | .resize _ rs1 _ swc => [(rs1, swc)]
  | .tonat rs1 wc _ => [(rs1, wc)]
  | .add _ rs1 rs2 wc => [(rs1, wc), (rs2, wc)]
  | .sub _ rs1 rs2 wc => [(rs1, wc), (rs2, wc)]
  | .neg _ rs1 wc => [(rs1, wc)]
  | .inc _ rs1 wc => [(rs1, wc)]
  | .dec _ rs1 wc => [(rs1, wc)]
  | .mul _ rs1 rs2 wc => [(rs1, wc), (rs2, wc)]
  | .div _ rs1 rs2 wc => [(rs1, wc), (rs2, wc)]
  | .mod _ rs1 rs2 wc => [(rs1, wc), (rs2, wc)]
  | .shl _ rs1 wc _ => [(rs1, wc)]
  | .shr _ rs1 wc _ => [(rs1, wc)]
  | .not _ rs1 wc => [(rs1, wc)]
  | .and _ rs1 rs2 wc => [(rs1, wc), (rs2, wc)]
  | .or _ rs1 rs2 wc => [(rs1, wc), (rs2, wc)]
  | .xor _ rs1 rs2 wc => [(rs1, wc), (rs2, wc)]
  | .test rs1 wc => [(rs1, wc)]
  | .eq rs1 rs2 wc => [(rs1, wc), (rs2, wc)]
  | .ne rs1 rs2 wc => [(rs1, wc), (rs2, wc)]
  | .lt rs1 rs2 wc => [(rs1, wc), (rs2, wc)]
  | .le rs1 rs2 wc => [(rs1, wc), (rs2, wc)]
  | .gt rs1 rs2 wc => [(rs1, wc), (rs2, wc)]
  | .ge rs1 rs2 wc => [(rs1, wc), (rs2, wc)]
  | .parse _ _ _ _ => []
  | .parsez _ _ _ => []
  | .fmt rs1 wc _ => [(rs1, wc)]
  | .clrerr => []

/-- The commands that write NRES (R24). -/
def writesNative : Opcode → Bool
  | .tonat | .test | .eq | .ne | .lt | .le | .gt | .ge | .fmt => true
  | .clr | .mov | .ldn | .resize | .add | .sub | .neg | .inc | .dec | .mul | .div | .mod | .shl
  | .shr | .not | .and | .or | .xor | .parse | .parsez | .clrerr => false

/-- `W[r]` (R11). -/
def State.wide (s : State) (r : Reg) : Nat := s.w[r.val]

/-- `TAG[r]` (R11). -/
def State.tagOf (s : State) (r : Reg) : Nibble := s.tag[r.val]

/-- The operand-width check of R22 on source `r`, which must have width code `wc`: go on with `W[r]`, or raise
OperandType with the register, its tag and the code required (R190). -/
def reading (s : State) (wc : Nibble) (r : Reg) (next : Nat → Except UnitError State) : Except UnitError State :=
  if s.tagOf r = wc then next (s.wide r) else .error (.operandType r (s.tagOf r) wc)

end Sys2Proof.Machine
end

