-- ==== Sys2Proof/Machine/Ops.lean ====
section
/-! DEFINITION. The named operations over the text buffer, the registers and the error state, and the shapes that the
commands' meanings are written over (10_state.md R22 to R24, 20_memory.md R41, R48, 60_exceptions.md R189 to R193). -/

namespace Sys2Proof.Machine

/-! ### The text buffer -/

/-- The byte stored at an address, if one has been written. -/
def Memory.lookup : List Host.Cell → Nat → Option Byte
  | [], _ => none
  | (a, v) :: rest, x => if x = a then some v else Memory.lookup rest x

/-- Store one byte, keeping the addresses strictly rising. -/
def Memory.write : List Host.Cell → Nat → Byte → List Host.Cell
  | [], x, b => [(x, b)]
  | (a, v) :: rest, x, b =>
    if x < a then (x, b) :: (a, v) :: rest
    else if x = a then (x, b) :: rest
    else (a, v) :: Memory.write rest x b

/-- Store bytes at consecutive addresses, the first at `x` (R42: the most significant digit at the lowest address). -/
def Memory.writeAll : List Host.Cell → Nat → List Byte → List Host.Cell
  | m, _, [] => m
  | m, x, b :: bs => Memory.writeAll (Memory.write m x b) (x + 1) bs

/-- The canonical form of TEXT: addresses strictly rising. An address that is not listed has no stored byte, so no entry
can equal what it holds (assumption 4). -/
def Memory.wf : List Host.Cell → Bool
  | [] => true
  | [_] => true
  | (a, _) :: (b, v) :: rest => decide (a < b) && Memory.wf ((b, v) :: rest)

/-- `TEXT[a]` (R11, R41): the byte written there, and the free byte of the last reset where nothing has been written
since (R32). -/
def State.textAt (s : State) (a : Nat) : Byte :=
  match Memory.lookup s.text a with
  | some v => v
  | none => Config.textAtReset s.textDraw a

/-- `MemWrite(base, 1, ·)` of each byte in turn from `base` (R11, R168). -/
def State.writeText (s : State) (base : Nat) (bytes : List Byte) : State :=
  { s with text := Memory.writeAll s.text base bytes }

/-! ### Registers -/

/-- `W[rd] <- v ; TAG[rd] <- wc` (R23). -/
def State.setWide (s : State) (rd : Reg) (wc : Nibble) (v : Nat) : State :=
  { s with w := s.w.set rd.val v, tag := s.tag.set rd.val wc }

/-- `NRES <- v` (R24). -/
def State.setNative (s : State) (v : Nat) : State := { s with nres := BitVec.ofNat 64 v }

/-! ### Taking an error and returning from it -/

/-- The error entry of R189: ERR, EOP and EINFO are written, and nothing else. There is no handler to go to: the unit has
no program counter. `op` is cmd[7:0]. -/
def State.raise (s : State) (op : BitVec 8) (e : UnitError) : State :=
  { s with err := e.code, eop := op, einfo := e.info }

/-- The return from an error, R180 and R193: ERR, EOP and EINFO become 0, and nothing else changes. -/
def State.clearError (s : State) : State := { s with err := .none, eop := 0, einfo := 0 }

/-! ### The shapes of the commands -/

/-- A command of operation `o`: discarded while an error is pending (R192, priority 1 of R191); else its effect, or the
error it raises (R189). -/
def command (o : Opcode) (body : State → Except UnitError State) (s : State) : Outcome :=
  .next
    (if s.err = .none then
      match body s with
      | .ok t => t
      | .error e => s.raise o.toByte e
    else s)

/-- A command from one wide source of width `wc` to RD. -/
def unary (o : Opcode) (rd rs1 : Reg) (wc : Nibble) (f : Nat → Nat) (s : State) : Outcome :=
  command o (fun s => reading s wc rs1 fun a => .ok (s.setWide rd wc (f a))) s

/-- A command from two wide sources of width `wc` to RD; RS1 is checked before RS2 (R22), and both are read before RD is
written (R63). -/
def binary (o : Opcode) (rd rs1 rs2 : Reg) (wc : Nibble) (f : Nat → Nat → Nat) (s : State) : Outcome :=
  command o
    (fun s => reading s wc rs1 fun a => reading s wc rs2 fun b => .ok (s.setWide rd wc (f a b))) s

/-- A command from one wide source of width `wc` to NRES. -/
def unaryNative (o : Opcode) (rs1 : Reg) (wc : Nibble) (f : Nat → Nat) (s : State) : Outcome :=
  command o (fun s => reading s wc rs1 fun a => .ok (s.setNative (f a))) s

/-- A relation of two wide sources of width `wc`: 1 or 0 in NRES (R24). -/
def relation (o : Opcode) (rs1 rs2 : Reg) (wc : Nibble) (p : Nat → Nat → Bool) (s : State) : Outcome :=
  command o
    (fun s => reading s wc rs1 fun a => reading s wc rs2 fun b => .ok (s.setNative (p a b).toNat)) s

/-- A command that divides: DivisionByZero when the divisor is 0, after the operand-width checks (R121, R122, R187). -/
def dividing (o : Opcode) (rd rs1 rs2 : Reg) (wc : Nibble) (f : Nat → Nat → Nat) (s : State) : Outcome :=
  command o
    (fun s => reading s wc rs1 fun a => reading s wc rs2 fun b =>
      if b = 0 then .error (.divisionByZero rs2) else .ok (s.setWide rd wc (f a b))) s

end Sys2Proof.Machine
end

