-- ==== Sys2Proof/Machine/Arithmetic.lean ====
section
/-! DEFINITION. The meanings of ADD, SUB, NEG, INC, DEC and MUL, unsigned modulo M = 2^w (42_arithmetic.md R100 to
R109). -/

namespace Sys2Proof.Machine

/-- ADD: `W[RD] <- (a + b) mod M` (R101). -/
def execAdd (rd rs1 rs2 : Reg) (wc : Nibble) (s : State) : Outcome :=
  binary .add rd rs1 rs2 wc (fun a b => (a + b) % modulus wc) s

/-- SUB: `W[RD] <- (a − b) mod M` (R103). The difference is taken over the integers; `mod` is the non-negative remainder
(R8). -/
def execSub (rd rs1 rs2 : Reg) (wc : Nibble) (s : State) : Outcome :=
  binary .sub rd rs1 rs2 wc (fun a b => (((a : Int) - (b : Int)) % (modulus wc : Int)).toNat) s

/-- NEG: `W[RD] <- (~a + 1) mod M`, where `~a = M − 1 − a` (R104). -/
def execNeg (rd rs1 : Reg) (wc : Nibble) (s : State) : Outcome :=
  unary .neg rd rs1 wc (fun a => (modulus wc - 1 - a + 1) % modulus wc) s

/-- INC: `(a + 1) mod M` (R105). -/
def execInc (rd rs1 : Reg) (wc : Nibble) (s : State) : Outcome :=
  unary .inc rd rs1 wc (fun a => (a + 1) % modulus wc) s

/-- DEC: `(a − 1) mod M` (R106). -/
def execDec (rd rs1 : Reg) (wc : Nibble) (s : State) : Outcome :=
  unary .dec rd rs1 wc (fun a => (((a : Int) - 1) % (modulus wc : Int)).toNat) s

/-- MUL: `W[RD] <- (a · b) mod M` (R108). -/
def execMul (rd rs1 rs2 : Reg) (wc : Nibble) (s : State) : Outcome :=
  binary .mul rd rs1 rs2 wc (fun a b => a * b % modulus wc) s

end Sys2Proof.Machine
end

