-- ==== Sys2Proof/Machine/BitOps.lean ====
section
/-! DEFINITION. The meanings of SHL, SHR, NOT, AND, OR, XOR and TEST (44_bitops.md R130 to R138). -/

namespace Sys2Proof.Machine

/-- SHL: `(s >= w) ? 0 : (a * 2^s) mod M` (R131). -/
def execShl (rd rs1 : Reg) (wc : Nibble) (amount : BitVec 64) (s : State) : Outcome :=
  unary .shl rd rs1 wc
    (fun a => if amount.toNat ≥ widthOf wc then 0 else a * 2 ^ amount.toNat % modulus wc) s

/-- SHR: `(s >= w) ? 0 : floor(a / 2^s)` (R133). -/
def execShr (rd rs1 : Reg) (wc : Nibble) (amount : BitVec 64) (s : State) : Outcome :=
  unary .shr rd rs1 wc (fun a => if amount.toNat ≥ widthOf wc then 0 else a / 2 ^ amount.toNat) s

/-- NOT: `M − 1 − a` (R134). -/
def execNot (rd rs1 : Reg) (wc : Nibble) (s : State) : Outcome :=
  unary .not rd rs1 wc (fun a => modulus wc - 1 - a) s

/-- AND: `a & b` (R135). -/
def execAnd (rd rs1 rs2 : Reg) (wc : Nibble) (s : State) : Outcome :=
  binary .and rd rs1 rs2 wc (fun a b => a &&& b) s

/-- OR: `a | b` (R136). -/
def execOr (rd rs1 rs2 : Reg) (wc : Nibble) (s : State) : Outcome :=
  binary .or rd rs1 rs2 wc (fun a b => a ||| b) s

/-- XOR: `a ^ b` (R137). -/
def execXor (rd rs1 rs2 : Reg) (wc : Nibble) (s : State) : Outcome :=
  binary .xor rd rs1 rs2 wc (fun a b => a ^^^ b) s

/-- TEST: 1 if a ≠ 0, else 0, in NRES (R138). -/
def execTest (rs1 : Reg) (wc : Nibble) (s : State) : Outcome :=
  unaryNative .test rs1 wc (fun a => if a = 0 then 0 else 1) s

end Sys2Proof.Machine
end

