-- ==== Sys2Proof/Machine/Construction.lean ====
section
/-! DEFINITION. The meanings of CLR, MOV, LDN, RESIZE and TONAT (41_construction.md R81 to R86). -/

namespace Sys2Proof.Machine

/-- `x = ARG[N−1:0]`, the native field of ARG; "ARG[63:N] is ignored" (R84). -/
def nativeField (nt : NativeType) (arg : BitVec 64) : Nat := arg.toNat % 2 ^ nativeWidth nt

/-- `bits <- W[RS1][N-1:0] ; NRES <- (signed ? sext_64(bits) : zext_64(bits))` (R86): the value of NRES. -/
def toNative (nt : NativeType) (a : Nat) : Nat := nativeValue nt 64 (a % 2 ^ nativeWidth nt)

/-- CLR: `W[RD] <- 0 ; TAG[RD] <- WC` (R81). -/
def execClr (rd : Reg) (wc : Nibble) (s : State) : Outcome := command .clr (fun s => .ok (s.setWide rd wc 0)) s

/-- MOV: `a <- W[RS1] ; W[RD] <- a ; TAG[RD] <- WC` (R82). -/
def execMov (rd rs1 : Reg) (wc : Nibble) (s : State) : Outcome := unary .mov rd rs1 wc (fun a => a) s

/-- LDN: the native field of ARG, sign- or zero-extended to w (R83, R84). -/
def execLdn (rd : Reg) (wc : Nibble) (nt : NativeType) (arg : BitVec 64) (s : State) : Outcome :=
  command .ldn (fun s => .ok (s.setWide rd wc (nativeValue nt (widthOf wc) (nativeField nt arg)))) s

/-- RESIZE: RS1 must have the source width SWC; `W[RD] <- v mod 2^w ; TAG[RD] <- WC` (R80, R85). -/
def execResize (rd rs1 : Reg) (wc swc : Nibble) (s : State) : Outcome :=
  command .resize (fun s => reading s swc rs1 fun v => .ok (s.setWide rd wc (v % modulus wc))) s

/-- TONAT: the low N bits, sign- or zero-extended to 64, in NRES (R86). -/
def execTonat (rs1 : Reg) (wc : Nibble) (nt : NativeType) (s : State) : Outcome :=
  unaryNative .tonat rs1 wc (toNative nt) s

end Sys2Proof.Machine
end

