-- ==== Sys2Proof/Machine/Control.lean ====
section
/-! DEFINITION. The meaning of CLRERR (47_control.md R180). -/

namespace Sys2Proof.Machine

/-- CLRERR: `STATUS.ERR <- 0 ; STATUS.EOP <- 0 ; EINFO <- 0`. It is "the only command that can execute while an error is
pending" (R180), so it is not written over `command`. -/
def execClrerr (s : State) : Outcome := .next s.clearError

end Sys2Proof.Machine
end

