-- ==== Sys2Proof/Machine/Division.lean ====
section
/-! DEFINITION. The meanings of DIV and MOD (43_division.md R120 to R123). -/

namespace Sys2Proof.Machine

/-- DIV: `floor(a / b)`, or DivisionByZero (R121). -/
def execDiv (rd rs1 rs2 : Reg) (wc : Nibble) (s : State) : Outcome :=
  dividing .div rd rs1 rs2 wc (fun a b => a / b) s

/-- MOD: `a mod b`, or DivisionByZero (R122). -/
def execMod (rd rs1 rs2 : Reg) (wc : Nibble) (s : State) : Outcome :=
  dividing .mod rd rs1 rs2 wc (fun a b => a % b) s

end Sys2Proof.Machine
end

