-- ==== Sys2Proof/Machine/Ordering.lean ====
section
/-! DEFINITION. The meanings of EQ, NE, LT, LE, GT and GE: 1 or 0 in NRES (45_ordering.md R150 to R157). The two
primitives are equality and less-than on the naturals (R150). -/

namespace Sys2Proof.Machine

/-- EQ (R151). -/
def execEq (rs1 rs2 : Reg) (wc : Nibble) (s : State) : Outcome :=
  relation .eq rs1 rs2 wc (fun a b => decide (a = b)) s

/-- NE: `eq(a, b, w) ? 0 : 1` (R152). -/
def execNe (rs1 rs2 : Reg) (wc : Nibble) (s : State) : Outcome :=
  relation .ne rs1 rs2 wc (fun a b => !decide (a = b)) s

/-- LT (R153). -/
def execLt (rs1 rs2 : Reg) (wc : Nibble) (s : State) : Outcome :=
  relation .lt rs1 rs2 wc (fun a b => decide (a < b)) s

/-- LE: `lt(b, a, w) ? 0 : 1` (R154). -/
def execLe (rs1 rs2 : Reg) (wc : Nibble) (s : State) : Outcome :=
  relation .le rs1 rs2 wc (fun a b => !decide (b < a)) s

/-- GT: `lt(b, a, w) ? 1 : 0` (R155). -/
def execGt (rs1 rs2 : Reg) (wc : Nibble) (s : State) : Outcome :=
  relation .gt rs1 rs2 wc (fun a b => decide (b < a)) s

/-- GE: `lt(a, b, w) ? 0 : 1` (R156). -/
def execGe (rs1 rs2 : Reg) (wc : Nibble) (s : State) : Outcome :=
  relation .ge rs1 rs2 wc (fun a b => !decide (a < b)) s

end Sys2Proof.Machine
end

