-- ==== Sys2Proof/Machine/Text.lean ====
section
/-! DEFINITION. The meanings of PARSE, PARSEZ and FMT (46_text.md R160 to R168). -/

namespace Sys2Proof.Machine

/-- "A decimal digit is a byte in the range 0x30 to 0x39" (R160). -/
def isDigit (c : Byte) : Bool := decide (0x30 ≤ c.toNat) && decide (c.toNat ≤ 0x39)

/-- "Its value is `c − 0x30`" (R160). -/
def digitValue (c : Byte) : Nat := c.toNat - 0x30

/-- The byte of a digit value, `0x30 + d` (R165). -/
def digitByte (d : Nat) : Byte := BitVec.ofNat 8 (0x30 + d)

/-- The loop of PARSE over `n` bytes from address `a`, modulo `m` (R162). -/
def parseBounded (text : Nat → Byte) (m : Nat) : Nat → Nat → Nat → Except UnitError Nat
  | 0, _, acc => .ok acc
  | n + 1, a, acc =>
    if isDigit (text a) then parseBounded text m n (a + 1) ((acc * 10 + digitValue (text a)) % m)
    else .error (.invalidFormat a (text a))

/-- The loop of PARSEZ from address `a`, modulo `m` (R163). The first argument is how many bytes of TEXT are left from
`a` on: with none left, the scan has run off the buffer. -/
def parseTerminated (text : Nat → Byte) (m : Nat) (base : BitVec 32) : Nat → Nat → Nat → Except UnitError Nat
  | 0, _, _ => .error (.textBounds base)
  | left + 1, a, acc =>
    if text a = 0x00 then .ok acc
    else if isDigit (text a) then
      parseTerminated text m base left (a + 1) ((acc * 10 + digitValue (text a)) % m)
    else .error (.invalidFormat a (text a))

/-- The digits of a value, the most significant first, for at most `fuel` digits (R165). -/
def decimalDigits : Nat → Nat → List Byte
  | 0, _ => []
  | fuel + 1, v =>
    if v / 10 = 0 then [digitByte (v % 10)] else decimalDigits fuel (v / 10) ++ [digitByte (v % 10)]

/-- The digit string of a value (R165): "0" for 0, and no leading zeros otherwise. A value has fewer than v + 2 digits,
so the fuel never runs out. -/
def formatDecimal (v : Nat) : List Byte := decimalDigits (v + 1) v

/-- `D(w)`, the number of decimal digits of 2^w − 1 (R6). -/
def maxDigits (w : Nat) : Nat := (formatDecimal (2 ^ w - 1)).length

/-- PARSE: the range check, then the digits (R162). -/
def execParse (rd : Reg) (wc : Nibble) (base length : BitVec 32) (s : State) : Outcome :=
  command .parse
    (fun s =>
      if base.toNat + length.toNat > s.params.textBytes then .error (.textBounds base)
      else
        match parseBounded s.textAt (modulus wc) length.toNat base.toNat 0 with
        | .ok acc => .ok (s.setWide rd wc acc)
        | .error e => .error e) s

/-- PARSEZ: the digits up to the first 0x00 (R163). -/
def execParsez (rd : Reg) (wc : Nibble) (base : BitVec 32) (s : State) : Outcome :=
  command .parsez
    (fun s =>
      match parseTerminated s.textAt (modulus wc) base (s.params.textBytes - base.toNat) base.toNat 0 with
      | .ok acc => .ok (s.setWide rd wc acc)
      | .error e => .error e) s

/-- FMT: the digits at `base` and their count in NRES (R168). -/
def execFmt (rs1 : Reg) (wc : Nibble) (base : BitVec 32) (s : State) : Outcome :=
  command .fmt
    (fun s => reading s wc rs1 fun a =>
      let digits := formatDecimal a
      if base.toNat + digits.length > s.params.textBytes then .error (.textBounds base)
      else .ok ((s.writeText base.toNat digits).setNative digits.length)) s

end Sys2Proof.Machine
end

