-- ==== Sys2Proof/Machine/Dispatch.lean ====
section
/-! DEFINITION. The command's meaning, one arm for each constructor of Instr. -/

namespace Sys2Proof.Machine

/-- What a command does at its completion (R50). -/
def exec (i : Instr) (s : State) : Host.Outcome State Fault Refusal :=
  match i with
  | .clr rd wc => Sys2Proof.Machine.execClr rd wc s
  | .mov rd rs1 wc => Sys2Proof.Machine.execMov rd rs1 wc s
  | .ldn rd wc nt arg => Sys2Proof.Machine.execLdn rd wc nt arg s
  | .resize rd rs1 wc swc => Sys2Proof.Machine.execResize rd rs1 wc swc s
  | .tonat rs1 wc nt => Sys2Proof.Machine.execTonat rs1 wc nt s
  | .add rd rs1 rs2 wc => Sys2Proof.Machine.execAdd rd rs1 rs2 wc s
  | .sub rd rs1 rs2 wc => Sys2Proof.Machine.execSub rd rs1 rs2 wc s
  | .neg rd rs1 wc => Sys2Proof.Machine.execNeg rd rs1 wc s
  | .inc rd rs1 wc => Sys2Proof.Machine.execInc rd rs1 wc s
  | .dec rd rs1 wc => Sys2Proof.Machine.execDec rd rs1 wc s
  | .mul rd rs1 rs2 wc => Sys2Proof.Machine.execMul rd rs1 rs2 wc s
  | .div rd rs1 rs2 wc => Sys2Proof.Machine.execDiv rd rs1 rs2 wc s
  | .mod rd rs1 rs2 wc => Sys2Proof.Machine.execMod rd rs1 rs2 wc s
  | .shl rd rs1 wc amount => Sys2Proof.Machine.execShl rd rs1 wc amount s
  | .shr rd rs1 wc amount => Sys2Proof.Machine.execShr rd rs1 wc amount s
  | .not rd rs1 wc => Sys2Proof.Machine.execNot rd rs1 wc s
  | .and rd rs1 rs2 wc => Sys2Proof.Machine.execAnd rd rs1 rs2 wc s
  | .or rd rs1 rs2 wc => Sys2Proof.Machine.execOr rd rs1 rs2 wc s
  | .xor rd rs1 rs2 wc => Sys2Proof.Machine.execXor rd rs1 rs2 wc s
  | .test rs1 wc => Sys2Proof.Machine.execTest rs1 wc s
  | .eq rs1 rs2 wc => Sys2Proof.Machine.execEq rs1 rs2 wc s
  | .ne rs1 rs2 wc => Sys2Proof.Machine.execNe rs1 rs2 wc s
  | .lt rs1 rs2 wc => Sys2Proof.Machine.execLt rs1 rs2 wc s
  | .le rs1 rs2 wc => Sys2Proof.Machine.execLe rs1 rs2 wc s
  | .gt rs1 rs2 wc => Sys2Proof.Machine.execGt rs1 rs2 wc s
  | .ge rs1 rs2 wc => Sys2Proof.Machine.execGe rs1 rs2 wc s
  | .parse rd wc base length => Sys2Proof.Machine.execParse rd wc base length s
  | .parsez rd wc base => Sys2Proof.Machine.execParsez rd wc base s
  | .fmt rs1 wc base => Sys2Proof.Machine.execFmt rs1 wc base s
  | .clrerr => Sys2Proof.Machine.execClrerr s

end Sys2Proof.Machine
end

