-- ==== Sys2Proof/Machine/Port.lean ====
section
/-! DEFINITION. The host's port operations: what each does to the unit and what it returns (20_memory.md R44 to R47,
70_reset_and_hazards.md R210 to R216). -/

namespace Sys2Proof.Machine

/-- ISSUE accepted: "An accepted command sets BUSY to 1 and starts executing" (R45). How many host operations land before
it completes is the open latency, a fresh draw (assumption 3). -/
def State.accept (s : State) (c : Command) : State :=
  { s with
    inFlight := some { cmd := c, opsLeft := Config.latency s.draws }
    draws := s.draws + 1 }

/-- Give the host a value: no other state changes ("No READ changes any state", R46). -/
def State.reply (s : State) (r : Reply) : State := { s with replies := s.replies ++ [r] }

/-- The free value of a busy-time read of NRES or EINFO, one draw for each (R46). -/
def State.replyFreeWord (s : State) : State :=
  { s.reply (.word (Config.busyWord s.draws)) with draws := s.draws + 1 }

/-- The free byte of a busy-time TEXT_READ, one draw for each (R47). -/
def State.replyFreeByte (s : State) : State :=
  { s.reply (.byte (Config.busyByte s.draws)) with draws := s.draws + 1 }

/-- READ (R46): STATUS and ID at any time; NRES and EINFO are their values while BUSY = 0, and unspecified while
BUSY = 1. -/
def State.read (s : State) (p : ReadPort) : State :=
  match p with
  | .status => s.reply (.word s.status)
  | .id => s.reply (.word (idWord s.params))
  | .nres => if s.busy then s.replyFreeWord else s.reply (.word s.nres)
  | .einfo => if s.busy then s.replyFreeWord else s.reply (.word s.einfo)

/-- TEXT_READ (R47): 0x00 at an address that is not in TEXT, whatever BUSY is (assumption 7); else an unspecified byte
while BUSY = 1, and TEXT[a] while BUSY = 0. -/
def State.textRead (s : State) (a : BitVec 32) : State :=
  if a.toNat ≥ s.params.textBytes then s.reply (.byte 0x00)
  else if s.busy then s.replyFreeByte
  else s.reply (.byte (s.textAt a.toNat))

/-- TEXT_WRITE (R47): discarded while BUSY = 1 and at an address that is not in TEXT. -/
def State.textWrite (s : State) (a : BitVec 32) (v : Byte) : State :=
  if s.busy || decide (a.toNat ≥ s.params.textBytes) then s
  else { s with text := Memory.write s.text a.toNat v }

/-- RESET (R210, R211): every piece of state to its reset value, a command in flight abandoned, every byte of TEXT
unspecified (a fresh draw), the parameters kept. What the host has still to do and has read is the host's own. -/
def State.resetPort (s : State) : State :=
  { State.resetOf s.params with
    host := s.host
    replies := s.replies
    textDraw := s.draws
    draws := s.draws + 1 }

/-- One port operation. An ISSUE comes here only while BUSY = 0: a waiting ISSUE is left to wait by `unitActs`. -/
def State.perform (s : State) (op : HostOp) : State :=
  match op with
  | .issue c => s.accept c
  | .read p => s.read p
  | .textRead a => s.textRead a
  | .textWrite a v => s.textWrite a v
  | .reset => s.resetPort

/-- The host's next operation is taken from its list; one more has landed in the busy window, if there is one. -/
def State.takeOp (s : State) (rest : List HostOp) : State :=
  { s with
    host := rest
    inFlight := s.inFlight.map fun f => { f with opsLeft := f.opsLeft - 1 } }

/-- The host's turn: its next operation, or nothing when it has none ("The unit never starts an action of its own",
R14). -/
def hostActs (s : State) : Outcome :=
  match s.host with
  | [] => .next s
  | op :: rest => .next ((s.takeOp rest).perform op)

/-- Whether the command in flight completes before the host's next operation: it does when the host has none, when the
host waits with an ISSUE (R45), and when as many operations have landed as its latency lets (assumption 3). -/
def unitActs (f : InFlight) (s : State) : Bool :=
  match s.host with
  | [] => true
  | .issue _ :: _ => true
  | _ :: _ => f.opsLeft == 0

/-- BUSY falls: "At completion the unit applies the command's effects and sets BUSY to 0" (R45). -/
def State.retire (s : State) : State := { s with inFlight := none }

/-- A word that selects no command: discarded while an error is pending (R192), else IllegalCommand with the word in
EINFO and cmd[7:0] in EOP (R70, R189). -/
def rejectWord (word : BitVec 32) (s : State) : Outcome :=
  .next (if s.err = .none then s.raise (word.extractLsb' 0 8) (.illegalCommand word) else s)

/-- The state in which a command is in flight and completes at the next step. -/
def State.withInFlight (s : State) (c : Command) : State := { s with inFlight := some { cmd := c, opsLeft := 0 } }

end Sys2Proof.Machine
end

