-- ==== Sys2Proof/Machine/Complete.lean ====
section
/-! DEFINITION. The completion of the command in flight: its effects applied as one atomic step (20_memory.md R45, R50,
30_encoding.md R70, 60_exceptions.md R191). -/

namespace Sys2Proof.Machine

/-- Complete a command: BUSY falls, and the command the word selects has its effect, or the word is rejected. The decode
checks come first (R70); a pending error discards the command in either case (R191, R192). -/
def complete (c : Command) (s : State) : Outcome :=
  match decode s.params.k c with
  | .ok i => exec i s.retire
  | .error _ => rejectWord c.word s.retire

end Sys2Proof.Machine
end

