-- ==== Sys2Proof/Machine/Step.lean ====
section
/-! DEFINITION. One step of the machine (00_scope.md R14, 20_memory.md R44, R45, R50): the unit completes the command in
flight, or the host performs its next port operation. -/

namespace Sys2Proof.Machine

/-- One step. While a command is in flight, plain data says which agent moves: `unitActs`. -/
def step (s : State) : Host.Outcome State Fault Refusal :=
  match s.inFlight with
  | some f => if unitActs f s then complete f.cmd s else hostActs s
  | none => hostActs s

/-- The state with the command of these bits accepted and about to complete, so that the next step runs it. The unit
fetches nothing: a command comes by ISSUE (R28, R45; assumption 8). -/
def State.withFetchWord (s : State) (nbits w : Nat) : State := s.withInFlight (commandOfBits nbits w)

end Sys2Proof.Machine
end

