-- ==== Sys2Proof/Machine/Assembler.lean ====
section
/-! DEFINITION. The spec's assembler: the spelling of a command and the pseudo-instructions, which are not commands
of the unit ("The unit sees only the expansion") (30_encoding.md R71, R72). -/

namespace Sys2Proof.Machine.Assembler

/-- MNEMONIC (R66). -/
def mnemonic : Opcode → String
  | .clr => "CLR"
  | .mov => "MOV"
  | .ldn => "LDN"
  | .resize => "RESIZE"
  | .tonat => "TONAT"
  | .add => "ADD"
  | .sub => "SUB"
  | .neg => "NEG"
  | .inc => "INC"
  | .dec => "DEC"
  | .mul => "MUL"
  | .div => "DIV"
  | .mod => "MOD"
  | .shl => "SHL"
  | .shr => "SHR"
  | .not => "NOT"
  | .and => "AND"
  | .or => "OR"
  | .xor => "XOR"
  | .test => "TEST"
  | .eq => "EQ"
  | .ne => "NE"
  | .lt => "LT"
  | .le => "LE"
  | .gt => "GT"
  | .ge => "GE"
  | .parse => "PARSE"
  | .parsez => "PARSEZ"
  | .fmt => "FMT"
  | .clrerr => "CLRERR"

/-- `<t>` of LDN and TONAT (R7, R71). -/
def typeName : NativeType → String
  | .u8 => "u8"
  | .u16 => "u16"
  | .u32 => "u32"
  | .u64 => "u64"
  | .s8 => "s8"
  | .s16 => "s16"
  | .s32 => "s32"
  | .s64 => "s64"

/-- `W0` … `W15` (R71). -/
def regName (r : Reg) : String := "W" ++ toString r.val

/-- `<w>`, the operating width in bits (R71). -/
def widthName (wc : Nibble) : String := toString (widthOf wc)

/-- `#x` of LDN: the native integer, "which may be negative for a signed type" (R71). -/
def nativeLiteral (nt : NativeType) (arg : BitVec 64) : String :=
  let x := arg.toNat % 2 ^ nativeWidth nt
  if nativeSigned nt && x.testBit (nativeWidth nt - 1) then "#-" ++ toString (2 ^ nativeWidth nt - x)
  else "#" ++ toString x

/-- The operands of a command, in the forms R71 lists. -/
def operands : Instr → List String
  | .clr rd _ => [regName rd]
  | .mov rd rs1 _ => [regName rd, regName rs1]
  | .ldn rd _ nt arg => [regName rd, nativeLiteral nt arg]
  | .resize rd rs1 _ _ => [regName rd, regName rs1]
  | .tonat rs1 _ _ => [regName rs1]
  | .add rd rs1 rs2 _ => [regName rd, regName rs1, regName rs2]
  | .sub rd rs1 rs2 _ => [regName rd, regName rs1, regName rs2]
  | .neg rd rs1 _ => [regName rd, regName rs1]
  | .inc rd rs1 _ => [regName rd, regName rs1]
  | .dec rd rs1 _ => [regName rd, regName rs1]
  | .mul rd rs1 rs2 _ => [regName rd, regName rs1, regName rs2]
  | .div rd rs1 rs2 _ => [regName rd, regName rs1, regName rs2]
  | .mod rd rs1 rs2 _ => [regName rd, regName rs1, regName rs2]
  | .shl rd rs1 _ amount => [regName rd, regName rs1, "#" ++ toString amount.toNat]
  | .shr rd rs1 _ amount => [regName rd, regName rs1, "#" ++ toString amount.toNat]
  | .not rd rs1 _ => [regName rd, regName rs1]
  | .and rd rs1 rs2 _ => [regName rd, regName rs1, regName rs2]
  | .or rd rs1 rs2 _ => [regName rd, regName rs1, regName rs2]
  | .xor rd rs1 rs2 _ => [regName rd, regName rs1, regName rs2]
  | .test rs1 _ => [regName rs1]
  | .eq rs1 rs2 _ => [regName rs1, regName rs2]
  | .ne rs1 rs2 _ => [regName rs1, regName rs2]
  | .lt rs1 rs2 _ => [regName rs1, regName rs2]
  | .le rs1 rs2 _ => [regName rs1, regName rs2]
  | .gt rs1 rs2 _ => [regName rs1, regName rs2]
  | .ge rs1 rs2 _ => [regName rs1, regName rs2]
  | .parse rd _ base length =>
    [regName rd, "[" ++ toString base.toNat ++ ", " ++ toString length.toNat ++ "]"]
  | .parsez rd _ base => [regName rd, "[" ++ toString base.toNat ++ "]"]
  | .fmt rs1 _ base => [regName rs1, "[" ++ toString base.toNat ++ "]"]
  | .clrerr => []

/-- `.<w>[.<t>]` (R71): the width, then the native type of LDN and TONAT or the source width of RESIZE. -/
def suffix (i : Instr) : String :=
  match i with
  | .ldn _ wc nt _ => "." ++ widthName wc ++ "." ++ typeName nt
  | .tonat _ wc nt => "." ++ widthName wc ++ "." ++ typeName nt
  | .resize _ _ wc swc => "." ++ widthName wc ++ "." ++ widthName swc
  | .clr .. | .mov .. | .add .. | .sub .. | .neg .. | .inc .. | .dec .. | .mul .. | .div .. | .mod .. | .shl ..
  | .shr .. | .not .. | .and .. | .or .. | .xor .. | .test .. | .eq .. | .ne .. | .lt .. | .le .. | .gt .. | .ge ..
  | .parse .. | .parsez .. | .fmt .. | .clrerr =>
    match i.widthCode with
    | some wc => "." ++ widthName wc
    | none => ""

/-- A command as R71 writes it. -/
def spell (i : Instr) : String :=
  mnemonic i.opcode ++ suffix i ++
    (match operands i with
    | [] => ""
    | first :: rest => rest.foldl (fun text o => text ++ ", " ++ o) (" " ++ first))

/-- The pseudo-instructions of R72. `mixed` is the mixed native operand form: `op` is the command given its three
registers and width, `scratch` the register the native operand is loaded into. -/
inductive Pseudo where
  | pos (rd rs1 : Reg) (wc : Nibble)
  | ldi (rd : Reg) (wc : Nibble) (x : BitVec 64)
  | postinc (rd rs1 : Reg) (wc : Nibble)
  | postdec (rd rs1 : Reg) (wc : Nibble)
  | widen (rd rs1 : Reg) (wc : Nibble)
  | narrow (rd rs1 : Reg) (wc : Nibble)
  | mixed (op : Opcode) (rd rs1 scratch : Reg) (wc : Nibble) (nt : NativeType) (x : BitVec 64)
deriving DecidableEq, Repr

/-- The command `op.w Wd, Ws, Wt` of an operation with two wide sources (R67); none for any other operation. -/
def twoSource (rd rs1 rs2 : Reg) (wc : Nibble) : Opcode → Option Instr
  | .add => some (.add rd rs1 rs2 wc)
  | .sub => some (.sub rd rs1 rs2 wc)
  | .mul => some (.mul rd rs1 rs2 wc)
  | .div => some (.div rd rs1 rs2 wc)
  | .mod => some (.mod rd rs1 rs2 wc)
  | .and => some (.and rd rs1 rs2 wc)
  | .or => some (.or rd rs1 rs2 wc)
  | .xor => some (.xor rd rs1 rs2 wc)
  | .eq => some (.eq rs1 rs2 wc)
  | .ne => some (.ne rs1 rs2 wc)
  | .lt => some (.lt rs1 rs2 wc)
  | .le => some (.le rs1 rs2 wc)
  | .gt => some (.gt rs1 rs2 wc)
  | .ge => some (.ge rs1 rs2 wc)
  | .clr | .mov | .ldn | .resize | .tonat | .neg | .inc | .dec | .shl | .shr | .not | .test | .parse | .parsez
  | .fmt | .clrerr => none

/-- The expansion of a pseudo-instruction (R72); none where the row does not apply: POSTINC and POSTDEC with Wd = Ws,
WIDEN at width code 0, NARROW at width code 7, and a mixed operand with an operation that has no second wide source. -/
def expand : Pseudo → Option (List Instr)
  | .pos rd rs1 wc => some [.mov rd rs1 wc]
  | .ldi rd wc x => some [.ldn rd wc .u64 x]
  | .postinc rd rs1 wc => if rd = rs1 then none else some [.mov rd rs1 wc, .inc rs1 rs1 wc]
  | .postdec rd rs1 wc => if rd = rs1 then none else some [.mov rd rs1 wc, .dec rs1 rs1 wc]
  | .widen rd rs1 wc => if wc = 0 then none else some [.resize rd rs1 wc (wc - 1)]
  | .narrow rd rs1 wc => if wc.toNat ≥ 7 then none else some [.resize rd rs1 wc (wc + 1)]
  | .mixed op rd rs1 scratch wc nt x =>
    (twoSource rd rs1 scratch wc op).map fun i => [.ldn scratch wc nt x, i]

end Sys2Proof.Machine.Assembler
end

