-- ==== Sys2Proof/Machine/Datapath.lean ====
section
/-! DEFINITION. The recursive datapaths (00_scope.md R10, R15): each family's operations on limbs, down to 64-bit leaf
words, as the pseudocode of R80, R83, R100, R102, R105, R106, R107, R120, R130, R132, R134 to R138, R150, R161 and R165
gives them. The meanings of the commands use the closed forms; R15 says both "give the same value", and the obligations
state that they do. A datapath is indexed by its level n, the width being 64·2^n: level 0 is a leaf word and a width code
WC is level WC + 1. -/

namespace Sys2Proof.Machine.Datapath

/-- The width of level n. -/
def limbWidth (n : Nat) : Nat := 64 * 2 ^ n

/-- The level of an operating width code. -/
def levelOf (wc : Nibble) : Nat := wc.toNat + 1

/-- `hi(v)` of a value whose limbs have width h (R10). -/
def hi (h v : Nat) : Nat := v / 2 ^ h

/-- `lo(v)` of a value whose limbs have width h (R10). -/
def lo (h v : Nat) : Nat := v % 2 ^ h

/-- `{x, y}`, with y of width h (R9). -/
def join (h x y : Nat) : Nat := x * 2 ^ h + y

/-- `v[hi:lo]` as a natural (R9). -/
def slice (v top bottom : Nat) : Nat := v / 2 ^ bottom % 2 ^ (top + 1 - bottom)

/-- `bitlen(v)`, the number of significant bits (R9). -/
def bitlen (v : Nat) : Nat := if v = 0 then 0 else Nat.log2 v + 1

/-! ### Width conversion (R80) -/

/-- `double`: the value as the lower limb, 0 as the upper; the source width is `sw`. -/
def double (sw v : Nat) : Nat := join sw 0 v

/-- `halve`: the lower limb of a value of width 2·h. -/
def halve (h v : Nat) : Nat := lo h v

/-- Double `d` times from level n. -/
def doubles : Nat → Nat → Nat → Nat
  | 0, _, v => v
  | d + 1, n, v => doubles d (n + 1) (double (limbWidth n) v)

/-- Halve `d` times down to level n. -/
def halves : Nat → Nat → Nat → Nat
  | 0, _, v => v
  | d + 1, n, v => halves d n (halve (limbWidth (n + d)) v)

/-- `convert(v, sw, w)` from level m to level n. -/
def convert (v m n : Nat) : Nat := if m ≤ n then doubles (n - m) m v else halves (m - n) n v

/-! ### Construction from a native integer (R83) -/

/-- `native(x, N, signed, w)` at a level n ≥ 1; at level 0 it is the leaf word, `sext_64(x)` or `zext_64(x)`. The native
value fits in a leaf, so sign extension from N = 64 adds nothing. -/
def native (nt : NativeType) (x : Nat) : Nat → Nat
  | 0 => if nativeSigned nt && x.testBit (nativeWidth nt - 1) then x + (2 ^ 64 - 2 ^ nativeWidth nt) else x
  | n + 1 =>
    join (limbWidth n) (if nativeSigned nt && x.testBit (nativeWidth nt - 1) then 2 ^ limbWidth n - 1 else 0)
      (native nt x n)

/-! ### Addition, subtraction, increment, decrement (R100, R102, R105, R106) -/

/-- The adder; the carry into the upper limb is found by comparison. -/
def add : Nat → Nat → Nat → Nat
  | 0, a, b => (a + b) % 2 ^ 64
  | n + 1, a, b =>
    let h := limbWidth n
    let carry := if lo h a > 2 ^ h - 1 - lo h b then 1 else 0
    join h (add n (add n (hi h a) (hi h b)) carry) (add n (lo h a) (lo h b))

/-- The subtractor; the leaf word wraps modulo 2^64. -/
def sub : Nat → Nat → Nat → Nat
  | 0, a, b => (a + 2 ^ 64 - b) % 2 ^ 64
  | n + 1, a, b =>
    let h := limbWidth n
    let borrow := if lo h a < lo h b then 1 else 0
    join h (sub n (sub n (hi h a) (hi h b)) borrow) (sub n (lo h a) (lo h b))

/-- The incrementer: it ripples into the upper limb only when the lower limb wraps to 0. -/
def inc : Nat → Nat → Nat
  | 0, a => (a + 1) % 2 ^ 64
  | n + 1, a =>
    let h := limbWidth n
    let lower := inc n (lo h a)
    join h (if lower = 0 then inc n (hi h a) else hi h a) lower

/-- The decrementer: it borrows from the upper limb only when the lower limb is 0. -/
def dec : Nat → Nat → Nat
  | 0, a => (a + 2 ^ 64 - 1) % 2 ^ 64
  | n + 1, a =>
    let h := limbWidth n
    join h (if lo h a = 0 then dec n (hi h a) else hi h a) (dec n (lo h a))

/-! ### Multiplication (R107) -/

/-- The split multiplier, with the term lu·ru that 90_conflicts.md C1 keeps. `hmul` of R107 is the level below: the leaf
word multiplier at level 0. -/
def mul : Nat → Nat → Nat → Nat
  | 0, a, b => a * b % 2 ^ 64
  | n + 1, a, b =>
    let h := limbWidth n
    let q := h / 2
    let lu := slice (lo h a) (h - 1) q
    let ll := slice (lo h a) (q - 1) 0
    let ru := slice (lo h b) (h - 1) q
    let rl := slice (lo h b) (q - 1) 0
    let p_ll := mul n ll rl
    let p_x := mul n lu rl
    let p_y := mul n ll ru
    let p_uu := mul n lu ru
    let x_hi := slice p_x (h - 1) q
    let x_lo := slice p_x (q - 1) 0
    let y_hi := slice p_y (h - 1) q
    let y_lo := slice p_y (q - 1) 0
    let s1 := p_ll + x_lo * 2 ^ q
    let c1 := s1 / 2 ^ h
    let t1 := s1 % 2 ^ h
    let s2 := t1 + y_lo * 2 ^ q
    let c2 := s2 / 2 ^ h
    let t2 := s2 % 2 ^ h
    let upper := (mul n (hi h a) (lo h b) + mul n (lo h a) (hi h b) + p_uu + x_hi + y_hi + c1 + c2) % 2 ^ h
    join h upper t2

/-! ### Division (R120) -/

/-- The loop of the restoring division: `m` iterations from the shifted divisor `d`, the remainder so far `r` and the
partial quotient `qt`; the answer is (qt, r). -/
def divisionLoop (w : Nat) : Nat → Nat → Nat → Nat → Nat × Nat
  | 0, _, r, qt => (qt, r)
  | m + 1, d, r, qt =>
    let q2 := qt * 2 % 2 ^ w
    if r ≥ d then divisionLoop w m (d / 2) (r - d) (q2 ||| 1)
    else divisionLoop w m (d / 2) r q2

/-- `divmod(a, b, w)`: w − bitlen(b) + 1 iterations, the divisor first shifted left until its top bit is at w − 1. -/
def divmod (w a b : Nat) : Nat × Nat :=
  let n := w - bitlen b
  divisionLoop w (n + 1) (b * 2 ^ n) a 0

/-! ### Shifts (R130, R132) -/

mutual

/-- The left shifter: bits leaving the lower limb's top are ORed into the upper limb. -/
def shl : Nat → Nat → Nat → Nat
  | 0, a, s => if s ≥ 64 then 0 else a * 2 ^ s % 2 ^ 64
  | n + 1, a, s =>
    let h := limbWidth n
    if s ≥ limbWidth (n + 1) then 0
    else if s ≥ h then join h (shl n (lo h a) (s - h)) 0
    else join h (shl n (hi h a) s ||| shr n (lo h a) (h - s)) (shl n (lo h a) s)

/-- The right shifter, its mirror. -/
def shr : Nat → Nat → Nat → Nat
  | 0, a, s => if s ≥ 64 then 0 else a / 2 ^ s
  | n + 1, a, s =>
    let h := limbWidth n
    if s ≥ limbWidth (n + 1) then 0
    else if s ≥ h then join h 0 (shr n (hi h a) (s - h))
    else join h (shr n (hi h a) s) (shr n (lo h a) s ||| shl n (hi h a) (h - s))

end

/-! ### Bitwise logic and the truth value (R134 to R138) -/

/-- `{~hi(a), ~lo(a)}`, elementwise over the limbs: each leaf word is complemented. -/
def complement : Nat → Nat → Nat
  | 0, a => 2 ^ 64 - 1 - a
  | n + 1, a => join (limbWidth n) (complement n (hi (limbWidth n) a)) (complement n (lo (limbWidth n) a))

/-- A bitwise operation elementwise over the limbs: `f` on each pair of leaf words. -/
def bitwise (f : Nat → Nat → Nat) : Nat → Nat → Nat → Nat
  | 0, a, b => f a b
  | n + 1, a, b =>
    let h := limbWidth n
    join h (bitwise f n (hi h a) (hi h b)) (bitwise f n (lo h a) (lo h b))

/-- "Truth-value test: false iff both limbs are zero", at a level n ≥ 1 (R138); at level 0, of a leaf word. -/
def truth : Nat → Nat → Bool
  | 0, a => a != 0
  | n + 1, a => truth n (hi (limbWidth n) a) || truth n (lo (limbWidth n) a)

/-! ### Comparison (R150) -/

/-- "Equality: both limbs equal." -/
def eq : Nat → Nat → Nat → Bool
  | 0, a, b => a == b
  | n + 1, a, b =>
    let h := limbWidth n
    eq n (hi h a) (hi h b) && eq n (lo h a) (lo h b)

/-- "Less-than: `upper` compared first; on tie, `lower` compared." -/
def lt : Nat → Nat → Nat → Bool
  | 0, a, b => decide (a < b)
  | n + 1, a, b =>
    let h := limbWidth n
    if eq n (hi h a) (hi h b) then lt n (lo h a) (lo h b) else lt n (hi h a) (hi h b)

/-! ### Text (R161, R165) -/

/-- The parse accumulator: at each digit the level-n multiplier and adder; the first non-digit is reported with its
address. -/
def parse (n : Nat) : Nat → List Byte → Nat → Except UnitError Nat
  | _, [], acc => .ok acc
  | a, c :: rest, acc =>
    if isDigit c then parse n (a + 1) rest (add n (mul n acc 10) (digitValue c))
    else .error (.invalidFormat a c)

/-- The format loop at width w, least significant digit first, for as many divisions as `fuel` allows. -/
def formatLoop (w : Nat) : Nat → Nat → List Byte
  | 0, _ => []
  | fuel + 1, v =>
    let step := divmod w v 10
    digitByte step.2 :: (if step.1 = 0 then [] else formatLoop w fuel step.1)

/-- The digit string of a value of width w: the digits of the loop, reversed. A value below 2^w has at most w digits. -/
def format (w v : Nat) : List Byte := (formatLoop w w v).reverse

end Sys2Proof.Machine.Datapath
end

