-- ==== Sys2Proof/Machine/HostLayer.lean ====
section
/-! DEFINITION. What the host layer does with the unit: stream extraction and insertion (60_exceptions.md R205), what a
careful host does (R206), and the shift amounts it may present (93_implementation_defined.md row 1). These rules "bind a
host model, not the unit". A session is one extraction or insertion under way: it reacts to each value a read returns, and
waits for BUSY = 0 before it reads NRES or touches TEXT (R206, 70_reset_and_hazards.md R215, R216). What R205 leaves open
here is in assumption 14. -/

namespace Sys2Proof.Machine.HostLayer

/-! ### Streams and tokens -/

/-- A host stream: the bytes still to read, the bytes written, and the failure mark (R205). -/
structure Stream where
  input : List Byte
  output : List Byte
  failed : Bool
deriving DecidableEq, Repr

/-- Whitespace: the space of vector V-TXT-8 (95_test_vectors.md), never a digit (46_text.md R162), else a free value
(assumption 14). -/
def isWhitespace (c : Byte) : Bool := c == 0x20#8 || (!isDigit c && Config.isWhitespace c)

/-- What is left of the input when the whitespace before the next token is skipped (R205 step 1). -/
def Stream.skipped (x : Stream) : List Byte := x.input.dropWhile isWhitespace

/-- The next token (R205 step 1). -/
def Stream.token (x : Stream) : List Byte := x.skipped.takeWhile fun c => !isWhitespace c

/-- The stream after the next token. -/
def Stream.afterToken (x : Stream) : Stream := { x with input := x.skipped.dropWhile fun c => !isWhitespace c }

/-! ### Sessions -/

/-- What the host is asked to do with a stream: read a value from it, or write a value to it, by way of TEXT from `base`
on (R205). -/
inductive Task where
  | extract (rd : Reg) (wc : Nibble) (base : BitVec 32)
  | insert (rs1 : Reg) (wc : Nibble) (base : BitVec 32)
deriving DecidableEq, Repr

/-- The base address of a task. -/
def Task.base : Task → BitVec 32
  | .extract _ _ base => base
  | .insert _ _ base => base

/-- How far a task has come, and what the host waits for. -/
inductive Phase where
  /-- For BUSY = 0 with no error pending, before the task's own command. -/
  | ready
  /-- For the end of PARSE. -/
  | extracting
  /-- For the end of FMT. -/
  | inserting
  /-- For the count in NRES. -/
  | counting
  /-- For this many more bytes of TEXT. -/
  | copying (left : Nat)
  /-- For nothing. -/
  | done
deriving DecidableEq, Repr

/-- One extraction or insertion under way. -/
structure Session where
  task : Task
  phase : Phase
  stream : Stream
deriving DecidableEq, Repr

/-- The read of STATUS that the host repeats until BUSY = 0 (R206, 70_reset_and_hazards.md R215). -/
def poll : HostOp := .read .status

/-- TEXT_WRITE of each byte of a token, from address `a` on (R205 step 2). A byte past the last 32-bit address is in no
TEXT and no TEXT_WRITE names it; PARSE then raises TextBounds. -/
def placeToken (a : Nat) : List Byte → List HostOp
  | [] => []
  | c :: rest => if a < 2 ^ 32 then .textWrite (BitVec.ofNat 32 a) c :: placeToken (a + 1) rest else []

/-- TEXT_READ of each of `n` bytes from `base` on (R205, stream insertion). -/
def copyDigits (base : BitVec 32) : Nat → List HostOp
  | 0 => []
  | n + 1 => .textRead base :: copyDigits (base + 1) n

/-- The task with its first operation, a read of STATUS. A stream marked as failed is read no further: the host "stops
consuming" (R205 step 4). -/
def Session.start (task : Task) (stream : Stream) : Session × List HostOp :=
  match task with
  | .extract .. =>
    if stream.failed then (⟨task, .done, stream⟩, []) else (⟨task, .ready, stream⟩, [poll])
  | .insert .. => (⟨task, .ready, stream⟩, [poll])

/-- The task's own command, for an idle unit with no error pending. Extraction takes the token, writes it into TEXT and
issues PARSE at the target width (R205 steps 1 to 3); a token longer than any length ARG can hold is not presented
(assumption 14). Insertion issues FMT. -/
def Session.launch (x : Session) : Session × List HostOp :=
  match x.task with
  | .extract rd wc base =>
    let token := x.stream.token
    if token.length < 2 ^ 32 then
      ({ x with phase := .extracting, stream := x.stream.afterToken },
        placeToken base.toNat token ++ [.issue (encode (.parse rd wc base (BitVec.ofNat 32 token.length))), poll])
    else ({ x with phase := .done, stream := x.stream.afterToken }, [])
  | .insert rs1 wc base => ({ x with phase := .inserting }, [.issue (encode (.fmt rs1 wc base)), poll])

/-- What the host does once STATUS shows BUSY = 0, with the ERR field it shows. An error pending from before is cleared
before the task's command (R206). After PARSE, InvalidFormat marks the stream as failed and is cleared, and no other error
is (R205 step 4); after FMT with no error, NRES is read. -/
def Session.onIdle (x : Session) (err : Nibble) : Session × List HostOp :=
  match x.phase with
  | .ready => if err = 0 then x.launch else (x, [.issue (encode .clrerr), poll])
  | .extracting =>
    if err = ErrCode.invalidFormat.toBits then
      ({ x with phase := .done, stream := { x.stream with failed := true } }, [.issue (encode .clrerr)])
    else ({ x with phase := .done }, [])
  | .inserting => if err = 0 then ({ x with phase := .counting }, [.read .nres]) else ({ x with phase := .done }, [])
  | .counting => (x, [])
  | .copying _ => (x, [])
  | .done => (x, [])

/-- Whether a value of STATUS shows BUSY = 1 (10_state.md R27). -/
def busyBit (status : BitVec 64) : Bool := status.getLsbD 0

/-- The ERR field of a value of STATUS (10_state.md R27). -/
def errField (status : BitVec 64) : Nibble := status.extractLsb' 8 4

/-- What the host does with a STATUS it has read: while BUSY = 1 it only reads STATUS again. -/
def Session.onStatus (x : Session) (status : BitVec 64) : Session × List HostOp :=
  if busyBit status then (x, [poll]) else x.onIdle (errField status)

/-- The session with `left` more bytes of TEXT to copy. -/
def Session.toCopy (x : Session) (left : Nat) : Session :=
  { x with phase := if left = 0 then .done else .copying left }

/-- What the host does with the next value a read has returned. -/
def Session.react (x : Session) (r : Reply) : Session × List HostOp :=
  match r with
  | .word v =>
    match x.phase with
    | .ready => x.onStatus v
    | .extracting => x.onStatus v
    | .inserting => x.onStatus v
    | .counting => (x.toCopy v.toNat, copyDigits x.task.base v.toNat)
    | .copying _ => (x, [])
    | .done => (x, [])
  | .byte c =>
    match x.phase with
    | .copying left =>
      ({ x.toCopy (left - 1) with stream := { x.stream with output := x.stream.output ++ [c] } }, [])
    | .ready => (x, [])
    | .extracting => (x, [])
    | .inserting => (x, [])
    | .counting => (x, [])
    | .done => (x, [])

/-! ### The unit and the host together -/

/-- A session and the unit it drives; `seen` is how many of the values read are behind the session: it has reacted to them,
or they are none of its own. -/
structure System where
  unit : State
  session : Session
  seen : Nat
deriving DecidableEq, Repr

/-- Whether an operation returns a value to the host (20_memory.md R44). -/
def returnsValue : HostOp → Bool
  | .issue _ => false
  | .read _ => true
  | .textRead _ => true
  | .textWrite _ _ => false
  | .reset => false

/-- How many values the operations still to come will return. -/
def valuesToCome (ops : List HostOp) : Nat := ops.countP returnsValue

/-- The system at the start of a task. DESIGN CHOICE (assumption 14): R205 does not say what becomes of operations the host
made before the task and that have not landed yet. They land before the task's own, and the values they return, like those
already returned, are none of the task's: the task reacts to what its own reads return. -/
def System.start (s : State) (task : Task) (stream : Stream) : System :=
  let (x, ops) := Session.start task stream
  { unit := { s with host := s.host ++ ops }, session := x, seen := s.replies.length + valuesToCome s.host }

/-- One event: the host reacts to the next value it has not yet seen, or the unit and its port make a step. -/
def System.advance (y : System) : System :=
  match y.unit.replies[y.seen]? with
  | some r =>
    let (x, ops) := y.session.react r
    { unit := { y.unit with host := y.unit.host ++ ops }, session := x, seen := y.seen + 1 }
  | none =>
    match step y.unit with
    | .next t => { y with unit := t }
    | .fault _ => y
    | .refused _ => y

/-- `n` events. -/
def System.run : Nat → System → System
  | 0, y => y
  | n + 1, y => y.advance.run n

/-! ### Obligations of the host -/

/-- The first obligation of R206: an operation the host may make in this state and rely on. While BUSY = 1 it neither
reads NRES or EINFO nor touches TEXT. -/
def mayPerform (s : State) : HostOp → Bool
  | .issue _ => true
  | .reset => true
  | .read .status => true
  | .read .id => true
  | .read .nres => !s.busy
  | .read .einfo => !s.busy
  | .textRead _ => !s.busy
  | .textWrite _ _ => !s.busy

/-- The third obligation of R206: a command that can take effect, because no error is pending or because it clears one. -/
def takesEffect (s : State) (i : Instr) : Bool := decide (s.err = .none) || decide (i = .clrerr)

/-- The fourth obligation of R206, and R213 point 1: every register the command reads has been constructed, at the width it
needs. -/
def constructed (s : State) (i : Instr) : Bool := (sourcesOf i).all fun p => decide (s.tagOf p.1 = p.2)

/-- The shift amount of a signed native operand: a negative one is refused, not converted to a large unsigned amount
(93_implementation_defined.md row 1). -/
def shiftAmount (x : BitVec 64) : Option (BitVec 64) := if x.msb then none else some x

end Sys2Proof.Machine.HostLayer
end

