-- ==== Sys2Proof/Safety.lean ====
section
/-! DEFINITION. What the statements call a legal state, and a safe step (00_scope.md R5, 10_state.md R21, R27, 20_memory.md
R41). -/

namespace Sys2Proof.Machine

/-- The parameters are in the ranges of R5: "D(BITMAX) ≤ TEXT_BYTES ≤ 2^32 − 1", and K ≤ 7 by its type. -/
abbrev State.ParamsOk (s : State) : Prop :=
  maxDigits (128 * 2 ^ s.params.k.val) ≤ s.params.textBytes ∧ s.params.textBytes ≤ 2 ^ 32 - 1

/-- The invariant of R21 on one register: EMPTY and 0, or a legal tag and a value below 2^(128·2^c). -/
abbrev State.RegOk (s : State) (r : Reg) : Prop :=
  (s.tagOf r = emptyTag ∧ s.wide r = 0) ∨ ((s.tagOf r).toNat ≤ s.params.k.val ∧ s.wide r < modulus (s.tagOf r))

/-- The invariant of R21. -/
abbrev State.RegsOk (s : State) : Prop := ∀ r : Reg, s.RegOk r

/-- R27: EOP and EINFO are 0 when ERR = 0. -/
abbrev State.ErrorOk (s : State) : Prop := s.err = .none → s.eop = 0 ∧ s.einfo = 0

/-- The text buffer is in canonical form and holds nothing outside TEXT (R41). -/
abbrev State.TextOk (s : State) : Prop := Memory.wf s.text = true ∧ ∀ c ∈ s.text, c.1 < s.params.textBytes

/-- A legal state of the unit. -/
abbrev State.Inv (s : State) : Prop := s.ParamsOk ∧ s.RegsOk ∧ s.ErrorOk ∧ s.TextOk

/-- A step is safe when it answers a next state, and that state is legal. -/
abbrev SafeStep (s : State) : Prop := ∃ t, step s = .next t ∧ t.Inv

end Sys2Proof.Machine
end

