-- ==== Sys2Proof/Certificates/Slice0/Obligations.lean ====
section
/-! DEFINITION. What is claimed of the model, one definition for each statement of OBLIGATIONS.json. The results are spelled
here apart from the operations that the meanings call, so that a statement says what the rule says. -/

namespace Sys2Proof.Claims

open Sys2Proof.Machine

/-! ### Words the statements share -/

/-- `W[rd] <- v ; TAG[rd] <- wc`, and nothing else. -/
def afterWide (s : State) (rd : Reg) (wc : Nibble) (v : Nat) : State :=
  { s with w := s.w.set rd.val v, tag := s.tag.set rd.val wc }

/-- `NRES <- v`, and nothing else. -/
def afterNative (s : State) (v : BitVec 64) : State := { s with nres := v }

/-- ERR, EOP and EINFO written for the error `e`, and nothing else. -/
def afterError (s : State) (op : BitVec 8) (e : UnitError) : State :=
  { s with err := e.code, eop := op, einfo := e.info }

/-- BUSY falls, and nothing else. -/
def afterBusy (s : State) : State := { s with inFlight := none }

/-- The unit's registers, error state, parameters and text are the same. -/
def SameUnit (s t : State) : Prop :=
  t.params = s.params ∧ t.w = s.w ∧ t.tag = s.tag ∧ t.nres = s.nres ∧ t.err = s.err ∧ t.eop = s.eop ∧
    t.einfo = s.einfo ∧ ∀ a, t.textAt a = s.textAt a

/-- The same command is in flight, or none is; how many of the host's operations still land before it completes may differ
(assumption 3). -/
def SameCommand (s t : State) : Prop := t.inFlight.map InFlight.cmd = s.inFlight.map InFlight.cmd

/-- The parameters, the command in flight, the host's side of the port and the model's counters are the same. -/
def SamePort (s t : State) : Prop :=
  t.params = s.params ∧ t.inFlight = s.inFlight ∧ t.host = s.host ∧ t.replies = s.replies ∧
    t.textDraw = s.textDraw ∧ t.draws = s.draws

/-- The error registers are the same. -/
def SameError (s t : State) : Prop := t.err = s.err ∧ t.eop = s.eop ∧ t.einfo = s.einfo

/-- Every wide register and tag is the same. -/
def SameWide (s t : State) : Prop := ∀ r, t.wide r = s.wide r ∧ t.tagOf r = s.tagOf r

/-- A command is in flight and completes at this step. Which step that is depends on the open latency (assumption 3); the
statements say what happens at it. -/
def Completing (s : State) (c : Command) : Prop :=
  ∃ f, s.inFlight = some f ∧ f.cmd = c ∧ unitActs f s = true

/-- It is the host's turn, with the operation `op`: the unit is idle, or its command is not yet due. -/
def HostTurn (s : State) (op : HostOp) (rest : List HostOp) : Prop :=
  s.host = op :: rest ∧ ∀ f, s.inFlight = some f → unitActs f s = false

/-- The OP byte a command is encoded with (R61). -/
def opByte (i : Instr) : BitVec 8 := (encode i).word.extractLsb' 0 8

/-! ### R67 and R68, read from the bits of the word -/

/-- What R67 asks of the AUX field. -/
inductive AuxUse where
  | zero | native | width
deriving DecidableEq, Repr

/-- A row of R67: OP, whether RD, RS1 and RS2 are used, whether WC is a width code, and AUX. -/
structure FieldRow where
  op : Nat
  rd : Bool
  rs1 : Bool
  rs2 : Bool
  wc : Bool
  aux : AuxUse
deriving DecidableEq, Repr

/-- The table of R67 over the opcode values of R66. -/
def fieldTable : List FieldRow :=
  [⟨0x01, true, false, false, true, .zero⟩, ⟨0x02, true, true, false, true, .zero⟩,
    ⟨0x03, true, false, false, true, .native⟩, ⟨0x04, true, true, false, true, .width⟩,
    ⟨0x05, false, true, false, true, .native⟩] ++
  [0x10, 0x11, 0x15, 0x18, 0x19, 0x23, 0x24, 0x25].map (fun op => ⟨op, true, true, true, true, .zero⟩) ++
  [0x12, 0x13, 0x14, 0x22, 0x20, 0x21].map (fun op => ⟨op, true, true, false, true, .zero⟩) ++
  [⟨0x26, false, true, false, true, .zero⟩] ++
  [0x28, 0x29, 0x2A, 0x2B, 0x2C, 0x2D].map (fun op => ⟨op, false, true, true, true, .zero⟩) ++
  [⟨0x30, true, false, false, true, .zero⟩, ⟨0x31, true, false, false, true, .zero⟩,
    ⟨0x32, false, true, false, true, .zero⟩, ⟨0x3F, false, false, false, false, .zero⟩]

/-- The four bits of a word from bit `at4` up, as a number. -/
def nibbleAt (word : BitVec 32) (at4 : Nat) : Nat := word.toNat / 2 ^ at4 % 16

/-- The conditions 3 to 6 of R68 for a word of this row. -/
def FieldRow.Violated (k : Nat) (word : BitVec 32) (row : FieldRow) : Prop :=
  (row.rd = false ∧ nibbleAt word 8 ≠ 0) ∨ (row.rs1 = false ∧ nibbleAt word 12 ≠ 0) ∨
    (row.rs2 = false ∧ nibbleAt word 16 ≠ 0) ∨ (row.wc = false ∧ nibbleAt word 20 ≠ 0) ∨
    (row.aux = .zero ∧ nibbleAt word 24 ≠ 0) ∨ nibbleAt word 20 > k ∨ (row.aux = .native ∧ nibbleAt word 24 ≥ 8) ∨
    (row.aux = .width ∧ nibbleAt word 24 > k)

/-- The illegal words of R68. -/
def Illegal (k : Nat) (word : BitVec 32) : Prop :=
  nibbleAt word 28 ≠ 0 ∨ (∀ row ∈ fieldTable, row.op ≠ word.toNat % 256) ∨
    ∃ row ∈ fieldTable, row.op = word.toNat % 256 ∧ row.Violated k word

/-- The bits of ARG that R65 gives a command. -/
def usedArg (i : Instr) (arg : BitVec 64) : Nat :=
  match i with
  | .ldn _ _ nt _ => arg.toNat % 2 ^ nativeWidth nt
  | .shl .. => arg.toNat
  | .shr .. => arg.toNat
  | .parse .. => arg.toNat
  | .parsez .. => arg.toNat % 2 ^ 32
  | .fmt .. => arg.toNat % 2 ^ 32
  | _ => 0

/-! ### Decimal text -/

/-- A digit of R160. -/
def Digit (c : Byte) : Prop := 0x30 ≤ c.toNat ∧ c.toNat ≤ 0x39

/-- The `n` bytes from `b` are digits. -/
def AllDigits (text : Nat → Byte) (b n : Nat) : Prop := ∀ i, i < n → Digit (text (b + i))

/-- The decimal value of the `n` digits from `b`, the most significant first, as a natural number of any size. -/
def decimalValue (text : Nat → Byte) (b n : Nat) : Nat :=
  (List.range n).foldl (fun acc i => acc * 10 + ((text (b + i)).toNat - 0x30)) 0

/-- The decimal digits of a natural number as bytes, the most significant first; "0" for 0. -/
def digitString (a : Nat) : List Byte :=
  if a = 0 then [0x30#8] else (Nat.digits 10 a).reverse.map fun d => BitVec.ofNat 8 (0x30 + d)

/-- Run commands one after the other. -/
def execAll : List Instr → State → Outcome
  | [], s => .next s
  | i :: rest, s =>
    match exec i s with
    | .next t => execAll rest t
    | .fault r => .fault r
    | .refused r => .refused r

end Sys2Proof.Claims

open Sys2Proof Sys2Proof.Machine Sys2Proof.Claims

/-! ### Encoding -/

/-- Decoding the word and ARG of a command that keeps to K gives that command, whatever its operands (R60, R61, R67). -/
def Obligations.DecodeOfEncodeIsTheCommand : Prop :=
  ∀ (k : Fin 8) (i : Instr), i.wellFormed k = true → decode k (encode i) = .ok i

/-- A word that decodes is the word its command is encoded to, and its command keeps to K: no two words select one command
but for ARG bits it does not name (R69). -/
def Obligations.EncodeOfDecodeIsTheWord : Prop :=
  ∀ (k : Fin 8) (c : Command) (i : Instr), decode k c = .ok i →
    i.wellFormed k = true ∧ (encode i).word = c.word ∧ usedArg i (encode i).arg = usedArg i c.arg

/-- R68: the decoder rejects exactly the illegal words, and completing one while no error is pending raises IllegalCommand
and does nothing else. -/
def Obligations.ExactlyTheIllegalWordsAreRejected : Prop :=
  ∀ (k : Fin 8) (c : Command),
    ((∃ e, decode k c = .error e) ↔ Illegal k.val c.word) ∧
      ∀ s : State, s.params.k = k → s.err = .none → Illegal k.val c.word →
        complete c s = .next (afterError (afterBusy s) (c.word.extractLsb' 0 8) (.illegalCommand c.word))

/-- Words written out in the spec's own examples and the commands they stand for (41_construction.md to 47_control.md). -/
def Obligations.SpecExampleWordsDecode : Prop :=
  decode 3 ⟨0x00100001, 0⟩ = .ok (.clr 0 1) ∧ decode 3 ⟨0x06100303, 0xFFFFFFFB⟩ = .ok (.ldn 3 1 .s32 0xFFFFFFFB) ∧
    decode 3 ⟨0x01002404, 0⟩ = .ok (.resize 4 2 0 1) ∧ decode 3 ⟨0x05103005, 0⟩ = .ok (.tonat 3 1 .s16) ∧
    decode 3 ⟨0x00150415, 0⟩ = .ok (.mul 4 0 5 1) ∧ decode 3 ⟨0x00110719, 0⟩ = .ok (.mod 7 0 1 1) ∧
    decode 3 ⟨0x00100121, 199⟩ = .ok (.shr 1 0 1 199) ∧ decode 3 ⟨0x0011002D, 0⟩ = .ok (.ge 0 1 1) ∧
    decode 3 ⟨0x00000030, 0x0000000300000010⟩ = .ok (.parse 0 0 0x10 3) ∧
    decode 3 ⟨0x00000032, 0x40⟩ = .ok (.fmt 0 0 0x40) ∧ decode 3 ⟨0x0000003F, 0⟩ = .ok .clrerr

/-- R65: the bits of ARG that a command does not name have no effect, and no value of them is illegal. -/
def Obligations.UnnamedArgBitsAreIgnored : Prop :=
  ∀ (k : Fin 8) (word : BitVec 32) (arg arg' : BitVec 64) (i : Instr), decode k ⟨word, arg⟩ = .ok i →
    ∃ j, decode k ⟨word, arg'⟩ = .ok j ∧ (usedArg i arg = usedArg i arg' → ∀ s, exec j s = exec i s)

/-! ### Steps and the host's port -/

/-- A step that completes a command whose word decodes is that command's effect, after BUSY has fallen (R45, R50, R70).
Which step it is depends on the latency of assumption 3. -/
def Obligations.StepRunsTheDecodedCommand : Prop :=
  ∀ (s : State) (c : Command) (i : Instr), Completing s c → decode s.params.k c = .ok i →
    step s = exec i (afterBusy s)

/-- R70, R192: of a command completing with no error pending, an illegal word raises IllegalCommand with the word in EINFO
and nothing else, and a legal word goes on to its own rule; while an error is pending, a command whose word is not 0x0000003F
completes, so that BUSY falls, and changes nothing else. Which step completes a command depends on the latency of assumption
3. -/
def Obligations.PendingErrorAndDecodeChecksComeFirst : Prop :=
  ∀ (s : State) (c : Command), Completing s c →
    (s.err = .none → Illegal s.params.k.val c.word →
      step s = .next (afterError (afterBusy s) (c.word.extractLsb' 0 8) (.illegalCommand c.word))) ∧
    (s.err = .none → ¬ Illegal s.params.k.val c.word →
      ∃ i, decode s.params.k c = .ok i ∧ step s = exec i (afterBusy s)) ∧
    (s.err ≠ .none → c.word ≠ 0x0000003F#32 →
      step s = .next (afterBusy s) ∧ (afterBusy s).busy = false)

/-- R180: CLRERR clears ERR, EOP and EINFO and changes nothing else, pending error or not; only the word 0x0000003F is
CLRERR; a word with OP = 0x3F and any other bit set is illegal, and is discarded while an error is pending. -/
def Obligations.ClrerrClearsOnlyTheError : Prop :=
  (∀ s : State, exec .clrerr s = .next { s with err := .none, eop := 0, einfo := 0 }) ∧
    (∀ s : State, s.ErrorOk → s.err = .none → exec .clrerr s = .next s) ∧
    (∀ (k : Fin 8) (c : Command), decode k c = .ok .clrerr ↔ c.word = 0x0000003F#32) ∧
    ∀ (s : State) (c : Command), Completing s c → c.word.extractLsb' 0 8 = 0x3F#8 → c.word ≠ 0x0000003F#32 →
      step s =
        .next
          (if s.err = .none then afterError (afterBusy s) 0x3F#8 (.illegalCommand c.word) else afterBusy s)

/-- R45: an ISSUE to an idle unit is accepted, sets BUSY and changes nothing else of the unit; an ISSUE to a busy unit
waits, neither lost nor overtaken, until the command in flight has completed and BUSY has fallen. That the command completes
at this very step when an ISSUE waits is the model's choice (assumption 3), not R45's. -/
def Obligations.IssueIsAcceptedOnlyWhenIdle : Prop :=
  ∀ (s : State) (c : Command) (rest : List HostOp), s.host = .issue c :: rest →
    (s.inFlight = none →
      ∃ t f, step s = .next t ∧ t.inFlight = some f ∧ f.cmd = c ∧ t.busy = true ∧ t.host = rest ∧
        t.replies = s.replies ∧ SameUnit s t) ∧
    ∀ f, s.inFlight = some f →
      step s = complete f.cmd s ∧ ∃ t, step s = .next t ∧ t.host = s.host ∧ t.busy = false

/-- R46: STATUS and ID read as they are at any time; NRES and EINFO read as they are while BUSY = 0 and as some value while
BUSY = 1; no read changes the unit, the command in flight included. The lists of the host's operations and of what it has
read are the model's (assumption 2). -/
def Obligations.RegisterReadsReturnTheirValues : Prop :=
  ∀ (s : State) (p : ReadPort) (rest : List HostOp), HostTurn s (.read p) rest →
    ∃ t v, step s = .next t ∧ t.replies = s.replies ++ [.word v] ∧ t.host = rest ∧ SameUnit s t ∧
      t.busy = s.busy ∧ SameCommand s t ∧ (p = .status → v = s.status) ∧ (p = .id → v = idWord s.params) ∧
      (p = .nres → s.busy = false → v = s.nres) ∧ (p = .einfo → s.busy = false → v = s.einfo)

/-- R47, the reads: a byte of TEXT while BUSY = 0, 0x00 outside TEXT (assumption 7 for a busy unit), and some byte
otherwise; no read changes the unit, the command in flight included. The lists of the host's operations and of what it has
read are the model's (assumption 2). -/
def Obligations.HostTextReads : Prop :=
  ∀ (s : State) (a : BitVec 32) (rest : List HostOp), HostTurn s (.textRead a) rest →
    ∃ t v, step s = .next t ∧ t.replies = s.replies ++ [.byte v] ∧ t.host = rest ∧ SameUnit s t ∧
      t.busy = s.busy ∧ SameCommand s t ∧ (a.toNat ≥ s.params.textBytes → v = 0x00#8) ∧
      (a.toNat < s.params.textBytes → s.busy = false → v = s.textAt a.toNat)

/-- R47, the writes: while BUSY = 0 the addressed byte of TEXT changes and nothing else does; while BUSY = 1, and outside
TEXT, nothing changes, the command in flight included. The lists of the host's operations and of what it has read are the
model's (assumption 2). -/
def Obligations.HostTextWrites : Prop :=
  ∀ (s : State) (a : BitVec 32) (v : Byte) (rest : List HostOp), HostTurn s (.textWrite a v) rest →
    ∃ t, step s = .next t ∧ t.host = rest ∧ t.replies = s.replies ∧ t.busy = s.busy ∧ SameCommand s t ∧
      t.params = s.params ∧ t.nres = s.nres ∧ SameWide s t ∧ SameError s t ∧
      (∀ x, x ≠ a.toNat → t.textAt x = s.textAt x) ∧
      (s.busy = false → a.toNat < s.params.textBytes → t.textAt a.toNat = v) ∧
      (s.busy = true ∨ a.toNat ≥ s.params.textBytes → t.textAt a.toNat = s.textAt a.toNat)

/-- R210, R211, R212: RESET, whatever is in flight, puts every register and tag at its reset value and abandons the command;
the parameters are kept; and the unit is ready at once, so that the next ISSUE is accepted. Every byte of TEXT is then a free
byte of a fresh draw, which is the model's choice (assumption 4), and so is that the host's two lists stay (assumption 2). -/
def Obligations.ResetPortResetsTheUnit : Prop :=
  ∀ (s : State) (rest : List HostOp), HostTurn s .reset rest →
    ∃ t, step s = .next t ∧ (∀ r, t.wide r = 0 ∧ t.tagOf r = 15#4) ∧ t.nres = 0 ∧ t.status = 0 ∧ t.einfo = 0 ∧
      t.inFlight = none ∧ t.params = s.params ∧ t.host = rest ∧ t.replies = s.replies ∧
      (∀ a, t.textAt a = Config.textAtReset s.draws a) ∧
      ∀ c rest', rest = .issue c :: rest' →
        ∃ u f, step t = .next u ∧ u.inFlight = some f ∧ f.cmd = c ∧ u.busy = true ∧ u.host = rest'

/-- R32: what the state after reset holds, in the reference configuration of R5; TEXT holds no written byte, so every byte
of it is free (assumption 4). -/
def Obligations.ResetStateHoldsTheResetValues : Prop :=
  (∀ r, State.reset.wide r = 0 ∧ State.reset.tagOf r = 15#4) ∧ State.reset.nres = 0 ∧ State.reset.status = 0 ∧
    State.reset.err = .none ∧ State.reset.eop = 0 ∧ State.reset.einfo = 0 ∧ State.reset.busy = false ∧
    State.reset.params.k = 3 ∧ State.reset.params.textBytes = 4096 ∧ State.reset.text = [] ∧
    idWord State.reset.params = 0x0000100000011003#64

/-- R218: the unit never hangs and never stops: every step answers a next state. -/
def Obligations.EveryStepAnswersANextState : Prop := ∀ s : State, ∃ t, step s = .next t

/-- R218, R216: a command in flight completes after at most as many steps as host operations its latency lets land
(assumption 3), unless one of them is a RESET, and until then nothing of the unit changes, so that it sees the buffer it
started with. -/
def Obligations.CommandInFlightCompletes : Prop :=
  ∀ (s : State) (f : InFlight), s.inFlight = some f → (∀ op ∈ s.host.take f.opsLeft, op ≠ .reset) →
    ∃ n u, n ≤ f.opsLeft ∧ Host.Core.run core n s = .next u ∧ Completing u f.cmd ∧ SameUnit s u ∧
      step u = complete f.cmd u

/-- R27: the layouts of STATUS and ID, every unlisted bit 0. -/
def Obligations.StatusAndIdLayouts : Prop :=
  (∀ s : State, s.status.toNat = s.eop.toNat * 2 ^ 16 + s.err.toBits.toNat * 2 ^ 8 + s.busy.toNat) ∧
    ∀ p : Params, p.textBytes ≤ 2 ^ 32 - 1 →
      (idWord p).toNat = p.textBytes * 2 ^ 32 + 1 * 2 ^ 16 + 16 * 2 ^ 8 + p.k.val

/-- R190: the EINFO layout of each error, every unlisted bit 0. -/
def Obligations.ErrorInformationLayouts : Prop :=
  (∀ (address : Nat) (value : Byte), address < 2 ^ 32 →
      (UnitError.invalidFormat address value).info.toNat = value.toNat * 2 ^ 32 + address) ∧
    (∀ r : Reg, (UnitError.divisionByZero r).info.toNat = r.val) ∧
    (∀ word : BitVec 32, (UnitError.illegalCommand word).info.toNat = word.toNat) ∧
    (∀ (r : Reg) (tag required : Nibble),
      (UnitError.operandType r tag required).info.toNat = required.toNat * 2 ^ 8 + tag.toNat * 2 ^ 4 + r.val) ∧
    ∀ base : BitVec 32, (UnitError.textBounds base).info.toNat = base.toNat

/-! ### Errors -/

/-- R185: the error codes, and which commands raise which error. -/
def Obligations.OnlyTheNamedCommandsRaiseEachError : Prop :=
  ErrCode.toBits .none = 0 ∧ ErrCode.toBits .invalidFormat = 1 ∧ ErrCode.toBits .divisionByZero = 2 ∧
    ErrCode.toBits .illegalCommand = 3 ∧ ErrCode.toBits .operandType = 4 ∧ ErrCode.toBits .textBounds = 5 ∧
    ∀ (i : Instr) (s t : State), s.err = .none → exec i s = .next t →
      (t.err = .invalidFormat → i.opcode = .parse ∨ i.opcode = .parsez) ∧
      (t.err = .divisionByZero → i.opcode = .div ∨ i.opcode = .mod) ∧ t.err ≠ .illegalCommand ∧
      (t.err = .operandType → sourcesOf i ≠ []) ∧
      (t.err = .textBounds → i.opcode = .parse ∨ i.opcode = .parsez ∨ i.opcode = .fmt)

/-- R189: a command that raises an error writes ERR, EOP and EINFO and nothing else; BUSY has fallen by then. -/
def Obligations.ErrorsArePrecise : Prop :=
  (∀ (i : Instr) (s t : State), s.err = .none → exec i s = .next t → t.err ≠ .none →
      ∃ e, t = afterError s (opByte i) e) ∧
    ∀ (s t : State) (c : Command), s.err = .none → Completing s c → step s = .next t → t.err ≠ .none →
      t.busy = false ∧ ∃ e, t = afterError (afterBusy s) (c.word.extractLsb' 0 8) e

/-- R22: a source register whose tag is not the width the command needs raises OperandType and changes nothing else, RS1
before RS2; when the check passes, the value is below 2^w in a legal state. -/
def Obligations.OperandWidthCheck : Prop :=
  (∀ (i : Instr) (s : State) (r : Reg) (c : Nibble) (rest : List (Reg × Nibble)), s.err = .none →
      sourcesOf i = (r, c) :: rest → s.tagOf r ≠ c →
      exec i s = .next (afterError s (opByte i) (.operandType r (s.tagOf r) c))) ∧
    (∀ (i : Instr) (s : State) (r1 r2 : Reg) (c1 c2 : Nibble), s.err = .none →
      sourcesOf i = [(r1, c1), (r2, c2)] → s.tagOf r1 = c1 → s.tagOf r2 ≠ c2 →
      exec i s = .next (afterError s (opByte i) (.operandType r2 (s.tagOf r2) c2))) ∧
    ∀ (s : State) (r : Reg) (c : Nibble), s.RegsOk → c ≠ 15#4 → s.tagOf r = c → s.wide r < 2 ^ (128 * 2 ^ c.toNat)

/-! ### The results of the commands -/

/-- R81, R82: CLR writes 0 and MOV copies, each at width w, and neither can fail otherwise. -/
def Obligations.ClrAndMovResults : Prop :=
  (∀ (s : State) (rd : Reg) (wc : Nibble), s.err = .none → exec (.clr rd wc) s = .next (afterWide s rd wc 0)) ∧
    (∀ (s : State) (rd rs1 : Reg) (wc : Nibble), s.err = .none → s.tagOf rs1 = wc →
      exec (.mov rd rs1 wc) s = .next (afterWide s rd wc (s.wide rs1))) ∧
    (∀ (s : State) (r : Reg) (wc : Nibble), s.err = .none → s.tagOf r = wc → exec (.mov r r wc) s = .next s) ∧
    (∀ rd wc, opByte (.clr rd wc) = 0x01#8) ∧ (∀ rd rs1 wc, opByte (.mov rd rs1 wc) = 0x02#8) ∧
    decode 3 ⟨0x00100001, 0⟩ = .ok (.clr 0 1) ∧ decode 3 ⟨0x00000102, 0⟩ = .ok (.mov 1 0 0)

/-- R83, R84, R64: LDN writes the native integer of ARG[N−1:0], signed or not, modulo 2^w. -/
def Obligations.LdnResult : Prop :=
  (∀ (s : State) (rd : Reg) (wc : Nibble) (nt : NativeType) (arg : BitVec 64), s.err = .none →
      exec (.ldn rd wc nt arg) s =
        .next
          (afterWide s rd wc
            (if nativeSigned nt then
              ((BitVec.ofNat (nativeWidth nt) arg.toNat).toInt % ((2 ^ widthOf wc : Nat) : Int)).toNat
            else arg.toNat % 2 ^ nativeWidth nt))) ∧
    (∀ nt : NativeType, nativeWidth nt = 8 * 2 ^ (nt.toCode.toNat % 4) ∧
      nativeSigned nt = decide (4 ≤ nt.toCode.toNat)) ∧
    (∀ rd wc nt arg, opByte (.ldn rd wc nt arg) = 0x03#8) ∧
    decode 3 ⟨0x06100303, 0x00000000FFFFFFFB⟩ = .ok (.ldn 3 1 .s32 0x00000000FFFFFFFB)

/-- R80, R85: RESIZE writes the source, which must have the width SWC, modulo 2^w. -/
def Obligations.ResizeResult : Prop :=
  (∀ (s : State) (rd rs1 : Reg) (wc swc : Nibble), s.err = .none → s.tagOf rs1 = swc →
      exec (.resize rd rs1 wc swc) s = .next (afterWide s rd wc (s.wide rs1 % 2 ^ (128 * 2 ^ wc.toNat)))) ∧
    (∀ (s : State) (rd rs1 : Reg) (wc swc : Nibble), s.err = .none → s.tagOf rs1 ≠ swc →
      exec (.resize rd rs1 wc swc) s = .next (afterError s 0x04#8 (.operandType rs1 (s.tagOf rs1) swc))) ∧
    (∀ rd rs1 wc swc, opByte (.resize rd rs1 wc swc) = 0x04#8) ∧
    (∀ (k : Fin 8) (rd rs1 : Reg) (wc swc : Nibble), swc.toNat > k.val →
      ∃ e, decode k (encode (.resize rd rs1 wc swc)) = .error e) ∧
    decode 3 ⟨0x01002404, 0⟩ = .ok (.resize 4 2 0 1)

/-- R86: TONAT writes the low N bits to NRES, sign-extended to 64 for a signed type, and no wide register. -/
def Obligations.TonatResult : Prop :=
  (∀ (s : State) (rs1 : Reg) (wc : Nibble) (nt : NativeType), s.err = .none → s.tagOf rs1 = wc →
      exec (.tonat rs1 wc nt) s =
        .next
          (afterNative s
            (if nativeSigned nt then (BitVec.ofNat (nativeWidth nt) (s.wide rs1)).signExtend 64
            else (BitVec.ofNat (nativeWidth nt) (s.wide rs1)).setWidth 64))) ∧
    (∀ rs1 wc nt, opByte (.tonat rs1 wc nt) = 0x05#8) ∧ decode 3 ⟨0x05103005, 0⟩ = .ok (.tonat 3 1 .s16)

/-- R101, R103: ADD and SUB modulo 2^w. -/
def Obligations.AddAndSubResults : Prop :=
  (∀ (s : State) (rd rs1 rs2 : Reg) (wc : Nibble), s.err = .none → s.tagOf rs1 = wc → s.tagOf rs2 = wc →
      exec (.add rd rs1 rs2 wc) s =
        .next (afterWide s rd wc ((s.wide rs1 + s.wide rs2) % 2 ^ (128 * 2 ^ wc.toNat))) ∧
      exec (.sub rd rs1 rs2 wc) s =
        .next
          (afterWide s rd wc
            (((s.wide rs1 : Int) - (s.wide rs2 : Int)) % ((2 ^ (128 * 2 ^ wc.toNat) : Nat) : Int)).toNat)) ∧
    (∀ rd rs1 rs2 wc, opByte (.add rd rs1 rs2 wc) = 0x10#8 ∧ opByte (.sub rd rs1 rs2 wc) = 0x11#8) ∧
    decode 3 ⟨0x00110210, 0⟩ = .ok (.add 2 0 1 1) ∧ decode 3 ⟨0x00110311, 0⟩ = .ok (.sub 3 0 1 1)

/-- R104, R105, R106: NEG, INC and DEC modulo 2^w. -/
def Obligations.NegIncAndDecResults : Prop :=
  (∀ (s : State) (rd rs1 : Reg) (wc : Nibble), s.err = .none → s.tagOf rs1 = wc →
      exec (.neg rd rs1 wc) s =
        .next
          (afterWide s rd wc
            ((2 ^ (128 * 2 ^ wc.toNat) - 1 - s.wide rs1 + 1) % 2 ^ (128 * 2 ^ wc.toNat))) ∧
      exec (.inc rd rs1 wc) s = .next (afterWide s rd wc ((s.wide rs1 + 1) % 2 ^ (128 * 2 ^ wc.toNat))) ∧
      exec (.dec rd rs1 wc) s =
        .next (afterWide s rd wc (((s.wide rs1 : Int) - 1) % ((2 ^ (128 * 2 ^ wc.toNat) : Nat) : Int)).toNat)) ∧
    (∀ rd rs1 wc, opByte (.neg rd rs1 wc) = 0x12#8 ∧ opByte (.inc rd rs1 wc) = 0x13#8 ∧
      opByte (.dec rd rs1 wc) = 0x14#8) ∧
    decode 3 ⟨0x00000112, 0⟩ = .ok (.neg 1 0 0) ∧ decode 3 ⟨0x00000013, 0⟩ = .ok (.inc 0 0 0) ∧
    decode 3 ⟨0x00000014, 0⟩ = .ok (.dec 0 0 0)

/-- R108: MUL modulo 2^w. -/
def Obligations.MulResult : Prop :=
  (∀ (s : State) (rd rs1 rs2 : Reg) (wc : Nibble), s.err = .none → s.tagOf rs1 = wc → s.tagOf rs2 = wc →
      exec (.mul rd rs1 rs2 wc) s =
        .next (afterWide s rd wc (s.wide rs1 * s.wide rs2 % 2 ^ (128 * 2 ^ wc.toNat)))) ∧
    (∀ rd rs1 rs2 wc, opByte (.mul rd rs1 rs2 wc) = 0x15#8) ∧ decode 3 ⟨0x00150415, 0⟩ = .ok (.mul 4 0 5 1)

/-- R121, R122: DIV and MOD, and DivisionByZero when the divisor is 0, which leaves every register as it was. -/
def Obligations.DivAndModResults : Prop :=
  (∀ (s : State) (rd rs1 rs2 : Reg) (wc : Nibble), s.err = .none → s.tagOf rs1 = wc → s.tagOf rs2 = wc →
      (s.wide rs2 ≠ 0 →
        exec (.div rd rs1 rs2 wc) s = .next (afterWide s rd wc (s.wide rs1 / s.wide rs2)) ∧
        exec (.mod rd rs1 rs2 wc) s = .next (afterWide s rd wc (s.wide rs1 % s.wide rs2))) ∧
      (s.wide rs2 = 0 →
        exec (.div rd rs1 rs2 wc) s = .next (afterError s 0x18#8 (.divisionByZero rs2)) ∧
        exec (.mod rd rs1 rs2 wc) s = .next (afterError s 0x19#8 (.divisionByZero rs2)))) ∧
    (∀ rd rs1 rs2 wc, opByte (.div rd rs1 rs2 wc) = 0x18#8 ∧ opByte (.mod rd rs1 rs2 wc) = 0x19#8) ∧
    decode 3 ⟨0x00110618, 0⟩ = .ok (.div 6 0 1 1) ∧ decode 3 ⟨0x00110719, 0⟩ = .ok (.mod 7 0 1 1)

/-- R131, R133: SHL and SHR by the unsigned 64-bit amount; 0 when it is w or more. -/
def Obligations.ShlAndShrResults : Prop :=
  (∀ (s : State) (rd rs1 : Reg) (wc : Nibble) (amount : BitVec 64), s.err = .none → s.tagOf rs1 = wc →
      exec (.shl rd rs1 wc amount) s =
        .next
          (afterWide s rd wc
            (if amount.toNat ≥ 128 * 2 ^ wc.toNat then 0
            else s.wide rs1 * 2 ^ amount.toNat % 2 ^ (128 * 2 ^ wc.toNat))) ∧
      exec (.shr rd rs1 wc amount) s =
        .next
          (afterWide s rd wc
            (if amount.toNat ≥ 128 * 2 ^ wc.toNat then 0 else s.wide rs1 / 2 ^ amount.toNat))) ∧
    (∀ rd rs1 wc amount, opByte (.shl rd rs1 wc amount) = 0x20#8 ∧ opByte (.shr rd rs1 wc amount) = 0x21#8) ∧
    decode 3 ⟨0x00100120, 200⟩ = .ok (.shl 1 0 1 200) ∧ decode 3 ⟨0x00100121, 199⟩ = .ok (.shr 1 0 1 199)

/-- R134 to R137: NOT within width w, and AND, OR and XOR. -/
def Obligations.BitwiseResults : Prop :=
  (∀ (s : State) (rd rs1 : Reg) (wc : Nibble), s.err = .none → s.tagOf rs1 = wc →
      exec (.not rd rs1 wc) s = .next (afterWide s rd wc (2 ^ (128 * 2 ^ wc.toNat) - 1 - s.wide rs1))) ∧
    (∀ (s : State) (rd rs1 rs2 : Reg) (wc : Nibble), s.err = .none → s.tagOf rs1 = wc → s.tagOf rs2 = wc →
      exec (.and rd rs1 rs2 wc) s = .next (afterWide s rd wc (s.wide rs1 &&& s.wide rs2)) ∧
      exec (.or rd rs1 rs2 wc) s = .next (afterWide s rd wc (s.wide rs1 ||| s.wide rs2)) ∧
      exec (.xor rd rs1 rs2 wc) s = .next (afterWide s rd wc (s.wide rs1 ^^^ s.wide rs2))) ∧
    (∀ rd rs1 wc, opByte (.not rd rs1 wc) = 0x22#8) ∧
    (∀ rd rs1 rs2 wc, opByte (.and rd rs1 rs2 wc) = 0x23#8 ∧ opByte (.or rd rs1 rs2 wc) = 0x24#8 ∧
      opByte (.xor rd rs1 rs2 wc) = 0x25#8) ∧
    decode 3 ⟨0x00000122, 0⟩ = .ok (.not 1 0 0) ∧ decode 3 ⟨0x00010223, 0⟩ = .ok (.and 2 0 1 0) ∧
    decode 3 ⟨0x00010224, 0⟩ = .ok (.or 2 0 1 0) ∧ decode 3 ⟨0x00010225, 0⟩ = .ok (.xor 2 0 1 0)

/-- R138: TEST writes 1 to NRES for a value that is not 0, and 0 for 0. -/
def Obligations.TestResult : Prop :=
  (∀ (s : State) (rs1 : Reg) (wc : Nibble), s.err = .none → s.tagOf rs1 = wc →
      exec (.test rs1 wc) s = .next (afterNative s (if s.wide rs1 = 0 then 0 else 1))) ∧
    (∀ rs1 wc, opByte (.test rs1 wc) = 0x26#8) ∧ decode 3 ⟨0x00000026, 0⟩ = .ok (.test 0 0)

/-- R151 to R156: the six relations of the naturals, 1 or 0 in NRES. -/
def Obligations.RelationResults : Prop :=
  (∀ (s : State) (rs1 rs2 : Reg) (wc : Nibble), s.err = .none → s.tagOf rs1 = wc → s.tagOf rs2 = wc →
      exec (.eq rs1 rs2 wc) s = .next (afterNative s (if s.wide rs1 = s.wide rs2 then 1 else 0)) ∧
      exec (.ne rs1 rs2 wc) s = .next (afterNative s (if s.wide rs1 = s.wide rs2 then 0 else 1)) ∧
      exec (.lt rs1 rs2 wc) s = .next (afterNative s (if s.wide rs1 < s.wide rs2 then 1 else 0)) ∧
      exec (.le rs1 rs2 wc) s = .next (afterNative s (if s.wide rs1 ≤ s.wide rs2 then 1 else 0)) ∧
      exec (.gt rs1 rs2 wc) s = .next (afterNative s (if s.wide rs1 > s.wide rs2 then 1 else 0)) ∧
      exec (.ge rs1 rs2 wc) s = .next (afterNative s (if s.wide rs1 ≥ s.wide rs2 then 1 else 0))) ∧
    (∀ rs1 rs2 wc, opByte (.eq rs1 rs2 wc) = 0x28#8 ∧ opByte (.ne rs1 rs2 wc) = 0x29#8 ∧
      opByte (.lt rs1 rs2 wc) = 0x2A#8 ∧ opByte (.le rs1 rs2 wc) = 0x2B#8 ∧ opByte (.gt rs1 rs2 wc) = 0x2C#8 ∧
      opByte (.ge rs1 rs2 wc) = 0x2D#8) ∧
    decode 3 ⟨0x00110028, 0⟩ = .ok (.eq 0 1 1) ∧ decode 3 ⟨0x00110029, 0⟩ = .ok (.ne 0 1 1) ∧
    decode 3 ⟨0x0011002A, 0⟩ = .ok (.lt 0 1 1) ∧ decode 3 ⟨0x0011002B, 0⟩ = .ok (.le 0 1 1) ∧
    decode 3 ⟨0x0011002C, 0⟩ = .ok (.gt 0 1 1) ∧ decode 3 ⟨0x0011002D, 0⟩ = .ok (.ge 0 1 1)

/-- R162: PARSE checks the range, then reads digits up to the first that is none; the value is that of all the digits, taken
modulo 2^w. -/
def Obligations.ParseResult : Prop :=
  (∀ (s : State) (rd : Reg) (wc : Nibble) (base length : BitVec 32), s.err = .none →
      (base.toNat + length.toNat > s.params.textBytes →
        exec (.parse rd wc base length) s = .next (afterError s 0x30#8 (.textBounds base))) ∧
      (base.toNat + length.toNat ≤ s.params.textBytes →
        (AllDigits s.textAt base.toNat length.toNat →
          exec (.parse rd wc base length) s =
            .next
              (afterWide s rd wc
                (decimalValue s.textAt base.toNat length.toNat % 2 ^ (128 * 2 ^ wc.toNat)))) ∧
        ∀ i, i < length.toNat → AllDigits s.textAt base.toNat i → ¬ Digit (s.textAt (base.toNat + i)) →
          exec (.parse rd wc base length) s =
            .next (afterError s 0x30#8 (.invalidFormat (base.toNat + i) (s.textAt (base.toNat + i)))))) ∧
    (∀ rd wc base length, opByte (.parse rd wc base length) = 0x30#8) ∧
    decode 3 ⟨0x00000030, 0x0000000300000010⟩ = .ok (.parse 0 0 0x10 3)

/-- R163: PARSEZ reads digits up to the first 0x00; a byte that is neither raises InvalidFormat, and the end of TEXT before
either raises TextBounds. -/
def Obligations.ParsezResult : Prop :=
  (∀ (s : State) (rd : Reg) (wc : Nibble) (base : BitVec 32) (n : Nat), s.err = .none →
      AllDigits s.textAt base.toNat n →
      (base.toNat + n < s.params.textBytes → s.textAt (base.toNat + n) = 0x00#8 →
        exec (.parsez rd wc base) s =
          .next (afterWide s rd wc (decimalValue s.textAt base.toNat n % 2 ^ (128 * 2 ^ wc.toNat)))) ∧
      (base.toNat + n < s.params.textBytes → s.textAt (base.toNat + n) ≠ 0x00#8 →
        ¬ Digit (s.textAt (base.toNat + n)) →
        exec (.parsez rd wc base) s =
          .next (afterError s 0x31#8 (.invalidFormat (base.toNat + n) (s.textAt (base.toNat + n))))) ∧
      (base.toNat + n ≥ s.params.textBytes →
        exec (.parsez rd wc base) s = .next (afterError s 0x31#8 (.textBounds base)))) ∧
    (∀ rd wc base, opByte (.parsez rd wc base) = 0x31#8) ∧
    decode 3 ⟨0x00000031, 0x20⟩ = .ok (.parsez 0 0 0x20) ∧
    decode 3 ⟨0x00000031, 0xFFFFFFFF00000020⟩ = .ok (.parsez 0 0 0x20)

/-- R168: FMT writes the decimal digits of its source at the base and their count to NRES, and nothing else; when they do
not fit it raises TextBounds and writes none. -/
def Obligations.FmtResult : Prop :=
  (∀ (s : State) (rs1 : Reg) (wc : Nibble) (base : BitVec 32), s.err = .none → s.tagOf rs1 = wc →
      (base.toNat + (digitString (s.wide rs1)).length ≤ s.params.textBytes →
        ∃ t, exec (.fmt rs1 wc base) s = .next t ∧
          t.nres = BitVec.ofNat 64 (digitString (s.wide rs1)).length ∧
          (∀ (j : Nat) (h : j < (digitString (s.wide rs1)).length),
            t.textAt (base.toNat + j) = (digitString (s.wide rs1))[j]) ∧
          (∀ a, a < base.toNat ∨ base.toNat + (digitString (s.wide rs1)).length ≤ a → t.textAt a = s.textAt a) ∧
          SameWide s t ∧ SameError s t ∧ SamePort s t) ∧
      (base.toNat + (digitString (s.wide rs1)).length > s.params.textBytes →
        exec (.fmt rs1 wc base) s = .next (afterError s 0x32#8 (.textBounds base)))) ∧
    (∀ (wc : Nibble) (a : Nat), a < 2 ^ (128 * 2 ^ wc.toNat) →
      1 ≤ (digitString a).length ∧ (digitString a).length ≤ maxDigits (128 * 2 ^ wc.toNat)) ∧
    (∀ rs1 wc base, opByte (.fmt rs1 wc base) = 0x32#8) ∧ decode 3 ⟨0x00000032, 0x40⟩ = .ok (.fmt 0 0 0x40)

/-- R6: D(w) for each width, and that it is the most digits a value of that width has. -/
def Obligations.DigitCountsOfEachWidth : Prop :=
  maxDigits 128 = 39 ∧ maxDigits 256 = 78 ∧ maxDigits 512 = 155 ∧ maxDigits 1024 = 309 ∧ maxDigits 2048 = 617 ∧
    maxDigits 4096 = 1234 ∧ maxDigits 8192 = 2467 ∧ maxDigits 16384 = 4933 ∧
    ∀ w v, v < 2 ^ w → (formatDecimal v).length ≤ maxDigits w

/-! ### Frames -/

/-- What a command with a wide destination leaves unchanged: every other wide register and tag, NRES, every byte of TEXT and
the host's side; and either the error registers, or (an error) the destination too (R23, R24, R189). -/
def Obligations.WideCommandFrame : Prop :=
  ∀ (i : Instr) (s t : State) (rd : Reg), destOf i = some rd → exec i s = .next t →
    (∀ r, r ≠ rd → t.wide r = s.wide r ∧ t.tagOf r = s.tagOf r) ∧ t.nres = s.nres ∧
      (∀ a, t.textAt a = s.textAt a) ∧ SamePort s t ∧ (SameError s t ∨ SameWide s t)

/-- What TONAT, TEST and the six relations leave unchanged: every wide register and tag, every byte of TEXT and the host's
side; and either the error registers, or (an error) NRES too (R24, R189). -/
def Obligations.NativeCommandFrame : Prop :=
  ∀ (i : Instr) (s t : State), writesNative i.opcode = true → i.opcode ≠ .fmt → exec i s = .next t →
    SameWide s t ∧ (∀ a, t.textAt a = s.textAt a) ∧ SamePort s t ∧ (SameError s t ∨ t.nres = s.nres)

/-- What FMT leaves unchanged: every wide register and tag, the host's side, and every byte of TEXT but those of the digits
of the source at the base; on an error NRES and every byte of TEXT (R168, R48). -/
def Obligations.FmtFrame : Prop :=
  ∀ (s t : State) (rs1 : Reg) (wc : Nibble) (base : BitVec 32), exec (.fmt rs1 wc base) s = .next t →
    SameWide s t ∧ SamePort s t ∧
      (∀ a, a < base.toNat ∨ base.toNat + (formatDecimal (s.wide rs1)).length ≤ a → t.textAt a = s.textAt a) ∧
      (SameError s t ∨ (t.nres = s.nres ∧ ∀ a, t.textAt a = s.textAt a))

/-- R24, for every command: only TONAT, TEST, the relations and FMT write NRES, and none of them when it raises an error. -/
def Obligations.OnlyNativeCommandsWriteNres : Prop :=
  ∀ (i : Instr) (s t : State), exec i s = .next t → t.nres ≠ s.nres →
    i.opcode ∈ [Opcode.tonat, .test, .eq, .ne, .lt, .le, .gt, .ge, .fmt] ∧ SameError s t ∧ SameWide s t

/-- Over a whole step, a byte of TEXT changes only by a completing FMT, a TEXT_WRITE to an idle unit, or a RESET (R41, R47,
R210). -/
def Obligations.TextChangesOnlyThroughItsWriters : Prop :=
  ∀ (s t : State) (a : Nat), step s = .next t → t.textAt a ≠ s.textAt a →
    (∃ c rs1 wc base, Completing s c ∧ decode s.params.k c = .ok (.fmt rs1 wc base)) ∨
      (∃ x v rest, s.host = .textWrite x v :: rest ∧ s.inFlight = none ∧ x.toNat = a) ∨
      ∃ rest, HostTurn s .reset rest

/-- The host cannot write W, TAG, NRES, STATUS.ERR, STATUS.EOP or EINFO but through commands and RESET: a step that
completes no command and is no RESET leaves them all; and no step changes the parameters, and so ID (R5, R27, R44). -/
def Obligations.OnlyCommandsAndResetWriteRegisters : Prop :=
  ∀ s t : State, step s = .next t →
    t.params = s.params ∧ idWord t.params = idWord s.params ∧
      ((∀ c, ¬ Completing s c) → (∀ rest, ¬ HostTurn s .reset rest) →
        t.w = s.w ∧ t.tag = s.tag ∧ t.nres = s.nres ∧ SameError s t)

/-! ### The invariant -/

/-- The state after reset is legal, for every instance whose TEXT is as large as R5 asks. -/
def Obligations.ResetStateIsLegal : Prop :=
  State.reset.Inv ∧
    ∀ p : Params, maxDigits (128 * 2 ^ p.k.val) ≤ p.textBytes → p.textBytes ≤ 2 ^ 32 - 1 → (State.resetOf p).Inv

/-- Every step from a legal state gives a legal state: the tags stay legal and the values within them (R21), EOP and EINFO
are 0 without an error (R27), and TEXT keeps its form and bounds. -/
def Obligations.EveryStepKeepsTheStateLegal : Prop := ∀ s t : State, s.Inv → step s = .next t → t.Inv

/-! ### The datapaths compute the closed forms (R15) -/

/-- R100, R102: the recursive adder and subtractor, with their carry and borrow, add and subtract modulo 2^w. -/
def Obligations.AdderAndSubtractorAreModular : Prop :=
  ∀ (n a b : Nat), a < 2 ^ Datapath.limbWidth n → b < 2 ^ Datapath.limbWidth n →
    Datapath.add n a b = (a + b) % 2 ^ Datapath.limbWidth n ∧
      Datapath.sub n a b = (((a : Int) - (b : Int)) % ((2 ^ Datapath.limbWidth n : Nat) : Int)).toNat

/-- R105, R106: the rippling incrementer and decrementer add and subtract 1 modulo 2^w. -/
def Obligations.IncrementerAndDecrementerAreModular : Prop :=
  ∀ (n a : Nat), a < 2 ^ Datapath.limbWidth n →
    Datapath.inc n a = (a + 1) % 2 ^ Datapath.limbWidth n ∧
      Datapath.dec n a = (((a : Int) - 1) % ((2 ^ Datapath.limbWidth n : Nat) : Int)).toNat

/-- R107: the split multiplier, with the lu·ru term of 90_conflicts.md C1, multiplies modulo 2^w. -/
def Obligations.SplitMultiplierIsModular : Prop :=
  ∀ (n a b : Nat), a < 2 ^ Datapath.limbWidth n → b < 2 ^ Datapath.limbWidth n →
    Datapath.mul n a b = a * b % 2 ^ Datapath.limbWidth n

/-- R120: the restoring division computes the exact quotient and remainder. -/
def Obligations.RestoringDivisionIsExact : Prop :=
  ∀ (w a b : Nat), a < 2 ^ w → b < 2 ^ w → b ≠ 0 → Datapath.divmod w a b = (a / b, a % b)

/-- R130, R132: the recursive shifters shift, with 0 for an amount of w or more. -/
def Obligations.ShiftersShift : Prop :=
  ∀ (n a amount : Nat), a < 2 ^ Datapath.limbWidth n →
    Datapath.shl n a amount =
        (if amount ≥ Datapath.limbWidth n then 0 else a * 2 ^ amount % 2 ^ Datapath.limbWidth n) ∧
      Datapath.shr n a amount = if amount ≥ Datapath.limbWidth n then 0 else a / 2 ^ amount

/-- R150: the limb comparators are equality and less-than on the naturals. -/
def Obligations.ComparatorsAreNumeric : Prop :=
  ∀ (n a b : Nat), a < 2 ^ Datapath.limbWidth n → b < 2 ^ Datapath.limbWidth n →
    (Datapath.eq n a b = true ↔ a = b) ∧ (Datapath.lt n a b = true ↔ a < b)

/-- R134 to R138: the elementwise complement, AND, OR and XOR and the truth test, over the limbs. -/
def Obligations.LimbLogicIsBitwise : Prop :=
  ∀ (n a b : Nat), a < 2 ^ Datapath.limbWidth n → b < 2 ^ Datapath.limbWidth n →
    Datapath.complement n a = 2 ^ Datapath.limbWidth n - 1 - a ∧
      Datapath.bitwise (fun x y => x &&& y) n a b = a &&& b ∧
      Datapath.bitwise (fun x y => x ||| y) n a b = a ||| b ∧
      Datapath.bitwise (fun x y => x ^^^ y) n a b = a ^^^ b ∧ (Datapath.truth n a = true ↔ a ≠ 0)

/-- R80, R83: the doubling and halving converter is reduction modulo 2^w, and the native constructor is sign or zero
extension. -/
def Obligations.ConverterAndNativeConstructor : Prop :=
  (∀ (m n v : Nat), v < 2 ^ Datapath.limbWidth m →
      Datapath.convert v m n = v % 2 ^ Datapath.limbWidth n) ∧
    ∀ (nt : NativeType) (n x : Nat), x < 2 ^ nativeWidth nt →
      Datapath.native nt x n = nativeValue nt (Datapath.limbWidth n) x

/-- R161, R165: the parser's accumulator over the multiplier and adder computes the text's value modulo 2^w, and the
formatter's divisions by 10 write the digits of the value. -/
def Obligations.TextDatapathsAreDecimal : Prop :=
  (∀ (n : Nat) (text : Nat → Byte) (b len : Nat), AllDigits text b len →
      Datapath.parse n b ((List.range len).map fun i => text (b + i)) 0 =
        .ok (decimalValue text b len % 2 ^ Datapath.limbWidth n)) ∧
    ∀ (w v : Nat), 4 ≤ w → v < 2 ^ w → Datapath.format w v = digitString v

/-! ### Laws of several commands -/

/-- R123: DIV, MOD, MUL and ADD put the dividend together again, and the remainder is below the divisor. -/
def Obligations.DivisionLawOverCommands : Prop :=
  ∀ (s : State) (q m ra rb : Reg) (wc : Nibble), s.RegsOk → wc ≠ 15#4 → s.err = .none → s.tagOf ra = wc →
    s.tagOf rb = wc → s.wide rb ≠ 0 → q ≠ m → q ≠ ra → q ≠ rb → m ≠ ra → m ≠ rb →
    ∃ t, execAll [.div q ra rb wc, .mod m ra rb wc, .mul q q rb wc, .add q q m wc] s = .next t ∧
      t.err = .none ∧ t.wide q = s.wide ra ∧ t.tagOf q = wc ∧ t.wide m < s.wide rb

/-- R166: FMT and then PARSE of the digits it wrote, at the same width, give the value back, for every value whose digits fit
in TEXT from the base on (R168). -/
def Obligations.FormatThenParseGivesTheValueBack : Prop :=
  ∀ (s : State) (rd rs1 : Reg) (wc : Nibble) (base : BitVec 32), s.Inv → wc ≠ 15#4 → s.err = .none →
    s.tagOf rs1 = wc → base.toNat + (digitString (s.wide rs1)).length ≤ s.params.textBytes →
    ∃ t u, exec (.fmt rs1 wc base) s = .next t ∧ exec (.parse rd wc base (t.nres.setWidth 32)) t = .next u ∧
      u.err = .none ∧ u.wide rd = s.wide rs1 ∧ u.tagOf rd = wc

/-- R157: for any two registers of one width exactly one of LT, EQ and the reversed LT writes 1, the others 0; and LT is
transitive. -/
def Obligations.LessThanIsAStrictTotalOrder : Prop :=
  ∀ (s : State) (ra rb rc : Reg) (wc : Nibble), s.err = .none → s.tagOf ra = wc → s.tagOf rb = wc → s.tagOf rc = wc →
    ∃ l e g m n, exec (.lt ra rb wc) s = .next l ∧ exec (.eq ra rb wc) s = .next e ∧
      exec (.lt rb ra wc) s = .next g ∧ exec (.lt rb rc wc) s = .next m ∧ exec (.lt ra rc wc) s = .next n ∧
      l.nres.toNat + e.nres.toNat + g.nres.toNat = 1 ∧ (l.nres = 1 → m.nres = 1 → n.nres = 1)

/-- R85, R80: a value widened to twice its width and narrowed back is unchanged. -/
def Obligations.WidenThenNarrowIsTheIdentity : Prop :=
  ∀ (s : State) (rd re rs1 : Reg) (wc : Nibble), s.RegsOk → wc.toNat < s.params.k.val → s.err = .none →
    s.tagOf rs1 = wc →
    ∃ wide narrow t, Assembler.expand (.widen rd rs1 (wc + 1)) = some wide ∧
      Assembler.expand (.narrow re rd wc) = some narrow ∧ execAll (wide ++ narrow) s = .next t ∧
      t.wide re = s.wide rs1 ∧ t.tagOf re = wc

/-- R109: a value and its negation add to 0, and a shift left by s < w is multiplication by 2^s. -/
def Obligations.NegationAndShiftLaws : Prop :=
  ∀ (s : State) (rd ra rb : Reg) (wc : Nibble), s.RegsOk → wc ≠ 15#4 → s.err = .none → s.tagOf ra = wc →
    (rd ≠ ra →
      ∃ t, execAll [.neg rd ra wc, .add rd ra rd wc] s = .next t ∧ t.wide rd = 0 ∧ t.tagOf rd = wc) ∧
    ∀ amount : BitVec 64, amount.toNat < 128 * 2 ^ wc.toNat → s.tagOf rb = wc → s.wide rb = 2 ^ amount.toNat →
      exec (.shl rd ra wc amount) s = .next (afterWide s rd wc (s.wide ra * s.wide rb % 2 ^ (128 * 2 ^ wc.toNat))) ∧
      exec (.mul rd ra rb wc) s = .next (afterWide s rd wc (s.wide ra * s.wide rb % 2 ^ (128 * 2 ^ wc.toNat)))

/-- R72: POSTINC and POSTDEC copy the old value and step the source; POS is a copy; LDI loads an unsigned native. -/
def Obligations.PseudoInstructionExpansions : Prop :=
  (∀ (s : State) (rd rs1 : Reg) (wc : Nibble), s.err = .none → s.tagOf rs1 = wc → rd ≠ rs1 →
      (∃ l t, Assembler.expand (.postinc rd rs1 wc) = some l ∧ execAll l s = .next t ∧ t.wide rd = s.wide rs1 ∧
        t.wide rs1 = (s.wide rs1 + 1) % 2 ^ (128 * 2 ^ wc.toNat)) ∧
      ∃ l t, Assembler.expand (.postdec rd rs1 wc) = some l ∧ execAll l s = .next t ∧ t.wide rd = s.wide rs1 ∧
        t.wide rs1 = (((s.wide rs1 : Int) - 1) % ((2 ^ (128 * 2 ^ wc.toNat) : Nat) : Int)).toNat) ∧
    (∀ (rd rs1 : Reg) (wc : Nibble), Assembler.expand (.pos rd rs1 wc) = some [.mov rd rs1 wc]) ∧
    ∀ (s : State) (rd : Reg) (wc : Nibble) (x : BitVec 64), s.err = .none →
      ∃ l, Assembler.expand (.ldi rd wc x) = some l ∧ execAll l s = .next (afterWide s rd wc x.toNat)
end

