-- ==== Sys2Proof/Laws/Datapath.lean ====
section
/-! SUPPORT. The small laws of limbs (00_scope.md R9, R10): widths, halves, and putting two limbs together. -/

namespace Sys2Proof.Machine.Datapath

theorem limbWidth_zero : limbWidth 0 = 64 := rfl

theorem limbWidth_succ (n : Nat) : limbWidth (n + 1) = limbWidth n + limbWidth n := by
  simp only [limbWidth, Nat.pow_succ]
  omega

theorem limbWidth_pos (n : Nat) : 0 < limbWidth n := Nat.mul_pos (by omega) (Nat.two_pow_pos n)

/-- The level of a width code has the code's width (R62). -/
theorem limbWidth_levelOf (wc : Nibble) : limbWidth (levelOf wc) = widthOf wc := by
  simp only [limbWidth, levelOf, widthOf, Nat.pow_succ]
  omega

theorem two_pow_limbWidth_succ (n : Nat) : 2 ^ limbWidth (n + 1) = 2 ^ limbWidth n * 2 ^ limbWidth n := by
  rw [limbWidth_succ, Nat.pow_add]

theorem two_le_two_pow_limbWidth (n : Nat) : 2 ≤ 2 ^ limbWidth n := by
  simpa using Nat.pow_le_pow_right (n := 2) (by omega) (limbWidth_pos n)

/-- A limb is made of two equal halves (the quarters of R107). -/
theorem limbWidth_halves (n : Nat) : limbWidth n = limbWidth n / 2 + limbWidth n / 2 := by
  have : limbWidth n = 2 * (32 * 2 ^ n) := by simp only [limbWidth]; omega
  omega

theorem hi_lt {n a : Nat} (h : a < 2 ^ limbWidth (n + 1)) : hi (limbWidth n) a < 2 ^ limbWidth n := by
  rw [two_pow_limbWidth_succ] at h
  exact Nat.div_lt_of_lt_mul h

theorem lo_lt (n a : Nat) : lo (limbWidth n) a < 2 ^ limbWidth n := Nat.mod_lt _ (Nat.two_pow_pos _)

/-- `v = hi(v) · 2^h + lo(v)` (R10). -/
theorem join_hi_lo (h v : Nat) : join h (hi h v) (lo h v) = v := by
  rw [join, hi, lo, Nat.mul_comm]
  exact Nat.div_add_mod v _

/-- Reducing the upper limb is reducing the whole. -/
theorem join_mod {p x y : Nat} (hy : y < p) : x % p * p + y = (x * p + y) % (p * p) := by
  have hp : 0 < p := by omega
  rw [Nat.mod_mul, Nat.add_comm (x * p) y, Nat.add_mul_mod_self_right, Nat.mod_eq_of_lt hy, Nat.add_mul_div_right _ _ hp,
    Nat.div_eq_of_lt hy, Nat.zero_add, Nat.mul_comm]
  omega

/-- Bits of two limbs put together. -/
theorem testBit_join {h x y : Nat} (hy : y < 2 ^ h) (i : Nat) :
    (join h x y).testBit i = if i < h then y.testBit i else x.testBit (i - h) := by
  rw [join, Nat.mul_comm, Nat.testBit_two_pow_mul_add _ hy]

end Sys2Proof.Machine.Datapath
end

