-- ==== Sys2Proof/Laws/Decode.lean ====
section
/-! SUPPORT. The small lemmas of the encoding: each code and each field reads back what was written. -/

namespace Sys2Proof

@[simp] theorem regOf_regCode (r : Reg) : regOf (regCode r) = r := by
  revert r; decide

@[simp] theorem regCode_regOf (n : Nibble) : regCode (regOf n) = n := by
  simp [regCode, regOf]

@[simp] theorem opcode_ofByte_toByte (o : Opcode) : Opcode.ofByte o.toByte = some o := by
  cases o <;> decide

/-- The byte of a decoded operation is the byte it was decoded from. -/
theorem opcode_toByte_of_ofByte {b : BitVec 8} {o : Opcode} (h : Opcode.ofByte b = some o) : o.toByte = b := by
  have := List.find?_some h
  simpa using this

@[simp] theorem nativeType_ofCode_toCode (t : NativeType) : NativeType.ofCode t.toCode = some t := by
  cases t <;> decide

theorem nativeType_toCode_of_ofCode {c : Nibble} {t : NativeType} (h : NativeType.ofCode c = some t) : t.toCode = c := by
  have := List.find?_some h
  simpa using this

/-- Bit i of the word of some fields: the bit of the one field of R61 whose range i lies in. -/
theorem wordOf_getLsbD (f : Fields) (i : Nat) (hi : i < 32) :
    (wordOf f).getLsbD i =
      if i < 8 then f.op.getLsbD i
      else if i < 12 then f.rd.getLsbD (i - 8)
      else if i < 16 then f.rs1.getLsbD (i - 12)
      else if i < 20 then f.rs2.getLsbD (i - 16)
      else if i < 24 then f.wc.getLsbD (i - 20)
      else if i < 28 then f.aux.getLsbD (i - 24)
      else f.rsv.getLsbD (i - 28) := by
  have z4 : ∀ (x : Nibble) (j : Nat), 4 ≤ j → x.getLsbD j = false := fun x j h => BitVec.getLsbD_of_ge x j h
  have z8 : ∀ (x : BitVec 8) (j : Nat), 8 ≤ j → x.getLsbD j = false := fun x j h => BitVec.getLsbD_of_ge x j h
  have yes : ∀ a b : Nat, a < b → decide (a < b) = true := fun a b h => decide_eq_true h
  have no : ∀ a b : Nat, b ≤ a → decide (a < b) = false := fun a b h => decide_eq_false (by omega)
  simp only [wordOf, BitVec.getLsbD_or, BitVec.getLsbD_shiftLeft, BitVec.getLsbD_setWidth]
  split_ifs <;> simp (disch := omega) only [z4, z8, yes, no, Bool.true_and, Bool.false_and, Bool.and_false,
    Bool.not_true, Bool.not_false, Bool.or_false, Bool.false_or]

/-- A word is the word of its fields: the fields of R61 cover every bit. -/
@[simp] theorem wordOf_fieldsOf (w : BitVec 32) : wordOf (fieldsOf w) = w := by
  have yes : ∀ a b : Nat, a < b → decide (a < b) = true := fun a b h => decide_eq_true h
  ext i hi
  rw [← BitVec.getLsbD_eq_getElem, wordOf_getLsbD _ _ hi]
  simp only [fieldsOf, BitVec.getLsbD_extractLsb']
  split_ifs <;> simp (disch := omega) only [yes, Bool.true_and, Nat.zero_add, Nat.add_sub_cancel',
    BitVec.getLsbD_eq_getElem]

/-- The fields of the word made from some fields are those fields: no bit of the word belongs to two fields (R61). -/
@[simp] theorem fieldsOf_wordOf (f : Fields) : fieldsOf (wordOf f) = f := by
  obtain ⟨rsv, aux, wc, rs2, rs1, rd, op⟩ := f
  simp only [fieldsOf, Fields.mk.injEq]
  refine ⟨?_, ?_, ?_, ?_, ?_, ?_, ?_⟩ <;> ext i hi <;>
    rw [BitVec.getElem_extractLsb', wordOf_getLsbD _ _ (by omega), ← BitVec.getLsbD_eq_getElem]
  all_goals (split_ifs <;> first | omega | simp)

@[simp] theorem argBase_argOf (base length : BitVec 32) : argBase (argOf base length) = base := by
  ext i hi
  have h : i < 64 := by omega
  simp [argBase, argOf, hi, h, ← BitVec.getLsbD_eq_getElem]

@[simp] theorem argLength_argOf (base length : BitVec 32) : argLength (argOf base length) = length := by
  ext i hi
  have h : 32 + i < 64 := by omega
  have h' : i < 64 := by omega
  simp [argLength, argOf, hi, h, h', ← BitVec.getLsbD_eq_getElem]

@[simp] theorem regCode_zero : regCode 0 = 0#4 := by decide

/-! ### The checks, one lemma each -/

@[simp] theorem widthLegal_zero (k : Fin 8) : widthLegal k 0#4 = true := by simp [widthLegal]

/-- Everything the common check can answer (R68 conditions 3 and 4). -/
theorem checked_eq_ok {k : Fin 8} {wc : Nibble} {unused : List Nibble} {i j : Instr} :
    checked k wc unused i = .ok j ↔ (∀ f ∈ unused, f = 0#4) ∧ widthLegal k wc = true ∧ i = j := by
  unfold checked
  split
  · next h =>
    obtain ⟨f, hf, h0⟩ := List.any_eq_true.1 h
    exact ⟨nofun, fun h => absurd (h.1 f hf) (by simpa using h0)⟩
  · next h =>
    have h' : ∀ f ∈ unused, f = 0#4 := fun f hf => by
      by_contra hne
      exact h (List.any_eq_true.2 ⟨f, hf, by simpa using hne⟩)
    split
    · next hw => exact ⟨fun e => ⟨h', hw, by simpa using e⟩, fun e => by rw [e.2.2]⟩
    · next hw => exact ⟨nofun, fun e => absurd e.2.1 hw⟩

theorem checkedNative_eq_ok {aux : Nibble} {next : NativeType → Except DecodeError Instr} {j : Instr} :
    checkedNative aux next = .ok j ↔ ∃ nt, NativeType.ofCode aux = some nt ∧ next nt = .ok j := by
  unfold checkedNative
  cases NativeType.ofCode aux <;> simp

theorem checkedSource_eq_ok {k : Fin 8} {swc : Nibble} {next : Except DecodeError Instr} {j : Instr} :
    checkedSource k swc next = .ok j ↔ widthLegal k swc = true ∧ next = .ok j := by
  unfold checkedSource
  split <;> simp_all

/-- What the decoder has checked when it answers a command. -/
theorem decodeFields_eq_ok {k : Fin 8} {f : Fields} {arg : BitVec 64} {i : Instr} :
    decodeFields k f arg = .ok i ↔
      f.rsv = 0#4 ∧ ∃ o, Opcode.ofByte f.op = some o ∧ decodeOperation k f arg o = .ok i := by
  unfold decodeFields
  by_cases h : f.rsv = 0#4
  · cases ho : Opcode.ofByte f.op <;> simp [h]
  · simp [h]

end Sys2Proof
end

