-- ==== Sys2Proof/Laws/State.lean ====
section
/-! SUPPORT. One lemma for each field and each update of the state, true by unfolding once, so that no later proof unfolds
a record update. -/

namespace Sys2Proof.Machine

variable (s : State) (r x : Reg) (wc : Nibble) (v : Nat)

/-! ### setWide -/

@[simp] theorem setWide_wide_same : (s.setWide r wc v).wide r = v := by simp [State.setWide, State.wide]

@[simp] theorem setWide_tagOf_same : (s.setWide r wc v).tagOf r = wc := by simp [State.setWide, State.tagOf]

theorem setWide_wide_other (h : x ≠ r) : (s.setWide r wc v).wide x = s.wide x := by
  have h' : (r : Nat) ≠ x := fun e => h (Fin.ext e.symm)
  simp [State.setWide, State.wide, h']

theorem setWide_tagOf_other (h : x ≠ r) : (s.setWide r wc v).tagOf x = s.tagOf x := by
  have h' : (r : Nat) ≠ x := fun e => h (Fin.ext e.symm)
  simp [State.setWide, State.tagOf, h']

theorem setWide_wide : (s.setWide r wc v).wide x = if x = r then v else s.wide x := by
  split
  · next h => subst h; simp
  · next h => exact setWide_wide_other s r x wc v h

theorem setWide_tagOf : (s.setWide r wc v).tagOf x = if x = r then wc else s.tagOf x := by
  split
  · next h => subst h; simp
  · next h => exact setWide_tagOf_other s r x wc v h

@[simp] theorem setWide_params : (s.setWide r wc v).params = s.params := rfl
@[simp] theorem setWide_nres : (s.setWide r wc v).nres = s.nres := rfl
@[simp] theorem setWide_err : (s.setWide r wc v).err = s.err := rfl
@[simp] theorem setWide_eop : (s.setWide r wc v).eop = s.eop := rfl
@[simp] theorem setWide_einfo : (s.setWide r wc v).einfo = s.einfo := rfl
@[simp] theorem setWide_text : (s.setWide r wc v).text = s.text := rfl
@[simp] theorem setWide_inFlight : (s.setWide r wc v).inFlight = s.inFlight := rfl
@[simp] theorem setWide_host : (s.setWide r wc v).host = s.host := rfl
@[simp] theorem setWide_replies : (s.setWide r wc v).replies = s.replies := rfl
@[simp] theorem setWide_textDraw : (s.setWide r wc v).textDraw = s.textDraw := rfl
@[simp] theorem setWide_draws : (s.setWide r wc v).draws = s.draws := rfl
@[simp] theorem setWide_textAt (a : Nat) : (s.setWide r wc v).textAt a = s.textAt a := rfl

/-! ### setNative -/

@[simp] theorem setNative_nres : (s.setNative v).nres = BitVec.ofNat 64 v := rfl
@[simp] theorem setNative_params : (s.setNative v).params = s.params := rfl
@[simp] theorem setNative_w : (s.setNative v).w = s.w := rfl
@[simp] theorem setNative_tag : (s.setNative v).tag = s.tag := rfl
@[simp] theorem setNative_wide : (s.setNative v).wide x = s.wide x := rfl
@[simp] theorem setNative_tagOf : (s.setNative v).tagOf x = s.tagOf x := rfl
@[simp] theorem setNative_err : (s.setNative v).err = s.err := rfl
@[simp] theorem setNative_eop : (s.setNative v).eop = s.eop := rfl
@[simp] theorem setNative_einfo : (s.setNative v).einfo = s.einfo := rfl
@[simp] theorem setNative_text : (s.setNative v).text = s.text := rfl
@[simp] theorem setNative_inFlight : (s.setNative v).inFlight = s.inFlight := rfl
@[simp] theorem setNative_host : (s.setNative v).host = s.host := rfl
@[simp] theorem setNative_replies : (s.setNative v).replies = s.replies := rfl
@[simp] theorem setNative_textDraw : (s.setNative v).textDraw = s.textDraw := rfl
@[simp] theorem setNative_draws : (s.setNative v).draws = s.draws := rfl
@[simp] theorem setNative_textAt (a : Nat) : (s.setNative v).textAt a = s.textAt a := rfl

/-! ### raise and clearError -/

variable (op : BitVec 8) (e : UnitError)

@[simp] theorem raise_err : (s.raise op e).err = e.code := rfl
@[simp] theorem raise_eop : (s.raise op e).eop = op := rfl
@[simp] theorem raise_einfo : (s.raise op e).einfo = e.info := rfl
@[simp] theorem raise_params : (s.raise op e).params = s.params := rfl
@[simp] theorem raise_w : (s.raise op e).w = s.w := rfl
@[simp] theorem raise_tag : (s.raise op e).tag = s.tag := rfl
@[simp] theorem raise_wide : (s.raise op e).wide x = s.wide x := rfl
@[simp] theorem raise_tagOf : (s.raise op e).tagOf x = s.tagOf x := rfl
@[simp] theorem raise_nres : (s.raise op e).nres = s.nres := rfl
@[simp] theorem raise_text : (s.raise op e).text = s.text := rfl
@[simp] theorem raise_inFlight : (s.raise op e).inFlight = s.inFlight := rfl
@[simp] theorem raise_host : (s.raise op e).host = s.host := rfl
@[simp] theorem raise_replies : (s.raise op e).replies = s.replies := rfl
@[simp] theorem raise_textDraw : (s.raise op e).textDraw = s.textDraw := rfl
@[simp] theorem raise_draws : (s.raise op e).draws = s.draws := rfl
@[simp] theorem raise_textAt (a : Nat) : (s.raise op e).textAt a = s.textAt a := rfl

theorem code_ne_none : e.code ≠ .none := by cases e <;> simp [UnitError.code]

@[simp] theorem clearError_err : s.clearError.err = .none := rfl
@[simp] theorem clearError_eop : s.clearError.eop = 0 := rfl
@[simp] theorem clearError_einfo : s.clearError.einfo = 0 := rfl
@[simp] theorem clearError_params : s.clearError.params = s.params := rfl
@[simp] theorem clearError_w : s.clearError.w = s.w := rfl
@[simp] theorem clearError_tag : s.clearError.tag = s.tag := rfl
@[simp] theorem clearError_wide : s.clearError.wide x = s.wide x := rfl
@[simp] theorem clearError_tagOf : s.clearError.tagOf x = s.tagOf x := rfl
@[simp] theorem clearError_nres : s.clearError.nres = s.nres := rfl
@[simp] theorem clearError_text : s.clearError.text = s.text := rfl
@[simp] theorem clearError_inFlight : s.clearError.inFlight = s.inFlight := rfl
@[simp] theorem clearError_host : s.clearError.host = s.host := rfl
@[simp] theorem clearError_replies : s.clearError.replies = s.replies := rfl
@[simp] theorem clearError_textDraw : s.clearError.textDraw = s.textDraw := rfl
@[simp] theorem clearError_draws : s.clearError.draws = s.draws := rfl
@[simp] theorem clearError_textAt (a : Nat) : s.clearError.textAt a = s.textAt a := rfl

/-! ### writeText -/

variable (base : Nat) (bytes : List Byte)

@[simp] theorem writeText_text : (s.writeText base bytes).text = Memory.writeAll s.text base bytes := rfl
@[simp] theorem writeText_params : (s.writeText base bytes).params = s.params := rfl
@[simp] theorem writeText_w : (s.writeText base bytes).w = s.w := rfl
@[simp] theorem writeText_tag : (s.writeText base bytes).tag = s.tag := rfl
@[simp] theorem writeText_wide : (s.writeText base bytes).wide x = s.wide x := rfl
@[simp] theorem writeText_tagOf : (s.writeText base bytes).tagOf x = s.tagOf x := rfl
@[simp] theorem writeText_nres : (s.writeText base bytes).nres = s.nres := rfl
@[simp] theorem writeText_err : (s.writeText base bytes).err = s.err := rfl
@[simp] theorem writeText_eop : (s.writeText base bytes).eop = s.eop := rfl
@[simp] theorem writeText_einfo : (s.writeText base bytes).einfo = s.einfo := rfl
@[simp] theorem writeText_inFlight : (s.writeText base bytes).inFlight = s.inFlight := rfl
@[simp] theorem writeText_host : (s.writeText base bytes).host = s.host := rfl
@[simp] theorem writeText_replies : (s.writeText base bytes).replies = s.replies := rfl
@[simp] theorem writeText_textDraw : (s.writeText base bytes).textDraw = s.textDraw := rfl
@[simp] theorem writeText_draws : (s.writeText base bytes).draws = s.draws := rfl

/-! ### retire and withInFlight -/

@[simp] theorem retire_inFlight : s.retire.inFlight = none := rfl
@[simp] theorem retire_params : s.retire.params = s.params := rfl
@[simp] theorem retire_w : s.retire.w = s.w := rfl
@[simp] theorem retire_tag : s.retire.tag = s.tag := rfl
@[simp] theorem retire_wide : s.retire.wide x = s.wide x := rfl
@[simp] theorem retire_tagOf : s.retire.tagOf x = s.tagOf x := rfl
@[simp] theorem retire_nres : s.retire.nres = s.nres := rfl
@[simp] theorem retire_err : s.retire.err = s.err := rfl
@[simp] theorem retire_eop : s.retire.eop = s.eop := rfl
@[simp] theorem retire_einfo : s.retire.einfo = s.einfo := rfl
@[simp] theorem retire_text : s.retire.text = s.text := rfl
@[simp] theorem retire_host : s.retire.host = s.host := rfl
@[simp] theorem retire_replies : s.retire.replies = s.replies := rfl
@[simp] theorem retire_textDraw : s.retire.textDraw = s.textDraw := rfl
@[simp] theorem retire_draws : s.retire.draws = s.draws := rfl
@[simp] theorem retire_textAt (a : Nat) : s.retire.textAt a = s.textAt a := rfl

variable (c : Command)

@[simp] theorem withInFlight_inFlight : (s.withInFlight c).inFlight = some { cmd := c, opsLeft := 0 } := rfl
@[simp] theorem withInFlight_params : (s.withInFlight c).params = s.params := rfl
@[simp] theorem withInFlight_err : (s.withInFlight c).err = s.err := rfl
@[simp] theorem withInFlight_host : (s.withInFlight c).host = s.host := rfl
@[simp] theorem withInFlight_retire : (s.withInFlight c).retire = s.retire := rfl

/-! ### The host's turn -/

variable (rest : List HostOp) (reply : Reply)

@[simp] theorem takeOp_host : (s.takeOp rest).host = rest := rfl
@[simp] theorem takeOp_inFlight :
    (s.takeOp rest).inFlight = s.inFlight.map fun f => { f with opsLeft := f.opsLeft - 1 } := rfl
@[simp] theorem takeOp_params : (s.takeOp rest).params = s.params := rfl
@[simp] theorem takeOp_w : (s.takeOp rest).w = s.w := rfl
@[simp] theorem takeOp_tag : (s.takeOp rest).tag = s.tag := rfl
@[simp] theorem takeOp_nres : (s.takeOp rest).nres = s.nres := rfl
@[simp] theorem takeOp_err : (s.takeOp rest).err = s.err := rfl
@[simp] theorem takeOp_eop : (s.takeOp rest).eop = s.eop := rfl
@[simp] theorem takeOp_einfo : (s.takeOp rest).einfo = s.einfo := rfl
@[simp] theorem takeOp_text : (s.takeOp rest).text = s.text := rfl
@[simp] theorem takeOp_replies : (s.takeOp rest).replies = s.replies := rfl
@[simp] theorem takeOp_textDraw : (s.takeOp rest).textDraw = s.textDraw := rfl
@[simp] theorem takeOp_draws : (s.takeOp rest).draws = s.draws := rfl
@[simp] theorem takeOp_wide : (s.takeOp rest).wide x = s.wide x := rfl
@[simp] theorem takeOp_tagOf : (s.takeOp rest).tagOf x = s.tagOf x := rfl
@[simp] theorem takeOp_textAt (a : Nat) : (s.takeOp rest).textAt a = s.textAt a := rfl
@[simp] theorem takeOp_busy : (s.takeOp rest).busy = s.busy := by simp [State.busy]
@[simp] theorem takeOp_status : (s.takeOp rest).status = s.status := by simp [State.status]

@[simp] theorem accept_params : (s.accept c).params = s.params := rfl
@[simp] theorem accept_w : (s.accept c).w = s.w := rfl
@[simp] theorem accept_tag : (s.accept c).tag = s.tag := rfl
@[simp] theorem accept_nres : (s.accept c).nres = s.nres := rfl
@[simp] theorem accept_err : (s.accept c).err = s.err := rfl
@[simp] theorem accept_eop : (s.accept c).eop = s.eop := rfl
@[simp] theorem accept_einfo : (s.accept c).einfo = s.einfo := rfl
@[simp] theorem accept_text : (s.accept c).text = s.text := rfl
@[simp] theorem accept_inFlight : (s.accept c).inFlight = some { cmd := c, opsLeft := Config.latency s.draws } := rfl
@[simp] theorem accept_host : (s.accept c).host = s.host := rfl
@[simp] theorem accept_replies : (s.accept c).replies = s.replies := rfl
@[simp] theorem accept_textDraw : (s.accept c).textDraw = s.textDraw := rfl
@[simp] theorem accept_draws : (s.accept c).draws = s.draws + 1 := rfl
@[simp] theorem accept_wide : (s.accept c).wide x = s.wide x := rfl
@[simp] theorem accept_tagOf : (s.accept c).tagOf x = s.tagOf x := rfl
@[simp] theorem accept_textAt (a : Nat) : (s.accept c).textAt a = s.textAt a := rfl
@[simp] theorem accept_busy : (s.accept c).busy = true := rfl

@[simp] theorem reply_params : (s.reply reply).params = s.params := rfl
@[simp] theorem reply_w : (s.reply reply).w = s.w := rfl
@[simp] theorem reply_tag : (s.reply reply).tag = s.tag := rfl
@[simp] theorem reply_nres : (s.reply reply).nres = s.nres := rfl
@[simp] theorem reply_err : (s.reply reply).err = s.err := rfl
@[simp] theorem reply_eop : (s.reply reply).eop = s.eop := rfl
@[simp] theorem reply_einfo : (s.reply reply).einfo = s.einfo := rfl
@[simp] theorem reply_text : (s.reply reply).text = s.text := rfl
@[simp] theorem reply_inFlight : (s.reply reply).inFlight = s.inFlight := rfl
@[simp] theorem reply_host : (s.reply reply).host = s.host := rfl
@[simp] theorem reply_replies : (s.reply reply).replies = s.replies ++ [reply] := rfl
@[simp] theorem reply_textDraw : (s.reply reply).textDraw = s.textDraw := rfl
@[simp] theorem reply_draws : (s.reply reply).draws = s.draws := rfl
@[simp] theorem reply_wide : (s.reply reply).wide x = s.wide x := rfl
@[simp] theorem reply_tagOf : (s.reply reply).tagOf x = s.tagOf x := rfl
@[simp] theorem reply_textAt (a : Nat) : (s.reply reply).textAt a = s.textAt a := rfl
@[simp] theorem reply_busy : (s.reply reply).busy = s.busy := rfl

@[simp] theorem replyFreeWord_params : (s.replyFreeWord).params = s.params := rfl
@[simp] theorem replyFreeWord_w : (s.replyFreeWord).w = s.w := rfl
@[simp] theorem replyFreeWord_tag : (s.replyFreeWord).tag = s.tag := rfl
@[simp] theorem replyFreeWord_nres : (s.replyFreeWord).nres = s.nres := rfl
@[simp] theorem replyFreeWord_err : (s.replyFreeWord).err = s.err := rfl
@[simp] theorem replyFreeWord_eop : (s.replyFreeWord).eop = s.eop := rfl
@[simp] theorem replyFreeWord_einfo : (s.replyFreeWord).einfo = s.einfo := rfl
@[simp] theorem replyFreeWord_text : (s.replyFreeWord).text = s.text := rfl
@[simp] theorem replyFreeWord_inFlight : (s.replyFreeWord).inFlight = s.inFlight := rfl
@[simp] theorem replyFreeWord_host : (s.replyFreeWord).host = s.host := rfl
@[simp] theorem replyFreeWord_replies : (s.replyFreeWord).replies = s.replies ++ [.word (Config.busyWord s.draws)] := rfl
@[simp] theorem replyFreeWord_textDraw : (s.replyFreeWord).textDraw = s.textDraw := rfl
@[simp] theorem replyFreeWord_draws : (s.replyFreeWord).draws = s.draws + 1 := rfl
@[simp] theorem replyFreeWord_wide : (s.replyFreeWord).wide x = s.wide x := rfl
@[simp] theorem replyFreeWord_tagOf : (s.replyFreeWord).tagOf x = s.tagOf x := rfl
@[simp] theorem replyFreeWord_textAt (a : Nat) : (s.replyFreeWord).textAt a = s.textAt a := rfl
@[simp] theorem replyFreeWord_busy : (s.replyFreeWord).busy = s.busy := rfl

@[simp] theorem replyFreeByte_params : (s.replyFreeByte).params = s.params := rfl
@[simp] theorem replyFreeByte_w : (s.replyFreeByte).w = s.w := rfl
@[simp] theorem replyFreeByte_tag : (s.replyFreeByte).tag = s.tag := rfl
@[simp] theorem replyFreeByte_nres : (s.replyFreeByte).nres = s.nres := rfl
@[simp] theorem replyFreeByte_err : (s.replyFreeByte).err = s.err := rfl
@[simp] theorem replyFreeByte_eop : (s.replyFreeByte).eop = s.eop := rfl
@[simp] theorem replyFreeByte_einfo : (s.replyFreeByte).einfo = s.einfo := rfl
@[simp] theorem replyFreeByte_text : (s.replyFreeByte).text = s.text := rfl
@[simp] theorem replyFreeByte_inFlight : (s.replyFreeByte).inFlight = s.inFlight := rfl
@[simp] theorem replyFreeByte_host : (s.replyFreeByte).host = s.host := rfl
@[simp] theorem replyFreeByte_replies : (s.replyFreeByte).replies = s.replies ++ [.byte (Config.busyByte s.draws)] := rfl
@[simp] theorem replyFreeByte_textDraw : (s.replyFreeByte).textDraw = s.textDraw := rfl
@[simp] theorem replyFreeByte_draws : (s.replyFreeByte).draws = s.draws + 1 := rfl
@[simp] theorem replyFreeByte_wide : (s.replyFreeByte).wide x = s.wide x := rfl
@[simp] theorem replyFreeByte_tagOf : (s.replyFreeByte).tagOf x = s.tagOf x := rfl
@[simp] theorem replyFreeByte_textAt (a : Nat) : (s.replyFreeByte).textAt a = s.textAt a := rfl
@[simp] theorem replyFreeByte_busy : (s.replyFreeByte).busy = s.busy := rfl

end Sys2Proof.Machine
end

