-- ==== Sys2Proof/Laws/Memory.lean ====
section
/-! SUPPORT. The laws of the text buffer: read after write, and that every operation keeps the canonical form. -/

namespace Sys2Proof.Machine

namespace Memory

@[simp] theorem lookup_write_same (m : List Host.Cell) (x : Nat) (b : Byte) : lookup (write m x b) x = some b := by
  induction m with
  | nil => simp [write, lookup]
  | cons c rest ih =>
    obtain ⟨a, v⟩ := c
    by_cases h1 : x < a
    · simp [write, lookup, h1]
    · by_cases h2 : x = a <;> simp [write, lookup, h1, h2, ih]

theorem lookup_write_other (m : List Host.Cell) (x y : Nat) (b : Byte) (h : y ≠ x) :
    lookup (write m x b) y = lookup m y := by
  induction m with
  | nil => simp [write, lookup, h]
  | cons c rest ih =>
    obtain ⟨a, v⟩ := c
    by_cases h1 : x < a
    · simp [write, lookup, h1, h]
    · by_cases h2 : x = a
      · subst h2; simp [write, lookup, h]
      · simp [write, lookup, h1, h2, ih]

/-- A write lists the written address, and every other entry was there before. -/
theorem mem_write {m : List Host.Cell} {x : Nat} {b : Byte} {c : Host.Cell} (h : c ∈ write m x b) :
    c = (x, b) ∨ c ∈ m := by
  induction m with
  | nil => exact .inl (by simpa [write] using h)
  | cons d rest ih =>
    obtain ⟨a, v⟩ := d
    unfold write at h
    split at h
    · rcases List.mem_cons.1 h with h | h
      · exact .inl h
      · exact .inr h
    · split at h
      · rcases List.mem_cons.1 h with h | h
        · exact .inl h
        · exact .inr (List.mem_cons_of_mem _ h)
      · rcases List.mem_cons.1 h with h | h
        · exact .inr (h ▸ List.mem_cons_self ..)
        · exact (ih h).imp id (List.mem_cons_of_mem _)

theorem wf_tail {c : Host.Cell} {m : List Host.Cell} (h : wf (c :: m) = true) : wf m = true := by
  cases m with
  | nil => rfl
  | cons d rest =>
    obtain ⟨a, v⟩ := c
    obtain ⟨b, u⟩ := d
    simp only [wf, Bool.and_eq_true] at h
    exact h.2

/-- Canonical form of a list with a first entry: the rest is canonical and its addresses are higher. -/
theorem wf_cons_iff (a : Nat) (v : Byte) (m : List Host.Cell) :
    wf ((a, v) :: m) = true ↔ wf m = true ∧ ∀ c ∈ m, a < c.1 := by
  induction m generalizing a v with
  | nil => simp [wf]
  | cons d rest ih =>
    obtain ⟨b, u⟩ := d
    have hb := ih b u
    simp only [wf, Bool.and_eq_true, decide_eq_true_eq]
    constructor
    · rintro ⟨hlt, hw⟩
      refine ⟨hw, fun c hc => ?_⟩
      rcases List.mem_cons.1 hc with rfl | hc
      · exact hlt
      · exact Nat.lt_trans hlt ((hb.1 hw).2 c hc)
    · rintro ⟨hw, hall⟩
      exact ⟨hall (b, u) (List.mem_cons_self ..), hw⟩

/-- A write keeps the canonical form. -/
theorem wf_write {m : List Host.Cell} (x : Nat) (b : Byte) (h : wf m = true) : wf (write m x b) = true := by
  induction m with
  | nil => rfl
  | cons d rest ih =>
    obtain ⟨a, v⟩ := d
    have hd := (wf_cons_iff a v rest).1 h
    unfold write
    split
    · next hlt =>
      refine (wf_cons_iff x b _).2 ⟨h, fun c hc => ?_⟩
      rcases List.mem_cons.1 hc with rfl | hc
      · exact hlt
      · exact Nat.lt_trans hlt (hd.2 c hc)
    · split
      · next _ heq => exact (wf_cons_iff x b rest).2 ⟨hd.1, heq ▸ hd.2⟩
      · next h1 h2 =>
        refine (wf_cons_iff a v _).2 ⟨ih hd.1, fun c hc => ?_⟩
        rcases mem_write hc with rfl | hc
        · exact Nat.lt_of_le_of_ne (Nat.le_of_not_lt h1) (Ne.symm h2)
        · exact hd.2 c hc

theorem wf_writeAll {m : List Host.Cell} (x : Nat) (bs : List Byte) (h : wf m = true) :
    wf (writeAll m x bs) = true := by
  induction bs generalizing m x with
  | nil => exact h
  | cons b bs ih => exact ih (x + 1) (wf_write x b h)

/-- Every entry after the writes was there before or lies in the written range. -/
theorem mem_writeAll {m : List Host.Cell} {x : Nat} {bs : List Byte} {c : Host.Cell} (h : c ∈ writeAll m x bs) :
    c ∈ m ∨ (x ≤ c.1 ∧ c.1 < x + bs.length) := by
  induction bs generalizing m x with
  | nil => exact .inl h
  | cons b bs ih =>
    rcases ih h with h | h
    · rcases mem_write h with rfl | h
      · exact .inr (by simp)
      · exact .inl h
    · exact .inr (by simp only [List.length_cons]; omega)

/-- Writes leave every address outside their range alone. -/
theorem lookup_writeAll_outside (m : List Host.Cell) (x y : Nat) (bs : List Byte) (h : y < x ∨ x + bs.length ≤ y) :
    lookup (writeAll m x bs) y = lookup m y := by
  induction bs generalizing m x with
  | nil => rfl
  | cons b bs ih =>
    simp only [List.length_cons] at h
    rw [writeAll, ih _ _ (by omega), lookup_write_other _ _ _ _ (by omega)]

/-- Inside the range, the byte written there. -/
theorem lookup_writeAll_inside (m : List Host.Cell) (x i : Nat) (bs : List Byte) (h : i < bs.length) :
    lookup (writeAll m x bs) (x + i) = some bs[i] := by
  induction bs generalizing m x i with
  | nil => simp at h
  | cons b bs ih =>
    cases i with
    | zero => simp [writeAll, lookup_writeAll_outside]
    | succ i =>
      have := ih (write m x b) (x + 1) i (by simpa using h)
      simpa [writeAll, Nat.add_assoc, Nat.add_comm 1 i] using this

end Memory

theorem writeText_textAt_outside (s : State) (base : Nat) (bytes : List Byte) (a : Nat)
    (h : a < base ∨ base + bytes.length ≤ a) : (s.writeText base bytes).textAt a = s.textAt a := by
  simp [State.textAt, Memory.lookup_writeAll_outside _ _ _ _ h]

theorem writeText_textAt_inside (s : State) (base : Nat) (bytes : List Byte) (i : Nat) (h : i < bytes.length) :
    (s.writeText base bytes).textAt (base + i) = bytes[i] := by
  simp [State.textAt, Memory.lookup_writeAll_inside _ _ _ _ h]

end Sys2Proof.Machine
end

