-- ==== Sys2Proof/Laws/Ops.lean ====
section
/-! SUPPORT. What the shared operations of the commands can do, said once: the operand-width check, and the three ends of
a command (discarded, its effect, its error). -/

namespace Sys2Proof.Machine

/-- Everything the operand-width check can do (R22). -/
theorem reading_cases (s : State) (wc : Nibble) (r : Reg) (k : Nat → Except UnitError State) :
    (s.tagOf r = wc ∧ reading s wc r k = k (s.wide r)) ∨
      (s.tagOf r ≠ wc ∧ reading s wc r k = .error (.operandType r (s.tagOf r) wc)) := by
  unfold reading
  split
  · next h => exact .inl ⟨h, rfl⟩
  · next h => exact .inr ⟨h, rfl⟩

theorem reading_ok {s : State} {wc : Nibble} {r : Reg} (k : Nat → Except UnitError State) (h : s.tagOf r = wc) :
    reading s wc r k = k (s.wide r) := by simp [reading, h]

theorem reading_error {s : State} {wc : Nibble} {r : Reg} (k : Nat → Except UnitError State) (h : s.tagOf r ≠ wc) :
    reading s wc r k = .error (.operandType r (s.tagOf r) wc) := by simp [reading, h]

/-- A command answers a next state, and there are three ways it can end (R189, R192). -/
theorem command_cases (o : Opcode) (body : State → Except UnitError State) (s : State) :
    (s.err ≠ .none ∧ command o body s = .next s) ∨
      (s.err = .none ∧ ∃ t, body s = .ok t ∧ command o body s = .next t) ∨
      (s.err = .none ∧ ∃ e, body s = .error e ∧ command o body s = .next (s.raise o.toByte e)) := by
  unfold command
  by_cases h : s.err = .none
  · cases hb : body s with
    | ok t => exact .inr (.inl ⟨h, t, rfl, by simp [h]⟩)
    | error e => exact .inr (.inr ⟨h, e, rfl, by simp [h]⟩)
  · exact .inl ⟨h, by simp [h]⟩

theorem command_pending {o : Opcode} {body : State → Except UnitError State} {s : State} (h : s.err ≠ .none) :
    command o body s = .next s := by simp [command, h]

theorem command_ok {o : Opcode} {body : State → Except UnitError State} {s t : State} (h : s.err = .none)
    (hb : body s = .ok t) : command o body s = .next t := by simp [command, h, hb]

theorem command_error {o : Opcode} {body : State → Except UnitError State} {s : State} {e : UnitError}
    (h : s.err = .none) (hb : body s = .error e) : command o body s = .next (s.raise o.toByte e) := by
  simp [command, h, hb]

variable {o : Opcode} {rd rs1 rs2 : Reg} {wc : Nibble} {s : State}

/-- A one-source command whose source has the right width. -/
theorem unary_ok {f : Nat → Nat} (h : s.err = .none) (h1 : s.tagOf rs1 = wc) :
    unary o rd rs1 wc f s = .next (s.setWide rd wc (f (s.wide rs1))) :=
  command_ok h (by simp [reading, h1])

/-- A two-source command whose sources have the right width. -/
theorem binary_ok {f : Nat → Nat → Nat} (h : s.err = .none) (h1 : s.tagOf rs1 = wc) (h2 : s.tagOf rs2 = wc) :
    binary o rd rs1 rs2 wc f s = .next (s.setWide rd wc (f (s.wide rs1) (s.wide rs2))) :=
  command_ok h (by simp [reading, h1, h2])

/-- A one-source command that answers in NRES. -/
theorem unaryNative_ok {f : Nat → Nat} (h : s.err = .none) (h1 : s.tagOf rs1 = wc) :
    unaryNative o rs1 wc f s = .next (s.setNative (f (s.wide rs1))) :=
  command_ok h (by simp [reading, h1])

/-- A relation of two sources of the right width. -/
theorem relation_ok {p : Nat → Nat → Bool} (h : s.err = .none) (h1 : s.tagOf rs1 = wc) (h2 : s.tagOf rs2 = wc) :
    relation o rs1 rs2 wc p s = .next (s.setNative (p (s.wide rs1) (s.wide rs2)).toNat) :=
  command_ok h (by simp [reading, h1, h2])

/-- A division by a non-zero divisor. -/
theorem dividing_ok {f : Nat → Nat → Nat} (h : s.err = .none) (h1 : s.tagOf rs1 = wc) (h2 : s.tagOf rs2 = wc)
    (h0 : s.wide rs2 ≠ 0) :
    dividing o rd rs1 rs2 wc f s = .next (s.setWide rd wc (f (s.wide rs1) (s.wide rs2))) :=
  command_ok h (by simp [reading, h1, h2, h0])

/-- A division by zero (R187). -/
theorem dividing_zero {f : Nat → Nat → Nat} (h : s.err = .none) (h1 : s.tagOf rs1 = wc) (h2 : s.tagOf rs2 = wc)
    (h0 : s.wide rs2 = 0) :
    dividing o rd rs1 rs2 wc f s = .next (s.raise o.toByte (.divisionByZero rs2)) :=
  command_error h (by simp [reading, h1, h2, h0])

end Sys2Proof.Machine
end

