-- ==== Sys2Proof/Laws/Exec.lean ====
section
/-! SUPPORT. What a command can do, said once for all thirty: it answers a next state, which is one of six. Every invariant
and frame of `exec` follows from this list. -/

namespace Sys2Proof.Machine

/-! ### Values below their modulus -/

theorem modulus_pos (wc : Nibble) : 0 < modulus wc := Nat.two_pow_pos _

theorem widthOf_ge (wc : Nibble) : 128 ≤ widthOf wc := Nat.le_mul_of_pos_right _ (Nat.two_pow_pos _)

theorem nativeWidth_le (nt : NativeType) : nativeWidth nt ≤ 64 := by cases nt <;> decide

theorem signExtend_lt {n m v : Nat} (hm : m ≤ n) (hv : v < 2 ^ m) : signExtend n m v < 2 ^ n := by
  have := Nat.pow_le_pow_right (n := 2) (by omega) hm
  unfold signExtend
  split <;> omega

theorem nativeValue_lt {nt : NativeType} {n x : Nat} (hn : 64 ≤ n) (hx : x < 2 ^ nativeWidth nt) :
    nativeValue nt n x < 2 ^ n := by
  have hw := nativeWidth_le nt
  have := Nat.pow_le_pow_right (n := 2) (by omega) (Nat.le_trans hw hn)
  unfold nativeValue
  split
  · exact signExtend_lt (Nat.le_trans hw hn) hx
  · omega

theorem int_emod_toNat_lt (x : Int) (wc : Nibble) : (x % (modulus wc : Int)).toNat < modulus wc := by
  have h1 : (0 : Int) < modulus wc := Int.natCast_pos.2 (modulus_pos wc)
  have h2 := Int.emod_lt_of_pos x h1
  have h3 := Int.emod_nonneg x (Int.ne_of_gt h1)
  omega

theorem parseBounded_lt {text : Nat → Byte} {m n a acc v : Nat} (hm : 0 < m) (hacc : acc < m)
    (h : parseBounded text m n a acc = .ok v) : v < m := by
  induction n generalizing a acc with
  | zero => simp only [parseBounded, Except.ok.injEq] at h; omega
  | succ n ih =>
    simp only [parseBounded] at h
    split at h
    · exact ih (Nat.mod_lt _ hm) h
    · cases h

theorem parseTerminated_lt {text : Nat → Byte} {m : Nat} {base : BitVec 32} {left a acc v : Nat} (hm : 0 < m)
    (hacc : acc < m) (h : parseTerminated text m base left a acc = .ok v) : v < m := by
  induction left generalizing a acc with
  | zero => cases h
  | succ left ih =>
    simp only [parseTerminated] at h
    split at h
    · simp only [Except.ok.injEq] at h; omega
    · split at h
      · exact ih (Nat.mod_lt _ hm) h
      · cases h

/-! ### The ends of a command -/

/-- The wide write of command `i`: its destination and width, its sources readable, and a value below its modulus whenever
theirs are. -/
def WideEnd (i : Instr) (s : State) (rd : Reg) (wc : Nibble) (v : Nat) : Prop :=
  destOf i = some rd ∧ i.widthCode = some wc ∧ (∀ p ∈ sourcesOf i, s.tagOf p.1 = p.2) ∧
    ((∀ p ∈ sourcesOf i, s.wide p.1 < modulus p.2) → v < modulus wc)

/-- What a command other than CLRERR can do when no error is pending: an error, a wide write, a native result, or the text
and count of FMT. -/
inductive Ends (i : Instr) (s : State) : State → Prop where
  | error (e : UnitError) : Ends i s (s.raise i.opcode.toByte e)
  | wide (rd : Reg) (wc : Nibble) (v : Nat) (h : WideEnd i s rd wc v) : Ends i s (s.setWide rd wc v)
  | native (v : Nat) (h : writesNative i.opcode = true) (hd : destOf i = none) (hf : i.opcode ≠ .fmt) :
    Ends i s (s.setNative v)
  | text (rs1 : Reg) (wc : Nibble) (base : BitVec 32) (hi : i = .fmt rs1 wc base) (ht : s.tagOf rs1 = wc)
    (hb : base.toNat + (formatDecimal (s.wide rs1)).length ≤ s.params.textBytes) :
    Ends i s ((s.writeText base.toNat (formatDecimal (s.wide rs1))).setNative (formatDecimal (s.wide rs1)).length)

/-- A command built by `command` ends as its body does. -/
theorem command_ends {i : Instr} {o : Opcode} {body : State → Except UnitError State} {s : State} (ho : i.opcode = o)
    (he : s.err = .none) (hb : ∀ t, body s = .ok t → Ends i s t) : ∃ t, command o body s = .next t ∧ Ends i s t := by
  rcases command_cases o body s with ⟨h, _⟩ | ⟨_, t, ht, h⟩ | ⟨_, e, _, h⟩
  · exact absurd he h
  · exact ⟨t, h, hb t ht⟩
  · exact ⟨_, h, ho ▸ .error e⟩

/-- A check that let a command go on found the tag it needs. -/
theorem reading_eq_ok {s t : State} {wc : Nibble} {r : Reg} {k : Nat → Except UnitError State}
    (h : reading s wc r k = .ok t) : s.tagOf r = wc ∧ k (s.wide r) = .ok t := by
  rcases reading_cases s wc r k with ⟨h1, h2⟩ | ⟨_, h2⟩
  · exact ⟨h1, h2 ▸ h⟩
  · rw [h2] at h; cases h

variable {i : Instr} {o : Opcode} {rd rs1 rs2 : Reg} {wc : Nibble} {s : State}

theorem unary_ends {f : Nat → Nat} (ho : i.opcode = o) (he : s.err = .none) (hd : destOf i = some rd)
    (hw : i.widthCode = some wc) (hs : sourcesOf i = [(rs1, wc)]) (hf : ∀ a, a < modulus wc → f a < modulus wc) :
    ∃ t, unary o rd rs1 wc f s = .next t ∧ Ends i s t := by
  refine command_ends ho he fun t ht => ?_
  obtain ⟨h1, ht⟩ := reading_eq_ok ht
  cases ht
  exact .wide rd wc _ ⟨hd, hw, by simp [hs, h1], fun h => hf _ (h (rs1, wc) (by simp [hs]))⟩

theorem binary_ends {f : Nat → Nat → Nat} (ho : i.opcode = o) (he : s.err = .none) (hd : destOf i = some rd)
    (hw : i.widthCode = some wc) (hs : sourcesOf i = [(rs1, wc), (rs2, wc)])
    (hf : ∀ a b, a < modulus wc → b < modulus wc → f a b < modulus wc) :
    ∃ t, binary o rd rs1 rs2 wc f s = .next t ∧ Ends i s t := by
  refine command_ends ho he fun t ht => ?_
  obtain ⟨h1, ht⟩ := reading_eq_ok ht
  obtain ⟨h2, ht⟩ := reading_eq_ok ht
  cases ht
  exact .wide rd wc _ ⟨hd, hw, by simp [hs, h1, h2],
    fun h => hf _ _ (h (rs1, wc) (by simp [hs])) (h (rs2, wc) (by simp [hs]))⟩

theorem dividing_ends {f : Nat → Nat → Nat} (ho : i.opcode = o) (he : s.err = .none) (hd : destOf i = some rd)
    (hw : i.widthCode = some wc) (hs : sourcesOf i = [(rs1, wc), (rs2, wc)])
    (hf : ∀ a b, a < modulus wc → f a b < modulus wc) :
    ∃ t, dividing o rd rs1 rs2 wc f s = .next t ∧ Ends i s t := by
  refine command_ends ho he fun t ht => ?_
  obtain ⟨h1, ht⟩ := reading_eq_ok ht
  obtain ⟨h2, ht⟩ := reading_eq_ok ht
  split at ht
  · cases ht
  · cases ht
    exact .wide rd wc _ ⟨hd, hw, by simp [hs, h1, h2], fun h => hf _ _ (h (rs1, wc) (by simp [hs]))⟩

theorem unaryNative_ends {f : Nat → Nat} (ho : i.opcode = o) (he : s.err = .none) (hn : writesNative i.opcode = true)
    (hd : destOf i = none) (hf : i.opcode ≠ .fmt) : ∃ t, unaryNative o rs1 wc f s = .next t ∧ Ends i s t := by
  refine command_ends ho he fun t ht => ?_
  obtain ⟨_, ht⟩ := reading_eq_ok ht
  cases ht
  exact .native _ hn hd hf

theorem relation_ends {p : Nat → Nat → Bool} (ho : i.opcode = o) (he : s.err = .none)
    (hn : writesNative i.opcode = true) (hd : destOf i = none) (hf : i.opcode ≠ .fmt) :
    ∃ t, relation o rs1 rs2 wc p s = .next t ∧ Ends i s t := by
  refine command_ends ho he fun t ht => ?_
  obtain ⟨_, ht⟩ := reading_eq_ok ht
  obtain ⟨_, ht⟩ := reading_eq_ok ht
  cases ht
  exact .native _ hn hd hf

/-- What every command other than CLRERR does when no error is pending. -/
theorem exec_ends (i : Instr) (s : State) (hc : i ≠ .clrerr) (he : s.err = .none) :
    ∃ t, exec i s = .next t ∧ Ends i s t := by
  cases i with
  | clr rd wc =>
    simp only [exec, execClr]
    refine command_ends rfl he fun t ht => ?_
    cases ht
    exact .wide rd wc 0 ⟨rfl, rfl, by simp [sourcesOf], fun _ => modulus_pos wc⟩
  | mov rd rs1 wc => exact unary_ends rfl he rfl rfl rfl fun _ h => h
  | ldn rd wc nt arg =>
    simp only [exec, execLdn]
    refine command_ends rfl he fun t ht => ?_
    cases ht
    exact .wide rd wc _ ⟨rfl, rfl, by simp [sourcesOf], fun _ =>
      nativeValue_lt (Nat.le_trans (by omega) (widthOf_ge wc)) (Nat.mod_lt _ (Nat.two_pow_pos _))⟩
  | resize rd rs1 wc swc =>
    simp only [exec, execResize]
    refine command_ends rfl he fun t ht => ?_
    obtain ⟨h1, ht⟩ := reading_eq_ok ht
    cases ht
    exact .wide rd wc _ ⟨rfl, rfl, by simp [sourcesOf, h1], fun _ => Nat.mod_lt _ (modulus_pos wc)⟩
  | tonat rs1 wc nt => exact unaryNative_ends rfl he rfl rfl nofun
  | add rd rs1 rs2 wc => exact binary_ends rfl he rfl rfl rfl fun _ _ _ _ => Nat.mod_lt _ (modulus_pos wc)
  | sub rd rs1 rs2 wc => exact binary_ends rfl he rfl rfl rfl fun _ _ _ _ => int_emod_toNat_lt _ wc
  | neg rd rs1 wc => exact unary_ends rfl he rfl rfl rfl fun _ _ => Nat.mod_lt _ (modulus_pos wc)
  | inc rd rs1 wc => exact unary_ends rfl he rfl rfl rfl fun _ _ => Nat.mod_lt _ (modulus_pos wc)
  | dec rd rs1 wc => exact unary_ends rfl he rfl rfl rfl fun _ _ => int_emod_toNat_lt _ wc
  | mul rd rs1 rs2 wc => exact binary_ends rfl he rfl rfl rfl fun _ _ _ _ => Nat.mod_lt _ (modulus_pos wc)
  | div rd rs1 rs2 wc =>
    exact dividing_ends rfl he rfl rfl rfl fun a b h => Nat.lt_of_le_of_lt (Nat.div_le_self a b) h
  | mod rd rs1 rs2 wc =>
    exact dividing_ends rfl he rfl rfl rfl fun a b h => Nat.lt_of_le_of_lt (Nat.mod_le a b) h
  | shl rd rs1 wc amount =>
    exact unary_ends rfl he rfl rfl rfl fun a _ => by
      split
      · exact modulus_pos wc
      · exact Nat.mod_lt _ (modulus_pos wc)
  | shr rd rs1 wc amount =>
    exact unary_ends rfl he rfl rfl rfl fun a h => by
      split
      · exact modulus_pos wc
      · exact Nat.lt_of_le_of_lt (Nat.div_le_self a _) h
  | not rd rs1 wc =>
    exact unary_ends rfl he rfl rfl rfl fun a _ => by
      have := modulus_pos wc
      omega
  | and rd rs1 rs2 wc => exact binary_ends rfl he rfl rfl rfl fun a _ h _ => Nat.lt_of_le_of_lt Nat.and_le_left h
  | or rd rs1 rs2 wc => exact binary_ends rfl he rfl rfl rfl fun _ _ h1 h2 => Nat.or_lt_two_pow h1 h2
  | xor rd rs1 rs2 wc => exact binary_ends rfl he rfl rfl rfl fun _ _ h1 h2 => Nat.xor_lt_two_pow h1 h2
  | test rs1 wc => exact unaryNative_ends rfl he rfl rfl nofun
  | eq rs1 rs2 wc => exact relation_ends rfl he rfl rfl nofun
  | ne rs1 rs2 wc => exact relation_ends rfl he rfl rfl nofun
  | lt rs1 rs2 wc => exact relation_ends rfl he rfl rfl nofun
  | le rs1 rs2 wc => exact relation_ends rfl he rfl rfl nofun
  | gt rs1 rs2 wc => exact relation_ends rfl he rfl rfl nofun
  | ge rs1 rs2 wc => exact relation_ends rfl he rfl rfl nofun
  | parse rd wc base length =>
    simp only [exec, execParse]
    refine command_ends rfl he fun t ht => ?_
    split at ht
    · cases ht
    · split at ht
      · next v hv =>
        cases ht
        exact .wide rd wc v ⟨rfl, rfl, by simp [sourcesOf], fun _ =>
          parseBounded_lt (modulus_pos wc) (modulus_pos wc) hv⟩
      · cases ht
  | parsez rd wc base =>
    simp only [exec, execParsez]
    refine command_ends rfl he fun t ht => ?_
    split at ht
    · next v hv =>
      cases ht
      exact .wide rd wc v ⟨rfl, rfl, by simp [sourcesOf], fun _ =>
        parseTerminated_lt (modulus_pos wc) (modulus_pos wc) hv⟩
    · cases ht
  | fmt rs1 wc base =>
    simp only [exec, execFmt]
    refine command_ends rfl he fun t ht => ?_
    obtain ⟨h1, ht⟩ := reading_eq_ok ht
    split at ht
    · cases ht
    · next hb =>
      cases ht
      exact .text rs1 wc base rfl h1 (by omega)
  | clrerr => exact absurd rfl hc

/-- While an error is pending, every command but CLRERR is discarded (R192). -/
theorem exec_pending (i : Instr) (s : State) (hc : i ≠ .clrerr) (he : s.err ≠ .none) : exec i s = .next s := by
  cases i <;> first | exact absurd rfl hc | simp [exec, execClr, execMov, execLdn, execResize, execTonat, execAdd,
    execSub, execNeg, execInc, execDec, execMul, execDiv, execMod, execShl, execShr, execNot, execAnd, execOr,
    execXor, execTest, execEq, execNe, execLt, execLe, execGt, execGe, execParse, execParsez, execFmt, unary,
    binary, unaryNative, relation, dividing, command, he]

/-- The three ways a command can go. -/
theorem exec_cases (i : Instr) (s : State) :
    (i = .clrerr ∧ exec i s = .next s.clearError) ∨ (i ≠ .clrerr ∧ s.err ≠ .none ∧ exec i s = .next s) ∨
      (i ≠ .clrerr ∧ s.err = .none ∧ ∃ t, exec i s = .next t ∧ Ends i s t) := by
  by_cases hc : i = .clrerr
  · exact .inl ⟨hc, by subst hc; rfl⟩
  · by_cases he : s.err = .none
    · exact .inr (.inr ⟨hc, he, exec_ends i s hc he⟩)
    · exact .inr (.inl ⟨hc, he, exec_pending i s hc he⟩)

end Sys2Proof.Machine
end

