-- ==== Sys2Proof/Laws/Step.lean ====
section
/-! SUPPORT. What a step can do, said once: the completion of the command in flight, one operation of the host, or
nothing. -/

namespace Sys2Proof.Machine

variable (s : State)

/-- Everything a step can do. -/
theorem step_cases :
    (∃ f, s.inFlight = some f ∧ unitActs f s = true ∧ step s = complete f.cmd s) ∨
      ((∀ f, s.inFlight = some f → unitActs f s = false) ∧
        ((s.host = [] ∧ step s = .next s) ∨
          ∃ op rest, s.host = op :: rest ∧ step s = .next ((s.takeOp rest).perform op))) := by
  cases hf : s.inFlight with
  | some f =>
    cases hu : unitActs f s with
    | true => exact .inl ⟨f, rfl, hu, by simp [step, hf, hu]⟩
    | false =>
      refine .inr ⟨fun g hg => by cases hg; exact hu, ?_⟩
      cases hh : s.host with
      | nil => exact .inl ⟨rfl, by simp [step, hf, hu, hostActs, hh]⟩
      | cons op rest => exact .inr ⟨op, rest, rfl, by simp [step, hf, hu, hostActs, hh]⟩
  | none =>
    refine .inr ⟨nofun, ?_⟩
    cases hh : s.host with
    | nil => exact .inl ⟨rfl, by simp [step, hf, hostActs, hh]⟩
    | cons op rest => exact .inr ⟨op, rest, rfl, by simp [step, hf, hostActs, hh]⟩

/-- Everything the completion of a command can do (R70, R191). -/
theorem complete_cases (c : Command) :
    (∃ i, decode s.params.k c = .ok i ∧ complete c s = exec i s.retire) ∨
      (∃ e, decode s.params.k c = .error e ∧
        ((s.err = .none ∧
            complete c s = .next (s.retire.raise (c.word.extractLsb' 0 8) (.illegalCommand c.word))) ∨
          (s.err ≠ .none ∧ complete c s = .next s.retire))) := by
  cases hd : decode s.params.k c with
  | ok i => exact .inl ⟨i, rfl, by simp [complete, hd]⟩
  | error e =>
    refine .inr ⟨e, rfl, ?_⟩
    by_cases he : s.err = .none
    · exact .inl ⟨he, by simp [complete, hd, rejectWord, he]⟩
    · exact .inr ⟨he, by simp [complete, hd, rejectWord, he]⟩

end Sys2Proof.Machine
end

