-- ==== Sys2Proof/Laws/HostLayer.lean ====
section
/-! SUPPORT. What the host layer does to the end of a command: it polls STATUS while BUSY = 1, and acts on the state the
completed command left (60_exceptions.md R205, R206). -/

namespace Sys2Proof.Machine.HostLayer

/-! ### The fields of STATUS, as the host reads them -/

@[simp] theorem busyBit_status (s : State) : busyBit s.status = s.busy := by
  cases h : s.busy <;> simp [busyBit, State.status, h]

@[simp] theorem errField_status (s : State) : errField s.status = s.err.toBits := by
  have h : ∀ (a : BitVec 8) (e : Nibble) (b : Bool),
      (a.setWidth 64 <<< 16 ||| e.setWidth 64 <<< 8 ||| (BitVec.ofBool b).setWidth 64).extractLsb' 8 4 = e := by
    intro a e b
    ext i hi
    have h1 : 8 + i < 16 := by omega
    have h2 : 8 + i < 64 := by omega
    cases b <;> simp [h1, h2, BitVec.getLsbD_eq_getElem, hi]
  exact h s.eop s.err.toBits s.busy

/-- The code of STATUS.ERR tells the errors apart (R185). -/
theorem toBits_eq_iff (e e' : ErrCode) : e.toBits = e'.toBits ↔ e = e' := by cases e <;> cases e' <;> decide

/-! ### One reaction -/

/-- A phase that waits for BUSY = 0. -/
def Session.Waiting (x : Session) : Prop := x.phase = .ready ∨ x.phase = .extracting ∨ x.phase = .inserting

/-- A waiting session that reads STATUS polls again while BUSY = 1, and else acts on ERR. -/
theorem react_status {x : Session} (h : x.Waiting) (s : State) :
    x.react (.word s.status) = if s.busy then (x, [poll]) else x.onIdle s.err.toBits := by
  rcases h with h | h | h <;> simp [Session.react, Session.onStatus, h]

/-- R205 step 4: a PARSE that ended in InvalidFormat marks the stream as failed and is cleared; any other end marks
nothing. -/
theorem onIdle_extracting {x : Session} (h : x.phase = .extracting) (e : ErrCode) :
    x.onIdle e.toBits =
      if e = .invalidFormat then
        ({ x with phase := .done, stream := { x.stream with failed := true } }, [.issue (encode .clrerr)])
      else ({ x with phase := .done }, []) := by
  simp [Session.onIdle, h, toBits_eq_iff]

/-- NRES is read only after an FMT that left no error. -/
theorem onIdle_inserting {x : Session} (h : x.phase = .inserting) (e : ErrCode) :
    x.onIdle e.toBits =
      if e = .none then ({ x with phase := .counting }, [.read .nres]) else ({ x with phase := .done }, []) := by
  have h0 : e.toBits = 0#4 ↔ e = .none := toBits_eq_iff e .none
  simp [Session.onIdle, h, h0]

/-- A stream marked as failed is read no further (R205 step 4). -/
theorem start_failed (rd : Reg) (wc : Nibble) (base : BitVec 32) {z : Stream} (h : z.failed = true) :
    Session.start (.extract rd wc base) z = (⟨.extract rd wc base, .done, z⟩, []) := by
  simp [Session.start, h]

/-- While BUSY = 1, a session reads STATUS and nothing else (R206). -/
theorem react_busy_only_polls {x : Session} (h : x.Waiting) {s : State} (hb : s.busy = true) :
    ∀ op ∈ (x.react (.word s.status)).2, op = poll := by
  simp [react_status h, hb]

/-! ### Events -/

/-- With every value seen, the unit and its port make a step. -/
theorem advance_step {y : System} {t : State} (hs : y.seen = y.unit.replies.length) (h : step y.unit = .next t) :
    y.advance = { y with unit := t } := by
  simp [System.advance, hs, h]

/-- With a value not yet seen, the host reacts to it. -/
theorem advance_react {y : System} {r : Reply} (h : y.unit.replies[y.seen]? = some r) :
    y.advance =
      { unit := { y.unit with host := y.unit.host ++ (y.session.react r).2 }
        session := (y.session.react r).1
        seen := y.seen + 1 } := by
  simp [System.advance, h]

/-- What the completion of a command leaves of the port: BUSY falls, and the host's side is as before. -/
theorem complete_port (c : Command) (s : State) :
    ∃ t, complete c s = .next t ∧ t.inFlight = none ∧ t.host = s.host ∧ t.replies = s.replies := by
  rcases complete_cases s c with ⟨i, _, h⟩ | ⟨e, _, ⟨_, h⟩ | ⟨_, h⟩⟩
  · rcases exec_cases i s.retire with ⟨_, h2⟩ | ⟨_, _, h2⟩ | ⟨_, _, u, h2, hu⟩
    · exact ⟨_, h.trans h2, rfl, rfl, rfl⟩
    · exact ⟨_, h.trans h2, rfl, rfl, rfl⟩
    · exact ⟨u, h.trans h2, by cases hu <;> simp⟩
  · exact ⟨_, h, rfl, rfl, rfl⟩
  · exact ⟨_, h, rfl, rfl, rfl⟩

/-- A port operation returns a value if and only if it is a read, and returns one. -/
theorem perform_replies_length (s : State) (op : HostOp) :
    (s.perform op).replies.length = s.replies.length + valuesToCome [op] := by
  cases op with
  | issue c => rfl
  | read p => cases p <;> simp only [State.perform, State.read] <;> (try split) <;> simp [valuesToCome, returnsValue]
  | textRead a =>
    simp only [State.perform, State.textRead]
    split
    · simp [valuesToCome, returnsValue]
    · split <;> simp [valuesToCome, returnsValue]
  | textWrite a v =>
    simp only [State.perform, State.textWrite]
    split <;> rfl
  | reset => rfl

/-- No port operation changes what the host has still to do. -/
theorem perform_host (s : State) (op : HostOp) : (s.perform op).host = s.host := by
  cases op with
  | issue c => rfl
  | read p => cases p <;> simp only [State.perform, State.read] <;> (try split) <;> rfl
  | textRead a =>
    simp only [State.perform, State.textRead]
    split
    · rfl
    · split <;> rfl
  | textWrite a v =>
    simp only [State.perform, State.textWrite]
    split <;> rfl
  | reset => rfl

/-- Every step keeps the number of values returned and to come. -/
theorem step_keeps_values {s t : State} (h : step s = .next t) :
    t.replies.length + valuesToCome t.host = s.replies.length + valuesToCome s.host := by
  rcases step_cases s with ⟨f, _, _, h1⟩ | ⟨_, ⟨_, h1⟩ | ⟨op, rest, hh, h1⟩⟩
  · obtain ⟨u, hu, _, h2, h3⟩ := complete_port f.cmd s
    cases h.symm.trans (h1.trans hu)
    rw [h2, h3]
  · cases h.symm.trans h1
    rfl
  · cases h.symm.trans h1
    have hc : valuesToCome (op :: rest) = valuesToCome [op] + valuesToCome rest := by
      simp only [valuesToCome, List.countP_cons, List.countP_nil]
      omega
    rw [perform_replies_length, perform_host, hh, hc, takeOp_replies, takeOp_host]
    omega

/-- While the unit only makes steps, the first value a task that is `start`ed reacts to is that of its own poll: when the poll
is all that is left to do, every value before it is behind the session. -/
theorem start_sees_its_own_poll {s t : State} {task : Task} {z : Stream}
    (hx : Session.start task z = (⟨task, .ready, z⟩, [poll])) (n : Nat)
    (hr : Host.Core.run core n (System.start s task z).unit = .next t) (hh : t.host = [poll]) :
    (System.start s task z).seen = t.replies.length := by
  have key : ∀ (n : Nat) (u : State), Host.Core.run core n u = .next t →
      t.replies.length + valuesToCome t.host = u.replies.length + valuesToCome u.host := by
    intro n
    induction n with
    | zero =>
      intro u h
      cases h
      rfl
    | succ n ih =>
      intro u h
      have hs : core.step u = step u := rfl
      simp only [Host.Core.run, hs] at h
      cases hu : step u with
      | next v => rw [hu] at h; exact (ih v h).trans (step_keeps_values hu)
      | fault r => cases r
      | refused r => rw [hu] at h; cases h
  have h1 := key n _ hr
  have h2 : List.countP returnsValue [poll] = 1 := rfl
  simp only [System.start, hx, hh, valuesToCome, List.countP_append] at h1 ⊢
  omega

/-- The unit as a polling host finds it: only the values read, and how long the command still takes, have changed. -/
def polled (s : State) (f : InFlight) (replies : List Reply) (opsLeft : Nat) : State :=
  { s with inFlight := some { f with opsLeft := opsLeft }, replies := replies }

/-- A waiting session polls until the command in flight has completed, however long that takes, and then acts on the ERR
that the command left. -/
theorem polling_ends (n : Nat) (y : System) (f : InFlight) (hf : y.unit.inFlight = some f) (hn : f.opsLeft = n)
    (hh : y.unit.host = [poll]) (hs : y.seen = y.unit.replies.length) (hw : y.session.Waiting) :
    ∃ k r m t, complete f.cmd (polled y.unit f r m) = .next t ∧
      y.run k =
        { unit := { t with host := (y.session.onIdle t.err.toBits).2, replies := t.replies ++ [.word t.status] }
          session := (y.session.onIdle t.err.toBits).1
          seen := t.replies.length + 1 } := by
  induction n generalizing y f with
  | zero =>
    obtain ⟨t, ht, hi, hht, hr⟩ := complete_port f.cmd y.unit
    have hu : unitActs f y.unit = true := by simp [unitActs, hh, poll, hn]
    have h1 : step y.unit = .next t := by simp [step, hf, hu, ht]
    have hb : t.busy = false := by simp [State.busy, hi]
    have h2 : step t = .next { t with host := [], replies := t.replies ++ [.word t.status] } := by
      simp [step, hi, hostActs, hht, hh, poll, State.perform, State.read, State.reply, State.takeOp, State.status,
        State.busy]
    have hp : polled y.unit f y.unit.replies f.opsLeft = y.unit := by simp [polled, ← hf]
    refine ⟨3, y.unit.replies, f.opsLeft, t, by rw [hp]; exact ht, ?_⟩
    rw [System.run, advance_step hs h1, System.run, advance_step (by simp [hs, hr]) h2, System.run,
      advance_react (r := .word t.status) (by simp [hs, hr])]
    simp [System.run, react_status hw, hb, hs, hr]
  | succ n ih =>
    have hu : unitActs f y.unit = false := by simp [unitActs, hh, poll, hn]
    have hb : y.unit.busy = true := by simp [State.busy, hf]
    have h1 : step y.unit =
        .next { y.unit with
          host := []
          inFlight := some { f with opsLeft := n }
          replies := y.unit.replies ++ [.word y.unit.status] } := by
      simp [step, hf, hu, hostActs, hh, poll, State.perform, State.read, State.reply, State.takeOp, State.status,
        State.busy, hn]
    obtain ⟨k, r, m, t, ht, hk⟩ := ih
      { unit := { y.unit with
          host := [poll]
          inFlight := some { f with opsLeft := n }
          replies := y.unit.replies ++ [.word y.unit.status] }
        session := y.session
        seen := y.seen + 1 } { f with opsLeft := n } rfl rfl rfl (by simp [hs]) hw
    refine ⟨k + 2, r, m, t, ?_, ?_⟩
    · simpa [polled, hh] using ht
    · rw [System.run, advance_step hs h1, System.run, advance_react (r := .word y.unit.status) (by simp [hs])]
      simpa [react_status hw, hb] using hk

/-- R205 step 4, whatever the latency: once PARSE has completed, the stream is marked as failed and CLRERR issued exactly
when the error it left is InvalidFormat. -/
theorem extraction_ends (y : System) (f : InFlight) (hf : y.unit.inFlight = some f) (hh : y.unit.host = [poll])
    (hs : y.seen = y.unit.replies.length) (hp : y.session.phase = .extracting) :
    ∃ k r m t, complete f.cmd (polled y.unit f r m) = .next t ∧ (y.run k).session.phase = .done ∧
      (t.err = .invalidFormat →
        (y.run k).session.stream.failed = true ∧ (y.run k).unit.host = [.issue (encode .clrerr)]) ∧
      (t.err ≠ .invalidFormat → (y.run k).session.stream = y.session.stream ∧ (y.run k).unit.host = []) := by
  obtain ⟨k, r, m, t, ht, hk⟩ := polling_ends f.opsLeft y f hf rfl hh hs (.inr (.inl hp))
  refine ⟨k, r, m, t, ht, ?_⟩
  rw [hk, onIdle_extracting hp]
  by_cases he : t.err = .invalidFormat <;> simp [he]

/-- Stream insertion, whatever the latency: once FMT has completed, NRES is read exactly when no error is pending, and
BUSY is then 0. -/
theorem insertion_reads_nres (y : System) (f : InFlight) (hf : y.unit.inFlight = some f) (hh : y.unit.host = [poll])
    (hs : y.seen = y.unit.replies.length) (hp : y.session.phase = .inserting) :
    ∃ k r m t, complete f.cmd (polled y.unit f r m) = .next t ∧ (y.run k).unit.busy = false ∧
      (t.err = .none → (y.run k).session.phase = .counting ∧ (y.run k).unit.host = [.read .nres]) ∧
      (t.err ≠ .none → (y.run k).session.phase = .done ∧ (y.run k).unit.host = []) := by
  obtain ⟨k, r, m, t, ht, hk⟩ := polling_ends f.opsLeft y f hf rfl hh hs (.inr (.inr hp))
  obtain ⟨t', ht', hi, _⟩ := complete_port f.cmd (polled y.unit f r m)
  cases ht.symm.trans ht'
  refine ⟨k, r, m, t, ht, by simp [hk, State.busy, hi], ?_⟩
  rw [hk, onIdle_inserting hp]
  by_cases he : t.err = .none <;> simp [he]

/-! ### The bytes of a token and of a digit string -/

theorem placeToken_cons {a : Nat} (h : a < 2 ^ 32) (c : Byte) (token : List Byte) :
    placeToken a (c :: token) = .textWrite (BitVec.ofNat 32 a) c :: placeToken (a + 1) token := by
  rw [placeToken, if_pos h]

/-- R205 step 2: an idle unit whose TEXT has room for the token holds it once the host's writes have landed, and every other
byte is as before. -/
theorem placeToken_writes (token : List Byte) (rest : List HostOp) (a : Nat) (s : State) (hb : s.inFlight = none)
    (hh : s.host = placeToken a token ++ rest) (hr : a + token.length ≤ s.params.textBytes)
    (ht : s.params.textBytes ≤ 2 ^ 32) :
    ∃ t, Host.Core.run core token.length s = .next t ∧ t.host = rest ∧ t.inFlight = none ∧ t.params = s.params ∧
      t.replies = s.replies ∧ (∀ (i : Nat) (h : i < token.length), t.textAt (a + i) = token[i]) ∧
      ∀ x, x < a ∨ a + token.length ≤ x → t.textAt x = s.textAt x := by
  induction token generalizing a s with
  | nil => exact ⟨s, rfl, by simpa [placeToken] using hh, hb, rfl, rfl, nofun, fun _ _ => rfl⟩
  | cons c token ih =>
    simp only [List.length_cons] at hr
    have ha : a < 2 ^ 32 := by omega
    have hn : (BitVec.ofNat 32 a).toNat = a := by simpa using ha
    have hlt : ¬ a ≥ s.params.textBytes := by omega
    have h1 : step s =
        .next { s with
          host := placeToken (a + 1) token ++ rest
          text := Memory.write s.text a c } := by
      simp [step, hb, hostActs, hh, placeToken_cons ha, State.perform, State.textWrite, State.busy, State.takeOp, hn, hlt]
    obtain ⟨t, hrun, h2, h3, h4, h5, h6, h7⟩ := ih (a + 1)
      { s with
        host := placeToken (a + 1) token ++ rest
        text := Memory.write s.text a c } hb rfl (by simp only; omega) ht
    refine ⟨t, ?_, h2, h3, h4, h5, fun i hi => ?_, fun x hx => ?_⟩
    · have : core.step s = step s := rfl
      simp only [List.length_cons, Host.Core.run]
      rw [this, h1]
      exact hrun
    · cases i with
      | zero =>
        rw [h7 _ (by omega)]
        simp [State.textAt]
      | succ i =>
        rw [show a + (i + 1) = a + 1 + i by omega, h6 i (by simpa using hi)]
        rfl
    · simp only [List.length_cons] at hx
      rw [h7 x (by omega)]
      simp [State.textAt, Memory.lookup_write_other _ _ _ _ (show x ≠ a by omega)]

/-- The bytes of TEXT from `a` on. -/
def textBytes (s : State) (a : Nat) : Nat → List Byte
  | 0 => []
  | n + 1 => s.textAt a :: textBytes s (a + 1) n

/-- R205, stream insertion: an idle unit's bytes of TEXT end up at the end of the stream's output, in address order. -/
theorem copyDigits_copies (n : Nat) (base : BitVec 32) (y : System) (hb : y.unit.inFlight = none)
    (hh : y.unit.host = copyDigits base n) (hp : y.session.phase = (y.session.toCopy n).phase)
    (hs : y.seen = y.unit.replies.length) (hr : base.toNat + n ≤ y.unit.params.textBytes)
    (ht : y.unit.params.textBytes < 2 ^ 32) :
    (y.run (2 * n)).session.phase = .done ∧
      (y.run (2 * n)).session.stream =
        { y.session.stream with output := y.session.stream.output ++ textBytes y.unit base.toNat n } := by
  induction n generalizing base y with
  | zero => exact ⟨hp, by simp [System.run, textBytes]⟩
  | succ n ih =>
    have hlt : ¬ base.toNat ≥ y.unit.params.textBytes := by omega
    have hp' : y.session.phase = .copying (n + 1) := by simpa [Session.toCopy] using hp
    have h1 : step y.unit =
        .next { y.unit with
          host := copyDigits (base + 1) n
          replies := y.unit.replies ++ [.byte (y.unit.textAt base.toNat)] } := by
      simp [step, hb, hostActs, hh, copyDigits, State.perform, State.textRead, State.busy, State.takeOp, hlt,
        State.reply, State.textAt]
    have hbase : (base + 1).toNat = base.toNat + 1 := by
      rw [BitVec.toNat_add]
      exact Nat.mod_eq_of_lt (by simp; omega)
    have hbytes : ∀ (m a : Nat) (h : List HostOp) (r : List Reply),
        textBytes { y.unit with host := h, replies := r } a m = textBytes y.unit a m := by
      intro m
      induction m with
      | zero => exact fun _ _ _ => rfl
      | succ m ih => exact fun a h r => congrArg (y.unit.textAt a :: ·) (ih (a + 1) h r)
    rw [show 2 * (n + 1) = 2 * n + 1 + 1 by omega, System.run, advance_step hs h1, System.run,
      advance_react (r := .byte (y.unit.textAt base.toNat)) (by simp [hs])]
    simp only [Session.react, hp', List.append_nil, Nat.add_sub_cancel]
    have := ih (base + 1)
      { unit := { y.unit with
          host := copyDigits (base + 1) n
          replies := y.unit.replies ++ [.byte (y.unit.textAt base.toNat)] }
        session := { y.session.toCopy n with
          stream := { y.session.stream with output := y.session.stream.output ++ [y.unit.textAt base.toNat] } }
        seen := y.seen + 1 } hb rfl rfl (by simp [hs]) (by simp only [hbase]; omega) ht
    simp only [hbytes, hbase, List.append_assoc] at this
    exact this

end Sys2Proof.Machine.HostLayer
end

