-- ==== Sys2Proof/Laws/PerInstr.lean ====
section
/-! SUPPORT. The per-instruction family FieldsRoundTrip: reading the fields and ARG the encoder gives a command back from
them gives that command. -/

namespace Sys2Proof.Laws.FieldsRoundTrip

section

variable (k : Fin 8) (o : Opcode) (wc aux : Nibble) (rd rs1 rs2 : Reg) (arg : BitVec 64)

@[simp] theorem fieldsFor_wc : (fieldsFor o wc rd rs1 rs2 aux).wc = wc := rfl
@[simp] theorem fieldsFor_aux : (fieldsFor o wc rd rs1 rs2 aux).aux = aux := rfl
@[simp] theorem fieldsFor_rd : (fieldsFor o wc rd rs1 rs2 aux).rd = regCode rd := rfl
@[simp] theorem fieldsFor_rs1 : (fieldsFor o wc rd rs1 rs2 aux).rs1 = regCode rs1 := rfl
@[simp] theorem fieldsFor_rs2 : (fieldsFor o wc rd rs1 rs2 aux).rs2 = regCode rs2 := rfl

/-- The fields of a word of operation `o` are read as operation `o`. -/
@[simp] theorem decodeFields_fieldsFor :
    decodeFields k (fieldsFor o wc rd rs1 rs2 aux) arg =
      decodeOperation k (fieldsFor o wc rd rs1 rs2 aux) arg o := by
  simp [decodeFields, fieldsFor]

end

/-- For every K whose width codes the command keeps to, its fields and ARG are read as that command. -/
def Statement (i : Instr) : Prop :=
  ∀ k : Fin 8, i.wellFormed k = true → decodeFields k i.fields i.arg = .ok i

theorem clr (rd : Reg) (wc : Nibble) : Statement (.clr rd wc) := fun k h => by
  simp_all [Instr.wellFormed, Instr.widthCode, Instr.sourceWidthCode, Instr.fields, decodeOperation, checked]

theorem mov (rd : Reg) (rs1 : Reg) (wc : Nibble) : Statement (.mov rd rs1 wc) := fun k h => by
  simp_all [Instr.wellFormed, Instr.widthCode, Instr.sourceWidthCode, Instr.fields, decodeOperation, checked]

theorem ldn (rd : Reg) (wc : Nibble) (nt : NativeType) (arg : BitVec 64) : Statement (.ldn rd wc nt arg) := fun k h => by
  simp_all [Instr.wellFormed, Instr.widthCode, Instr.sourceWidthCode, Instr.fields, decodeOperation, checked,
    checkedNative, Instr.arg]

theorem resize (rd : Reg) (rs1 : Reg) (wc : Nibble) (swc : Nibble) : Statement (.resize rd rs1 wc swc) := fun k h => by
  simp_all [Instr.wellFormed, Instr.widthCode, Instr.sourceWidthCode, Instr.fields, decodeOperation, checked,
    checkedSource]

theorem tonat (rs1 : Reg) (wc : Nibble) (nt : NativeType) : Statement (.tonat rs1 wc nt) := fun k h => by
  simp_all [Instr.wellFormed, Instr.widthCode, Instr.sourceWidthCode, Instr.fields, decodeOperation, checked,
    checkedNative]

theorem add (rd : Reg) (rs1 : Reg) (rs2 : Reg) (wc : Nibble) : Statement (.add rd rs1 rs2 wc) := fun k h => by
  simp_all [Instr.wellFormed, Instr.widthCode, Instr.sourceWidthCode, Instr.fields, decodeOperation, checked]

theorem sub (rd : Reg) (rs1 : Reg) (rs2 : Reg) (wc : Nibble) : Statement (.sub rd rs1 rs2 wc) := fun k h => by
  simp_all [Instr.wellFormed, Instr.widthCode, Instr.sourceWidthCode, Instr.fields, decodeOperation, checked]

theorem neg (rd : Reg) (rs1 : Reg) (wc : Nibble) : Statement (.neg rd rs1 wc) := fun k h => by
  simp_all [Instr.wellFormed, Instr.widthCode, Instr.sourceWidthCode, Instr.fields, decodeOperation, checked]

theorem inc (rd : Reg) (rs1 : Reg) (wc : Nibble) : Statement (.inc rd rs1 wc) := fun k h => by
  simp_all [Instr.wellFormed, Instr.widthCode, Instr.sourceWidthCode, Instr.fields, decodeOperation, checked]

theorem dec (rd : Reg) (rs1 : Reg) (wc : Nibble) : Statement (.dec rd rs1 wc) := fun k h => by
  simp_all [Instr.wellFormed, Instr.widthCode, Instr.sourceWidthCode, Instr.fields, decodeOperation, checked]

theorem mul (rd : Reg) (rs1 : Reg) (rs2 : Reg) (wc : Nibble) : Statement (.mul rd rs1 rs2 wc) := fun k h => by
  simp_all [Instr.wellFormed, Instr.widthCode, Instr.sourceWidthCode, Instr.fields, decodeOperation, checked]

theorem div (rd : Reg) (rs1 : Reg) (rs2 : Reg) (wc : Nibble) : Statement (.div rd rs1 rs2 wc) := fun k h => by
  simp_all [Instr.wellFormed, Instr.widthCode, Instr.sourceWidthCode, Instr.fields, decodeOperation, checked]

theorem mod (rd : Reg) (rs1 : Reg) (rs2 : Reg) (wc : Nibble) : Statement (.mod rd rs1 rs2 wc) := fun k h => by
  simp_all [Instr.wellFormed, Instr.widthCode, Instr.sourceWidthCode, Instr.fields, decodeOperation, checked]

theorem shl (rd : Reg) (rs1 : Reg) (wc : Nibble) (amount : BitVec 64) : Statement (.shl rd rs1 wc amount) := fun k h => by
  simp_all [Instr.wellFormed, Instr.widthCode, Instr.sourceWidthCode, Instr.fields, decodeOperation, checked,
    Instr.arg]

theorem shr (rd : Reg) (rs1 : Reg) (wc : Nibble) (amount : BitVec 64) : Statement (.shr rd rs1 wc amount) := fun k h => by
  simp_all [Instr.wellFormed, Instr.widthCode, Instr.sourceWidthCode, Instr.fields, decodeOperation, checked,
    Instr.arg]

theorem not (rd : Reg) (rs1 : Reg) (wc : Nibble) : Statement (.not rd rs1 wc) := fun k h => by
  simp_all [Instr.wellFormed, Instr.widthCode, Instr.sourceWidthCode, Instr.fields, decodeOperation, checked]

theorem and (rd : Reg) (rs1 : Reg) (rs2 : Reg) (wc : Nibble) : Statement (.and rd rs1 rs2 wc) := fun k h => by
  simp_all [Instr.wellFormed, Instr.widthCode, Instr.sourceWidthCode, Instr.fields, decodeOperation, checked]

theorem or (rd : Reg) (rs1 : Reg) (rs2 : Reg) (wc : Nibble) : Statement (.or rd rs1 rs2 wc) := fun k h => by
  simp_all [Instr.wellFormed, Instr.widthCode, Instr.sourceWidthCode, Instr.fields, decodeOperation, checked]

theorem xor (rd : Reg) (rs1 : Reg) (rs2 : Reg) (wc : Nibble) : Statement (.xor rd rs1 rs2 wc) := fun k h => by
  simp_all [Instr.wellFormed, Instr.widthCode, Instr.sourceWidthCode, Instr.fields, decodeOperation, checked]

theorem test (rs1 : Reg) (wc : Nibble) : Statement (.test rs1 wc) := fun k h => by
  simp_all [Instr.wellFormed, Instr.widthCode, Instr.sourceWidthCode, Instr.fields, decodeOperation, checked]

theorem eq (rs1 : Reg) (rs2 : Reg) (wc : Nibble) : Statement (.eq rs1 rs2 wc) := fun k h => by
  simp_all [Instr.wellFormed, Instr.widthCode, Instr.sourceWidthCode, Instr.fields, decodeOperation, checked]

theorem ne (rs1 : Reg) (rs2 : Reg) (wc : Nibble) : Statement (.ne rs1 rs2 wc) := fun k h => by
  simp_all [Instr.wellFormed, Instr.widthCode, Instr.sourceWidthCode, Instr.fields, decodeOperation, checked]

theorem lt (rs1 : Reg) (rs2 : Reg) (wc : Nibble) : Statement (.lt rs1 rs2 wc) := fun k h => by
  simp_all [Instr.wellFormed, Instr.widthCode, Instr.sourceWidthCode, Instr.fields, decodeOperation, checked]

theorem le (rs1 : Reg) (rs2 : Reg) (wc : Nibble) : Statement (.le rs1 rs2 wc) := fun k h => by
  simp_all [Instr.wellFormed, Instr.widthCode, Instr.sourceWidthCode, Instr.fields, decodeOperation, checked]

theorem gt (rs1 : Reg) (rs2 : Reg) (wc : Nibble) : Statement (.gt rs1 rs2 wc) := fun k h => by
  simp_all [Instr.wellFormed, Instr.widthCode, Instr.sourceWidthCode, Instr.fields, decodeOperation, checked]

theorem ge (rs1 : Reg) (rs2 : Reg) (wc : Nibble) : Statement (.ge rs1 rs2 wc) := fun k h => by
  simp_all [Instr.wellFormed, Instr.widthCode, Instr.sourceWidthCode, Instr.fields, decodeOperation, checked]

theorem parse (rd : Reg) (wc : Nibble) (base : BitVec 32) (length : BitVec 32) : Statement (.parse rd wc base length) := fun k h => by
  simp_all [Instr.wellFormed, Instr.widthCode, Instr.sourceWidthCode, Instr.fields, decodeOperation, checked,
    Instr.arg]

theorem parsez (rd : Reg) (wc : Nibble) (base : BitVec 32) : Statement (.parsez rd wc base) := fun k h => by
  simp_all [Instr.wellFormed, Instr.widthCode, Instr.sourceWidthCode, Instr.fields, decodeOperation, checked,
    Instr.arg]

theorem fmt (rs1 : Reg) (wc : Nibble) (base : BitVec 32) : Statement (.fmt rs1 wc base) := fun k h => by
  simp_all [Instr.wellFormed, Instr.widthCode, Instr.sourceWidthCode, Instr.fields, decodeOperation, checked,
    Instr.arg]

theorem clrerr : Statement (.clrerr) := fun k h => by
  simp_all [Instr.fields, decodeOperation, checked]

end Sys2Proof.Laws.FieldsRoundTrip
end

