-- ==== Sys2Proof/Laws/Port.lean ====
section
/-! SUPPORT. What the host's port operations do to the text buffer's form and to the parameters, said once for all
(20_memory.md R44 to R47, 70_reset_and_hazards.md R210). -/

namespace Sys2Proof.Machine

theorem reset_text_wf : Memory.wf State.reset.text = true := rfl

/-- Every port operation keeps the canonical form of TEXT. -/
theorem perform_text_wf (s : State) (op : HostOp) (h : Memory.wf s.text = true) : Memory.wf (s.perform op).text = true := by
  cases op with
  | issue c => exact h
  | read p => cases p <;> simp only [State.perform, State.read] <;> (try split) <;> exact h
  | textRead a =>
    simp only [State.perform, State.textRead]
    split
    · exact h
    · split <;> exact h
  | textWrite a v =>
    simp only [State.perform, State.textWrite]
    split
    · exact h
    · exact Memory.wf_write _ _ h
  | reset => rfl

/-- No port operation changes the parameters. -/
theorem perform_params (s : State) (op : HostOp) : (s.perform op).params = s.params := by
  cases op with
  | issue c => rfl
  | read p => cases p <;> simp only [State.perform, State.read] <;> (try split) <;> rfl
  | textRead a =>
    simp only [State.perform, State.textRead]
    split
    · rfl
    · split <;> rfl
  | textWrite a v =>
    simp only [State.perform, State.textWrite]
    split <;> rfl
  | reset => rfl

end Sys2Proof.Machine
end

