-- ==== Sys2Proof/Laws/Text.lean ====
section
/-! SUPPORT. The digit strings of FMT and what the loop of PARSE does on them (46_text.md R160 to R168). -/

namespace Sys2Proof.Machine

/-- A digit's byte is a digit, with that value (R160, R165). -/
theorem digitByte_toNat {d : Nat} (h : d < 10) : (digitByte d).toNat = 0x30 + d := by
  simp [digitByte]; omega

theorem isDigit_digitByte {d : Nat} (h : d < 10) : isDigit (digitByte d) = true := by
  simp [isDigit, digitByte_toNat h]; omega

theorem digitValue_digitByte {d : Nat} (h : d < 10) : digitValue (digitByte d) = d := by
  simp [digitValue, digitByte_toNat h]

/-- More fuel than the value changes nothing. -/
theorem decimalDigits_fuel {f g v : Nat} (hf : v < f) (hg : v < g) : decimalDigits f v = decimalDigits g v := by
  induction f generalizing g v with
  | zero => omega
  | succ f ih =>
    cases g with
    | zero => omega
    | succ g =>
      simp only [decimalDigits]
      split
      · rfl
      · rw [ih (g := g) (by omega) (by omega)]

/-- The digit string of a value below 10 (R165). -/
theorem formatDecimal_small {v : Nat} (h : v < 10) : formatDecimal v = [digitByte v] := by
  simp [formatDecimal, decimalDigits, Nat.div_eq_of_lt h, Nat.mod_eq_of_lt h]

/-- The digit string of any other value: that of its tenth, then its last digit (R165). -/
theorem formatDecimal_step {v : Nat} (h : 10 ≤ v) :
    formatDecimal v = formatDecimal (v / 10) ++ [digitByte (v % 10)] := by
  have h0 : v / 10 ≠ 0 := by omega
  simp only [formatDecimal, decimalDigits, h0, if_false]
  rw [decimalDigits_fuel (g := v / 10 + 1) (by omega) (by omega)]
  rfl

theorem formatDecimal_length_pos (v : Nat) : 0 < (formatDecimal v).length := by
  by_cases h : v < 10
  · simp [formatDecimal_small h]
  · simp [formatDecimal_step (Nat.le_of_not_lt h)]

/-- One more digit at the end of a range the loop of PARSE accepts (R162). -/
theorem parseBounded_snoc {text : Nat → Byte} {m n a acc v : Nat} (h : parseBounded text m n a acc = .ok v)
    (hd : isDigit (text (a + n)) = true) :
    parseBounded text m (n + 1) a acc = .ok ((v * 10 + digitValue (text (a + n))) % m) := by
  induction n generalizing a acc with
  | zero =>
    simp only [parseBounded, Except.ok.injEq] at h
    subst h
    simp [parseBounded, show isDigit (text a) = true from hd]
  | succ n ih =>
    rw [parseBounded] at h
    split at h
    · next hc =>
      have e : a + 1 + n = a + (n + 1) := by omega
      have := ih h (by rw [e]; exact hd)
      rw [parseBounded, if_pos hc, this, e]
    · cases h

end Sys2Proof.Machine
end

