-- ==== Sys2Proof/Tests/Slice0.lean ====
section
/-! SUPPORT. The model's own tests. The words, the states and the results come from the examples of 41_construction.md to
47_control.md and from the vectors of 95_test_vectors.md, which the names cite; none comes from the model. The witnesses at
the end show states and operands that meet the hypotheses of the statements, at the boundaries of each clause. -/

namespace Sys2Proof.Tests

open Sys2Proof.Machine Sys2Proof.Claims

/-! ### Helpers -/

/-- The reset state with W0 = a and W1 = b, both of width code `wc`. -/
def pair (wc : Nibble) (a b : Nat) : State :=
  { State.reset with
    w := (State.reset.w.set 0 a).set 1 b
    tag := (State.reset.tag.set 0 wc).set 1 wc }

/-- The reset state with W0 = a of width code `wc`. -/
def single (wc : Nibble) (a : Nat) : State :=
  { State.reset with
    w := State.reset.w.set 0 a
    tag := State.reset.tag.set 0 wc }

/-- The reset state with bytes of TEXT from `base` on. -/
def withText (base : Nat) (bytes : List Byte) : State := State.reset.writeText base bytes

/-- The bytes of a digit string, from the values of its digits. -/
def digits (l : List Nat) : List Byte := l.map fun d => BitVec.ofNat 8 (0x30 + d)

/-- A state with the error of program P3 step 1 pending, and W0 = 4 at width 128. -/
def pending : State :=
  { single 0 4 with
    err := .invalidFormat
    eop := 0x30
    einfo := 0x0000006100000013 }

/-- One step that completes the command word with its ARG. -/
def run (word : BitVec 32) (arg : BitVec 64) (s : State) : Option State :=
  match step (s.withInFlight { word := word, arg := arg }) with
  | .next t => some t
  | .fault _ => none
  | .refused _ => none

/-- W2 and TAG[2] after a command. -/
def w2 (word : BitVec 32) (arg : BitVec 64) (s : State) : Option (Nat × Nibble) :=
  (run word arg s).map fun t => (t.wide 2, t.tagOf 2)

/-- NRES after a command. -/
def nres (word : BitVec 32) (arg : BitVec 64) (s : State) : Option (BitVec 64) := (run word arg s).map fun t => t.nres

/-- STATUS and EINFO after a command. -/
def errors (word : BitVec 32) (arg : BitVec 64) (s : State) : Option (BitVec 64 × BitVec 64) :=
  (run word arg s).map fun t => (t.status, t.einfo)

/-! ### WellFormed refuses the terms that break each of its checks (R62, R64) -/

theorem test_wellFormed_refuses_wide_code : Instr.wellFormed 3 (.clr 0 4) = false := by decide

theorem test_wellFormed_refuses_code_fifteen : Instr.wellFormed 7 (.add 0 1 2 15) = false := by decide

theorem test_wellFormed_refuses_source_code : Instr.wellFormed 3 (.resize 0 1 3 4) = false := by decide

theorem test_wellFormed_accepts_the_bounds :
    Instr.wellFormed 3 (.resize 0 1 3 3) = true ∧ Instr.wellFormed 0 .clrerr = true := by decide

/-! ### Decoding: a word of the spec for each command -/

theorem test_decode_clr : decode 3 ⟨0x00100001, 0⟩ = .ok (.clr 0 1) := by decide

theorem test_decode_mov : decode 3 ⟨0x00000102, 0⟩ = .ok (.mov 1 0 0) := by decide

theorem test_decode_ldn : decode 3 ⟨0x06100303, 0x00000000FFFFFFFB⟩ = .ok (.ldn 3 1 .s32 0xFFFFFFFB) := by decide

theorem test_decode_resize : decode 3 ⟨0x01002404, 0⟩ = .ok (.resize 4 2 0 1) := by decide

theorem test_decode_tonat : decode 3 ⟨0x05103005, 0⟩ = .ok (.tonat 3 1 .s16) := by decide

theorem test_decode_add : decode 3 ⟨0x00110210, 0⟩ = .ok (.add 2 0 1 1) := by decide

theorem test_decode_sub : decode 3 ⟨0x00110311, 0⟩ = .ok (.sub 3 0 1 1) := by decide

theorem test_decode_neg : decode 3 ⟨0x00000112, 0⟩ = .ok (.neg 1 0 0) := by decide

theorem test_decode_inc : decode 3 ⟨0x00101213, 0⟩ = .ok (.inc 2 1 1) := by decide

theorem test_decode_dec : decode 3 ⟨0x00002314, 0⟩ = .ok (.dec 3 2 0) := by decide

theorem test_decode_mul : decode 3 ⟨0x00150415, 0⟩ = .ok (.mul 4 0 5 1) := by decide

theorem test_decode_div : decode 3 ⟨0x00110618, 0⟩ = .ok (.div 6 0 1 1) := by decide

theorem test_decode_mod : decode 3 ⟨0x00110719, 0⟩ = .ok (.mod 7 0 1 1) := by decide

theorem test_decode_shl : decode 3 ⟨0x00100120, 200⟩ = .ok (.shl 1 0 1 200) := by decide

theorem test_decode_shr : decode 3 ⟨0x00100121, 199⟩ = .ok (.shr 1 0 1 199) := by decide

theorem test_decode_not : decode 3 ⟨0x00000122, 0⟩ = .ok (.not 1 0 0) := by decide

theorem test_decode_and : decode 3 ⟨0x00010223, 0⟩ = .ok (.and 2 0 1 0) := by decide

theorem test_decode_or : decode 3 ⟨0x00010224, 0⟩ = .ok (.or 2 0 1 0) := by decide

theorem test_decode_xor : decode 3 ⟨0x00010225, 0⟩ = .ok (.xor 2 0 1 0) := by decide

theorem test_decode_test : decode 3 ⟨0x00107026, 0⟩ = .ok (.test 7 1) := by decide

theorem test_decode_eq : decode 3 ⟨0x00113028, 0⟩ = .ok (.eq 3 1 1) := by decide

theorem test_decode_ne : decode 3 ⟨0x00110029, 0⟩ = .ok (.ne 0 1 1) := by decide

theorem test_decode_lt : decode 3 ⟨0x0010102A, 0⟩ = .ok (.lt 1 0 1) := by decide

theorem test_decode_le : decode 3 ⟨0x0011002B, 0⟩ = .ok (.le 0 1 1) := by decide

theorem test_decode_gt : decode 3 ⟨0x0011002C, 0⟩ = .ok (.gt 0 1 1) := by decide

theorem test_decode_ge : decode 3 ⟨0x0011002D, 0⟩ = .ok (.ge 0 1 1) := by decide

theorem test_decode_parse : decode 3 ⟨0x00100530, 0x4F00000000⟩ = .ok (.parse 5 1 0 79) := by decide

theorem test_decode_parsez : decode 3 ⟨0x00000131, 0x20⟩ = .ok (.parsez 1 0 0x20) := by decide

theorem test_decode_fmt : decode 3 ⟨0x00103032, 0x4E⟩ = .ok (.fmt 3 1 0x4E) := by decide

theorem test_decode_clrerr : decode 3 ⟨0x0000003F, 0⟩ = .ok .clrerr := by decide

/-- The host's numbering: the word in bits 31..0, ARG above it (assumption 12). -/
theorem test_decodeTableWord :
    decodeTableWord 96 0x0000000300000010_00000030 = some (.parse 0 0 0x10 3) ∧
      decodeTableWord 32 0x00110210 = some (.add 2 0 1 1) ∧ decodeTableWord 32 0 = none := by decide

/-- V-ERR-1 to V-ERR-9 and V-RESIZE-9: each condition of R68. -/
theorem test_decode_rejects :
    decode 3 ⟨0x00000000, 0⟩ = .error .unknownOpcode ∧ decode 3 ⟨0x00000006, 0⟩ = .error .unknownOpcode ∧
      decode 3 ⟨0x000000FF, 0⟩ = .error .unknownOpcode ∧ decode 3 ⟨0x10000001, 0⟩ = .error .reservedBits ∧
      decode 3 ⟨0x00400001, 0⟩ = .error .width ∧ decode 3 ⟨0x00F00001, 0⟩ = .error .width ∧
      decode 3 ⟨0x00010001, 0⟩ = .error .unusedField ∧ decode 3 ⟨0x01000001, 0⟩ = .error .unusedField ∧
      decode 3 ⟨0x08000003, 0⟩ = .error .nativeType ∧ decode 3 ⟨0x04000204, 0⟩ = .error .sourceWidth ∧
      decode 3 ⟨0x0010003F, 0⟩ = .error .unusedField := by decide

/-! ### The commands, one step each -/

/-- V-CLR-1. -/
theorem test_clr :
    w2 0x00200201 0 State.reset = some (0, 2) := by decide

/-- V-MOV-1. -/
theorem test_mov :
    w2 0x00000202 0 (single 0 7) = some (7, 0) := by decide

/-- V-MOV-2. -/
theorem test_mov_width :
    errors 0x00100202 0 (single 0 7) = some (0x00020400, 0x100) := by decide

/-- V-LDN-3. -/
theorem test_ldn_signed :
    w2 0x04100203 0x80 State.reset = some (2 ^ 256 - 2 ^ 7, 1) := by decide

/-- V-LDN-6. -/
theorem test_ldn_ignores_high_arg :
    w2 0x01000203 0xFFFFFFFFFFFF1234 State.reset = some (0x1234, 0) := by decide

/-- V-RESIZE-2. -/
theorem test_resize :
    w2 0x01000204 0 (single 1 (2 ^ 200 + 5)) = some (5, 0) := by decide

/-- V-RESIZE-8. -/
theorem test_resize_width :
    errors 0x01000204 0 (single 0 5) = some (0x00040400, 0x100) := by decide

/-- V-TONAT-1. -/
theorem test_tonat :
    nres 0x05100005 0 (single 1 (2 ^ 256 - 5)) = some 0xFFFFFFFFFFFFFFFB := by decide

/-- V-TONAT-7. -/
theorem test_tonat_unsigned :
    nres 0x02000005 0 (single 0 (2 ^ 64 + 0x123456789)) = some 0x23456789 := by decide

/-- V-ADD-1. -/
theorem test_add_wraps :
    w2 0x00010210 0 (pair 0 (2 ^ 128 - 1) 1) = some (0, 0) := by decide

/-- V-ADD-5. -/
theorem test_add_carries :
    w2 0x00110210 0 (pair 1 (2 ^ 128 - 1) (2 ^ 128 - 1)) = some (2 ^ 129 - 2, 1) := by decide

/-- V-SUB-1. -/
theorem test_sub_wraps :
    w2 0x00010211 0 (pair 0 0 1) = some (2 ^ 128 - 1, 0) := by decide

/-- V-SUB-5. -/
theorem test_sub_borrows :
    w2 0x00110211 0 (pair 1 (2 ^ 199) (2 ^ 200)) = some (2 ^ 256 - 2 ^ 199, 1) := by decide

/-- V-UN-3. -/
theorem test_neg_of_half :
    w2 0x00000212 0 (single 0 (2 ^ 127)) = some (2 ^ 127, 0) := by decide

/-- V-UN-4. -/
theorem test_neg :
    w2 0x00100212 0 (single 1 (2 ^ 128)) = some (2 ^ 256 - 2 ^ 128, 1) := by decide

/-- V-UN-5. -/
theorem test_inc_wraps :
    w2 0x00000213 0 (single 0 (2 ^ 128 - 1)) = some (0, 0) := by decide

/-- V-UN-6. -/
theorem test_inc :
    w2 0x00000213 0 (single 0 (2 ^ 64 - 1)) = some (2 ^ 64, 0) := by decide

/-- V-UN-8. -/
theorem test_dec_wraps :
    w2 0x00000214 0 (single 0 0) = some (2 ^ 128 - 1, 0) := by decide

/-- V-UN-10. -/
theorem test_dec :
    w2 0x00100214 0 (single 1 (2 ^ 128)) = some (2 ^ 128 - 1, 1) := by decide

/-- V-MUL-1. -/
theorem test_mul_upper_quarters :
    w2 0x00110215 0 (pair 1 (2 ^ 127) (2 ^ 127)) = some (2 ^ 254, 1) := by decide

/-- V-MUL-10. -/
theorem test_mul :
    w2 0x00010215 0 (pair 0 0x123456789ABCDEF0123456789ABCDEF 0xFEDCBA9876543210FEDCBA987654321) =
      some (0x4458FAB20783AF1222236D88FE5618CF, 0) := by decide

/-- V-DIV-4. -/
theorem test_div :
    w2 0x00010218 0 (pair 0 (2 ^ 128 - 1) 2) = some (0x7FFFFFFFFFFFFFFFFFFFFFFFFFFFFFFF, 0) := by decide

/-- V-DIV-9. -/
theorem test_div_by_zero :
    errors 0x00010218 0 (pair 0 9 0) = some (0x00180200, 0x1) := by decide

/-- V-DIV-7. -/
theorem test_mod :
    w2 0x00110219 0 (pair 1 (2 ^ 256 - 1) 10) = some (5, 1) := by decide

/-- V-MOD-4, with the zero in W1. -/
theorem test_mod_by_zero :
    errors 0x00010219 0 (pair 0 9 0) = some (0x00190200, 0x1) := by decide

/-- V-SH-5. -/
theorem test_shl :
    w2 0x00100220 0x7F (single 1 0x8000000000000000000000000000000180000000000000000000000000000001) =
      some (0xC000000000000000000000000000000080000000000000000000000000000000, 1) := by decide

/-- V-SH-9. -/
theorem test_shl_by_width :
    w2 0x00100220 0x100 (single 1 0x8000000000000000000000000000000180000000000000000000000000000001) = some (0, 1) := by decide

/-- V-SH-5. -/
theorem test_shr :
    w2 0x00100221 0x7F (single 1 0x8000000000000000000000000000000180000000000000000000000000000001) =
      some (0x0000000000000000000000000000000100000000000000000000000000000003, 1) := by decide

/-- V-SH-10. -/
theorem test_shr_by_most :
    w2 0x00100221 0xFFFFFFFFFFFFFFFF (single 1 0x8000000000000000000000000000000180000000000000000000000000000001) = some (0, 1) := by decide

/-- V-LOG-4. -/
theorem test_not :
    w2 0x00000222 0 (single 0 0xF0F0F0F0F0F0F0F0FFFF00000000FFFF) = some (0x0F0F0F0F0F0F0F0F0000FFFFFFFF0000, 0) := by decide

/-- V-LOG-1. -/
theorem test_and :
    w2 0x00010223 0 (pair 0 0xF0F0F0F0F0F0F0F0FFFF00000000FFFF 0x0FF00FF00FF00FF0FFFFFFFF00000000) =
      some (0x00F000F000F000F0FFFF000000000000, 0) := by decide

/-- V-LOG-2. -/
theorem test_or :
    w2 0x00010224 0 (pair 0 0xF0F0F0F0F0F0F0F0FFFF00000000FFFF 0x0FF00FF00FF00FF0FFFFFFFF00000000) =
      some (0xFFF0FFF0FFF0FFF0FFFFFFFF0000FFFF, 0) := by decide

/-- V-LOG-3. -/
theorem test_xor :
    w2 0x00010225 0 (pair 0 0xF0F0F0F0F0F0F0F0FFFF00000000FFFF 0x0FF00FF00FF00FF0FFFFFFFF00000000) =
      some (0xFF00FF00FF00FF000000FFFF0000FFFF, 0) := by decide

/-- V-TEST-4. -/
theorem test_test_upper :
    nres 0x00000026 0 (single 0 (2 ^ 64)) = some 1 := by decide

/-- V-TEST-1. -/
theorem test_test_zero :
    nres 0x00000026 0 { single 0 0 with nres := 9 } = some 0 := by decide

/-- V-CMP-1 and V-CMP-4. -/
theorem test_eq :
    nres 0x00110028 0 (pair 1 5 5) = some 1 ∧ nres 0x00110028 0 (pair 1 (2 ^ 128) (2 ^ 128 - 1)) = some 0 := by decide

/-- V-CMP-2. -/
theorem test_eq_less :
    nres 0x00110028 0 (pair 1 (2 ^ 199) (2 ^ 200)) = some 0 := by decide

/-- V-CMP-1 and V-CMP-4. -/
theorem test_ne :
    nres 0x00110029 0 (pair 1 5 5) = some 0 ∧ nres 0x00110029 0 (pair 1 (2 ^ 128) (2 ^ 128 - 1)) = some 1 := by decide

/-- V-CMP-2. -/
theorem test_ne_less :
    nres 0x00110029 0 (pair 1 (2 ^ 199) (2 ^ 200)) = some 1 := by decide

/-- V-CMP-1 and V-CMP-4. -/
theorem test_lt :
    nres 0x0011002A 0 (pair 1 5 5) = some 0 ∧ nres 0x0011002A 0 (pair 1 (2 ^ 128) (2 ^ 128 - 1)) = some 0 := by decide

/-- V-CMP-2. -/
theorem test_lt_less :
    nres 0x0011002A 0 (pair 1 (2 ^ 199) (2 ^ 200)) = some 1 := by decide

/-- V-CMP-1 and V-CMP-4. -/
theorem test_le :
    nres 0x0011002B 0 (pair 1 5 5) = some 1 ∧ nres 0x0011002B 0 (pair 1 (2 ^ 128) (2 ^ 128 - 1)) = some 0 := by decide

/-- V-CMP-2. -/
theorem test_le_less :
    nres 0x0011002B 0 (pair 1 (2 ^ 199) (2 ^ 200)) = some 1 := by decide

/-- V-CMP-1 and V-CMP-4. -/
theorem test_gt :
    nres 0x0011002C 0 (pair 1 5 5) = some 0 ∧ nres 0x0011002C 0 (pair 1 (2 ^ 128) (2 ^ 128 - 1)) = some 1 := by decide

/-- V-CMP-2. -/
theorem test_gt_less :
    nres 0x0011002C 0 (pair 1 (2 ^ 199) (2 ^ 200)) = some 0 := by decide

/-- V-CMP-1 and V-CMP-4. -/
theorem test_ge :
    nres 0x0011002D 0 (pair 1 5 5) = some 1 ∧ nres 0x0011002D 0 (pair 1 (2 ^ 128) (2 ^ 128 - 1)) = some 1 := by decide

/-- V-CMP-2. -/
theorem test_ge_less :
    nres 0x0011002D 0 (pair 1 (2 ^ 199) (2 ^ 200)) = some 0 := by decide

/-- V-TXT-5: 2^128 + 5. -/
theorem test_parse_wraps :
    w2 0x00000230 0x2700000100
        (withText 0x100
          (digits
            ([3, 4, 0, 2, 8, 2, 3, 6, 6, 9, 2, 0, 9, 3, 8, 4, 6, 3, 4, 6] ++
              [3, 3, 7, 4, 6, 0, 7, 4, 3, 1, 7, 6, 8, 2, 1, 1, 4, 6, 1]))) =
      some (5, 0) := by decide +kernel

/-- V-TXT-9. -/
theorem test_parse_bad_byte :
    errors 0x00000230 0x400000010 (withText 0x10 [0x31, 0x32, 0x00, 0x35]) = some (0x00300100, 0x12) := by decide

/-- V-TXT-12. -/
theorem test_parsez :
    w2 0x00000231 0x20 (withText 0x20 [0x34, 0x32, 0x00]) = some (42, 0) := by decide

/-- V-TXT-15. -/
theorem test_parsez_off_the_end :
    errors 0x00000231 0xFFE (withText 0xFFE (digits [1, 2])) = some (0x00310500, 0xFFE) := by decide

/-- V-TXT-21: the digits and their count. -/
theorem test_fmt_most :
    ((run 0x00000032 0x40 (single 0 (2 ^ 128 - 1))).map fun t => (t.text.map Prod.snd, t.nres)) =
      some
        (digits
          ([3, 4, 0, 2, 8, 2, 3, 6, 6, 9, 2, 0, 9, 3, 8, 4, 6, 3, 4, 6] ++
            [3, 3, 7, 4, 6, 0, 7, 4, 3, 1, 7, 6, 8, 2, 1, 1, 4, 5, 5]), 39) := by decide +kernel

/-- V-TXT-23. -/
theorem test_fmt_does_not_fit :
    errors 0x00000032 0xFF0 (single 0 (2 ^ 128 - 1)) = some (0x00320500, 0xFF0) := by decide +kernel

/-- V-ERR-19. -/
theorem test_clrerr :
    (run 0x0000003F 0 pending).map (fun t => (t.status, t.einfo, t.wide 0)) = some (0, 0, 4) := by decide

/-- V-ERR-12. -/
theorem test_clrerr_idle :
    errors 0x0000003F 0 State.reset = some (0, 0) := by decide

/-! ### The error rules -/

/-- V-ERR-1 and V-ERR-2. -/
theorem test_illegal_word :
    errors 0 0 State.reset = some (0x00000300, 0) ∧ errors 6 0 State.reset = some (0x00060300, 6) := by decide

/-- V-ERR-13 to V-ERR-15. -/
theorem test_operand_order :
    (errors 0x00000210 0 State.reset).map Prod.snd = some 0xF0 ∧
      errors 0x00010210 0 (single 0 1) = some (0x00100400, 0xF1) ∧
      (errors 0x00010210 0 (single 1 1)).map Prod.snd = some 0x010 := by decide

/-- V-ERR-16 to V-ERR-18. -/
theorem test_pending_discards :
    (run 0x00000013 0 pending).map (fun t => (t.wide 0, t.status, t.einfo)) =
        some (4, 0x00300100, 0x0000006100000013) ∧
      errors 0 0 pending = some (0x00300100, 0x0000006100000013) ∧
      errors 0x0010003F 0 pending = some (0x00300100, 0x0000006100000013) := by decide

/-- V-TXT-10. -/
theorem test_textbounds_before_format :
    errors 0x00000230 0x700000FFA State.reset = some (0x00300500, 0xFFA) := by decide

/-- V-DIV-10: the operand-width check comes before the divisor's. -/
theorem test_operandtype_before_division :
    errors 0x00010218 0 { pair 0 9 0 with tag := (State.reset.tag.set 0 0).set 1 1 } = some (0x00180400, 0x011) := by decide

/-- R27: ID of the reference configuration. -/
theorem test_id : idWord State.reset.params = 0x0000100000011003 := by decide

/-- withFetchWord: the step runs the command, from reset. -/
theorem test_fetch :
    (match step (State.reset.withFetchWord 96 0x0000000000000005_03000203) with
    | .next t => some (t.wide 2, t.tagOf 2, t.busy)
    | .fault _ => none
    | .refused _ => none) = some (5, 0, false) := by decide

/-! ### The host layer (60_exceptions.md R205) -/

open Sys2Proof.Machine.HostLayer in
/-- An extraction into W0 at width 128 by way of TEXT at 0x10, in a phase. -/
def extraction (phase : Phase) (input : List Byte) : Session := ⟨.extract 0 0 0x10, phase, ⟨input, [], false⟩⟩

open Sys2Proof.Machine.HostLayer in
/-- R205 steps 1 to 3 on " 123 4"; the word and ARG are those of program P3, step 4. -/
theorem test_hostLayer_places_the_token :
    (extraction .ready [0x20, 0x31, 0x32, 0x33, 0x20, 0x34]).react (.word 0) =
      (extraction .extracting [0x20, 0x34],
        [.textWrite 0x10 0x31, .textWrite 0x11 0x32, .textWrite 0x12 0x33, .issue ⟨0x00000030, 0x300000010⟩,
          .read .status]) := by decide

open Sys2Proof.Machine.HostLayer in
/-- A STATUS with BUSY = 1 and ERR still 0 (R27) decides nothing. -/
theorem test_hostLayer_polls_while_busy :
    (extraction .extracting [0x20, 0x34]).react (.word 1) = (extraction .extracting [0x20, 0x34], [.read .status]) := by
  decide

open Sys2Proof.Machine.HostLayer in
/-- R205 step 4, with the STATUS of vector V-TXT-7 and the word of CLRERR. -/
theorem test_hostLayer_marks_the_failed_stream :
    (extraction .extracting [0x20, 0x34]).react (.word 0x00300100) =
      (⟨.extract 0 0 0x10, .done, ⟨[0x20, 0x34], [], true⟩⟩, [.issue ⟨0x0000003F, 0⟩]) := by decide

open Sys2Proof.Machine.HostLayer in
/-- R205, stream insertion, with the NRES and the address of program P3, step 11. -/
theorem test_hostLayer_copies_nres_bytes :
    (⟨.insert 0 0 0x60, .counting, ⟨[], [], false⟩⟩ : Session).react (.word 3) =
      (⟨.insert 0 0 0x60, .copying 3, ⟨[], [], false⟩⟩, [.textRead 0x60, .textRead 0x61, .textRead 0x62]) := by decide

open Sys2Proof.Machine.HostLayer in
/-- An NRES read that the host made before the task, and that lands after its start, is no answer to the task's poll
(assumption 14). -/
theorem test_hostLayer_leaves_earlier_reads_alone :
    let y := System.start { State.reset with host := [.read .nres] } (.insert 0 0 0x60) ⟨[], [], false⟩
    y.advance.unit.replies = [.word 0] ∧ y.advance.unit.host = [.read .status] ∧ y.advance.seen = 1 ∧
      y.advance.session = y.session := by decide

/-! ### Witnesses: the hypotheses of the statements can be met -/

/-- `exec` answers a next state, and it is this one. -/
def result (i : Instr) (s : State) : State :=
  match exec i s with
  | .next t => t
  | .fault _ => s
  | .refused _ => s

/-- A read of STATUS waiting behind a command that lets one operation land. -/
def busyWith (c : Command) (ops : List HostOp) : State :=
  { State.reset with
    inFlight := some { cmd := c, opsLeft := 1 }
    host := ops }

theorem completing (s : State) (c : Command) (h : s.host = []) : Completing (s.withInFlight c) c :=
  ⟨_, rfl, rfl, by simp [unitActs, State.withInFlight, h]⟩

theorem hostTurn_idle (s : State) (op : HostOp) (rest : List HostOp) (h : s.inFlight = none) :
    HostTurn { s with host := op :: rest } op rest :=
  ⟨rfl, by simp [h]⟩

theorem hostTurn_busy (c : Command) (op : HostOp) (rest : List HostOp) (h : ∀ d, op ≠ .issue d) :
    HostTurn (busyWith c (op :: rest)) op rest :=
  ⟨rfl, fun f hf => by
    cases hf
    cases op <;> first | rfl | exact absurd rfl (h _)⟩

theorem witness_DecodeOfEncodeIsTheCommand :
    Instr.wellFormed 7 (.resize 15 14 7 7) = true ∧ Instr.wellFormed 0 (.ldn 0 0 .s64 0xFFFFFFFFFFFFFFFF) = true := by
  decide

theorem witness_EncodeOfDecodeIsTheWord :
    decode 3 ⟨0x00100121, 199⟩ = .ok (.shr 1 0 1 199) ∧
      decode 3 ⟨0x00000031, 0xFFFFFFFF00000020⟩ = .ok (.parsez 0 0 0x20) := by decide

/-- Each condition of R68, at its first illegal value. -/
theorem witness_ExactlyTheIllegalWordsAreRejected :
    State.reset.params.k = 3 ∧ State.reset.err = .none ∧ Illegal 3 0x10000001 ∧ Illegal 3 0x00000000 ∧
      Illegal 3 0x00010001 ∧ Illegal 3 0x00400001 ∧ Illegal 3 0x08000003 ∧ Illegal 3 0x04000204 := by
  refine ⟨rfl, rfl, .inl (by decide), .inr (.inl (by decide)), .inr (.inr ⟨fieldTable[0], by decide, by decide, ?_⟩),
    .inr (.inr ⟨fieldTable[0], by decide, by decide, ?_⟩), .inr (.inr ⟨fieldTable[2], by decide, by decide, ?_⟩),
    .inr (.inr ⟨fieldTable[3], by decide, by decide, ?_⟩)⟩ <;> unfold FieldRow.Violated <;> decide

theorem witness_UnnamedArgBitsAreIgnored :
    decode 3 ⟨0x00000031, 0x20⟩ = .ok (.parsez 0 0 0x20) ∧
      usedArg (.parsez 0 0 0x20) 0x20 = usedArg (.parsez 0 0 0x20) 0xFFFFFFFF00000020 := by decide

theorem witness_StepRunsTheDecodedCommand :
    Completing (State.reset.withInFlight ⟨0x00100001, 0⟩) ⟨0x00100001, 0⟩ ∧ decode 3 ⟨0x00100001, 0⟩ = .ok (.clr 0 1) :=
  ⟨completing _ _ rfl, by decide⟩

theorem witness_PendingErrorAndDecodeChecksComeFirst :
    (Completing (State.reset.withInFlight ⟨0, 0⟩) ⟨0, 0⟩ ∧ State.reset.err = .none ∧ Illegal 3 0) ∧
      (Completing (State.reset.withInFlight ⟨0x00300001, 0⟩) ⟨0x00300001, 0⟩ ∧
        decode 3 ⟨0x00300001, 0⟩ = .ok (.clr 0 3)) ∧
      Completing (pending.withInFlight ⟨0x0010003F, 0⟩) ⟨0x0010003F, 0⟩ ∧ pending.err ≠ .none :=
  ⟨⟨completing _ _ rfl, rfl, .inr (.inl (by decide))⟩, ⟨completing _ _ rfl, by decide⟩, completing _ _ rfl, by decide⟩

theorem witness_ClrerrClearsOnlyTheError :
    State.reset.ErrorOk ∧ State.reset.err = .none ∧
      Completing (State.reset.withInFlight ⟨0x0010003F, 0⟩) ⟨0x0010003F, 0⟩ ∧
      Completing (pending.withInFlight ⟨0x0010003F, 0⟩) ⟨0x0010003F, 0⟩ ∧
      (0x0010003F#32).extractLsb' 0 8 = 0x3F#8 :=
  ⟨by decide, rfl, completing _ _ rfl, completing _ _ rfl, by decide⟩

theorem witness_IssueIsAcceptedOnlyWhenIdle :
    ({ State.reset with host := [.issue ⟨0, 0⟩] } : State).inFlight = none ∧
      (busyWith ⟨0x00100001, 0⟩ [.issue ⟨0, 0⟩]).inFlight = some ⟨⟨0x00100001, 0⟩, 1⟩ ∧
      (busyWith ⟨0x00100001, 0⟩ [.issue ⟨0, 0⟩]).host = [.issue ⟨0, 0⟩] := by decide

theorem witness_RegisterReadsReturnTheirValues (p : ReadPort) :
    HostTurn { State.reset with host := [.read p] } (.read p) [] ∧
      HostTurn (busyWith ⟨0x00100001, 0⟩ [.read p]) (.read p) [] :=
  ⟨hostTurn_idle _ _ _ rfl, hostTurn_busy _ _ _ nofun⟩

/-- The last address of TEXT and the first outside it, idle and busy. -/
theorem witness_HostTextReads :
    HostTurn { State.reset with host := [.textRead 0xFFF] } (.textRead 0xFFF) [] ∧
      HostTurn { State.reset with host := [.textRead 0x1000] } (.textRead 0x1000) [] ∧
      HostTurn (busyWith ⟨0x00100001, 0⟩ [.textRead 0xFFF]) (.textRead 0xFFF) [] ∧
      HostTurn (busyWith ⟨0x00100001, 0⟩ [.textRead 0x1000]) (.textRead 0x1000) [] :=
  ⟨hostTurn_idle _ _ _ rfl, hostTurn_idle _ _ _ rfl, hostTurn_busy _ _ _ nofun, hostTurn_busy _ _ _ nofun⟩

theorem witness_HostTextWrites :
    HostTurn { State.reset with host := [.textWrite 0xFFF 0x37] } (.textWrite 0xFFF 0x37) [] ∧
      HostTurn { State.reset with host := [.textWrite 0x1000 0x37] } (.textWrite 0x1000 0x37) [] ∧
      HostTurn (busyWith ⟨0x00100001, 0⟩ [.textWrite 0xFFF 0x37]) (.textWrite 0xFFF 0x37) [] ∧
      HostTurn (busyWith ⟨0x00100001, 0⟩ [.textWrite 0x1000 0x37]) (.textWrite 0x1000 0x37) [] :=
  ⟨hostTurn_idle _ _ _ rfl, hostTurn_idle _ _ _ rfl, hostTurn_busy _ _ _ nofun, hostTurn_busy _ _ _ nofun⟩

theorem witness_ResetPortResetsTheUnit :
    HostTurn { pending with host := [.reset, .issue ⟨0x00100001, 0⟩] } .reset [.issue ⟨0x00100001, 0⟩] ∧
      HostTurn (busyWith ⟨0x00100001, 0⟩ [.reset]) .reset [] :=
  ⟨hostTurn_idle _ _ _ rfl, hostTurn_busy _ _ _ nofun⟩

theorem witness_CommandInFlightCompletes :
    (busyWith ⟨0x00100001, 0⟩ [.read .status, .reset]).inFlight = some ⟨⟨0x00100001, 0⟩, 1⟩ ∧
      ∀ op ∈ (busyWith ⟨0x00100001, 0⟩ [.read .status, .reset]).host.take 1, op ≠ .reset := by decide

theorem witness_StatusAndIdLayouts : Params.reference.textBytes ≤ 2 ^ 32 - 1 ∧ (⟨7, 2 ^ 32 - 1⟩ : Params).textBytes ≤ 2 ^ 32 - 1 := by
  decide

theorem witness_ErrorInformationLayouts : 0 < 2 ^ 32 ∧ 2 ^ 32 - 1 < 2 ^ 32 := by decide

/-- Each error of R185 that a command raises is raised, with no error pending before. -/
theorem witness_OnlyTheNamedCommandsRaiseEachError :
    (exec (.parse 2 0 0x10 1) (withText 0x10 [0x61]) = .next (result (.parse 2 0 0x10 1) (withText 0x10 [0x61])) ∧
        (result (.parse 2 0 0x10 1) (withText 0x10 [0x61])).err = .invalidFormat) ∧
      (result (.div 2 0 1 0) (pair 0 9 0)).err = .divisionByZero ∧
      (result (.mov 2 0 0) State.reset).err = .operandType ∧
      (result (.fmt 0 0 0x1000) (single 0 7)).err = .textBounds ∧
      (withText 0x10 [0x61]).err = .none ∧ (pair 0 9 0).err = .none :=
  ⟨⟨rfl, by decide⟩, by decide, by decide, by decide, rfl, rfl⟩

theorem witness_ErrorsArePrecise :
    (exec (.div 2 0 1 0) (pair 0 9 0) = .next (result (.div 2 0 1 0) (pair 0 9 0)) ∧ (pair 0 9 0).err = .none ∧
        (result (.div 2 0 1 0) (pair 0 9 0)).err ≠ .none) ∧
      Completing ((pair 0 9 0).withInFlight ⟨0x00010218, 0⟩) ⟨0x00010218, 0⟩ ∧
      (run 0x00010218 0 (pair 0 9 0)).map (fun t => t.err) = some .divisionByZero :=
  ⟨⟨rfl, rfl, by decide⟩, completing _ _ rfl, by decide⟩

theorem witness_OperandWidthCheck :
    (sourcesOf (.add 2 0 1 0) = [(0, 0), (1, 0)] ∧ State.reset.err = .none ∧ State.reset.tagOf 0 ≠ 0) ∧
      ((single 0 1).err = .none ∧ (single 0 1).tagOf 0 = 0 ∧ (single 0 1).tagOf 1 ≠ 0) ∧
      (single 3 (2 ^ 128)).RegsOk ∧ (3 : Nibble) ≠ 15#4 ∧ (single 3 (2 ^ 128)).tagOf 0 = 3 := by decide +kernel

/-- A source with the right tag and one without, for MOV; CLR asks for nothing but no pending error. -/
theorem witness_ClrAndMovResults : (single 0 7).err = .none ∧ (single 0 7).tagOf 0 = 0 := by decide

theorem witness_LdnResult : State.reset.err = .none := by decide

theorem witness_ResizeResult :
    (single 3 7).err = .none ∧ (single 3 7).tagOf 0 = 3 ∧ (single 3 7).tagOf 0 ≠ 0 ∧ (4 : Nibble).toNat > (3 : Fin 8).val := by
  decide

theorem witness_TonatResult : (single 1 (2 ^ 256 - 5)).err = .none ∧ (single 1 (2 ^ 256 - 5)).tagOf 0 = 1 := by decide

theorem witness_AddAndSubResults : (pair 1 5 7).err = .none ∧ (pair 1 5 7).tagOf 0 = 1 ∧ (pair 1 5 7).tagOf 1 = 1 := by
  decide

theorem witness_NegIncAndDecResults : (single 0 0).err = .none ∧ (single 0 0).tagOf 0 = 0 := by decide

theorem witness_MulResult : (pair 3 5 7).err = .none ∧ (pair 3 5 7).tagOf 0 = 3 ∧ (pair 3 5 7).tagOf 1 = 3 := by decide

/-- A divisor of 1 and a divisor of 0. -/
theorem witness_DivAndModResults :
    ((pair 0 9 1).err = .none ∧ (pair 0 9 1).tagOf 0 = 0 ∧ (pair 0 9 1).tagOf 1 = 0 ∧ (pair 0 9 1).wide 1 ≠ 0) ∧
      (pair 0 9 0).err = .none ∧ (pair 0 9 0).tagOf 0 = 0 ∧ (pair 0 9 0).tagOf 1 = 0 ∧ (pair 0 9 0).wide 1 = 0 := by decide

theorem witness_ShlAndShrResults : (single 1 3).err = .none ∧ (single 1 3).tagOf 0 = 1 := by decide

theorem witness_BitwiseResults : (pair 0 5 7).err = .none ∧ (pair 0 5 7).tagOf 0 = 0 ∧ (pair 0 5 7).tagOf 1 = 0 := by decide

theorem witness_TestResult : (single 0 0).err = .none ∧ (single 0 0).tagOf 0 = 0 := by decide

theorem witness_RelationResults : (pair 2 5 5).err = .none ∧ (pair 2 5 5).tagOf 0 = 2 ∧ (pair 2 5 5).tagOf 1 = 2 := by decide

/-- The range that ends at TEXT_BYTES and the one that passes it by a byte; one digit, and a byte that is none after it. -/
theorem witness_ParseResult :
    (withText 0xFFE [0x39, 0x3A]).err = .none ∧ (0xFFE#32).toNat + (2#32).toNat ≤ State.reset.params.textBytes ∧
      (0xFFE#32).toNat + (3#32).toNat > State.reset.params.textBytes ∧
      AllDigits (withText 0xFFE [0x39, 0x3A]).textAt 0xFFE 1 ∧ ¬ Digit ((withText 0xFFE [0x39, 0x3A]).textAt (0xFFE + 1)) := by
  unfold AllDigits Digit
  decide

/-- The terminator, a byte that is neither, and the end of TEXT, each after one digit. -/
theorem witness_ParsezResult :
    (withText 0xFFE [0x30, 0x00]).err = .none ∧
      (AllDigits (withText 0xFFE [0x30, 0x00]).textAt 0xFFE 1 ∧ (withText 0xFFE [0x30, 0x00]).textAt (0xFFE + 1) = 0x00#8) ∧
      (AllDigits (withText 0xFFE [0x30, 0x2F]).textAt 0xFFE 1 ∧
        (withText 0xFFE [0x30, 0x2F]).textAt (0xFFE + 1) ≠ 0x00#8 ∧
        ¬ Digit ((withText 0xFFE [0x30, 0x2F]).textAt (0xFFE + 1))) ∧
      AllDigits (withText 0xFFF [0x39]).textAt 0xFFF 1 ∧ 0xFFF + 1 ≥ State.reset.params.textBytes := by
  unfold AllDigits Digit
  decide

/-- Five digits that end at TEXT_BYTES, and the same a byte further on. -/
theorem witness_FmtResult :
    (single 0 12345).err = .none ∧ (single 0 12345).tagOf 0 = 0 ∧
      (0xFFB#32).toNat + (digitString ((single 0 12345).wide 0)).length ≤ (single 0 12345).params.textBytes ∧
      (0xFFC#32).toNat + (digitString ((single 0 12345).wide 0)).length > (single 0 12345).params.textBytes := by
  have h : digitString ((single 0 12345).wide 0) = digits [1, 2, 3, 4, 5] := by
    simp [digitString, digits, single, State.wide]
  rw [h]
  decide

theorem witness_DigitCountsOfEachWidth : 0 < 2 ^ 128 ∧ 2 ^ 128 - 1 < 2 ^ 128 := by decide

/-- A command that writes its destination, and one that raises an error. -/
theorem witness_WideCommandFrame :
    destOf (.add 2 0 1 1) = some 2 ∧ exec (.add 2 0 1 1) (pair 1 5 7) = .next (result (.add 2 0 1 1) (pair 1 5 7)) ∧
      (result (.add 2 0 1 1) (pair 1 5 7)).err = .none ∧
      exec (.add 2 0 1 1) State.reset = .next (result (.add 2 0 1 1) State.reset) ∧
      (result (.add 2 0 1 1) State.reset).err = .operandType :=
  ⟨rfl, rfl, by decide, rfl, by decide⟩

theorem witness_NativeCommandFrame :
    writesNative (Instr.opcode (.lt 0 1 1)) = true ∧ Instr.opcode (.lt 0 1 1) ≠ .fmt ∧
      exec (.lt 0 1 1) (pair 1 5 7) = .next (result (.lt 0 1 1) (pair 1 5 7)) ∧
      (result (.lt 0 1 1) (pair 1 5 7)).nres = 1 :=
  ⟨rfl, by decide, rfl, by decide⟩

theorem witness_FmtFrame :
    exec (.fmt 0 0 0x40) (single 0 7) = .next (result (.fmt 0 0 0x40) (single 0 7)) ∧
      (result (.fmt 0 0 0x40) (single 0 7)).text = [(0x40, 0x37)] :=
  ⟨rfl, by decide⟩

theorem witness_OnlyNativeCommandsWriteNres :
    exec (.test 0 0) (single 0 7) = .next (result (.test 0 0) (single 0 7)) ∧
      (result (.test 0 0) (single 0 7)).nres ≠ (single 0 7).nres :=
  ⟨rfl, by decide⟩

/-- A completing FMT and a TEXT_WRITE that change a written byte. -/
theorem witness_TextChangesOnlyThroughItsWriters :
    (run 0x00000032 0x40 { single 0 7 with text := [(0x40, 0x61)] }).map (fun t => t.textAt 0x40) = some 0x37#8 ∧
      ({ single 0 7 with text := [(0x40, 0x61)] } : State).textAt 0x40 = 0x61#8 ∧
      (match step { State.reset with text := [(0x40, 0x61)], host := [.textWrite 0x40 0x62] } with
      | .next t => some (t.textAt 0x40)
      | .fault _ => none
      | .refused _ => none) = some 0x62#8 := by decide

theorem witness_OnlyCommandsAndResetWriteRegisters :
    (∃ t, step { State.reset with host := [.read .nres] } = .next t) ∧
      (∀ c, ¬ Completing { State.reset with host := [.read .nres] } c) ∧
      ∀ rest, ¬ HostTurn { State.reset with host := [.read .nres] } .reset rest :=
  ⟨⟨_, rfl⟩, nofun, nofun⟩

/-- The smallest TEXT of K = 0, and the largest. -/
theorem witness_ResetStateIsLegal :
    maxDigits (128 * 2 ^ (0 : Fin 8).val) ≤ 39 ∧ maxDigits (128 * 2 ^ (0 : Fin 8).val) ≤ 2 ^ 32 - 1 := by decide +kernel

/-- A legal state that is not the reset state, and a step from it. -/
theorem witness_EveryStepKeepsTheStateLegal :
    { pair 1 (2 ^ 256 - 1) 1 with params := ⟨1, 78⟩ }.Inv ∧
      ∃ t, step ({ pair 1 (2 ^ 256 - 1) 1 with params := ⟨1, 78⟩ }.withInFlight ⟨0x00110210, 0⟩) = .next t :=
  ⟨by decide +kernel, _, rfl⟩

/-- The largest value of each of the widths 64, 128 and 256. -/
theorem largest_values :
    2 ^ 64 - 1 < 2 ^ Datapath.limbWidth 0 ∧ 2 ^ 128 - 1 < 2 ^ Datapath.limbWidth 1 ∧
      2 ^ 256 - 1 < 2 ^ Datapath.limbWidth 2 := by decide

theorem witness_AdderAndSubtractorAreModular :
    2 ^ 128 - 1 < 2 ^ Datapath.limbWidth 1 ∧ 1 < 2 ^ Datapath.limbWidth 1 := by decide

theorem witness_IncrementerAndDecrementerAreModular : 2 ^ 256 - 1 < 2 ^ Datapath.limbWidth 2 := largest_values.2.2

theorem witness_SplitMultiplierIsModular : 2 ^ 127 < 2 ^ Datapath.limbWidth 2 ∧ 2 ^ 64 - 1 < 2 ^ Datapath.limbWidth 0 := by
  decide

theorem witness_RestoringDivisionIsExact : 2 ^ 128 - 1 < 2 ^ 128 ∧ 1 < 2 ^ 128 ∧ (1 : Nat) ≠ 0 := by decide

theorem witness_ShiftersShift : 2 ^ 256 - 1 < 2 ^ Datapath.limbWidth 2 := largest_values.2.2

theorem witness_ComparatorsAreNumeric : 2 ^ 128 < 2 ^ Datapath.limbWidth 2 ∧ 2 ^ 128 - 1 < 2 ^ Datapath.limbWidth 2 := by
  decide

theorem witness_LimbLogicIsBitwise : 2 ^ 128 - 1 < 2 ^ Datapath.limbWidth 1 := largest_values.2.1

theorem witness_ConverterAndNativeConstructor :
    2 ^ 256 - 1 < 2 ^ Datapath.limbWidth 2 ∧ 2 ^ 64 - 1 < 2 ^ nativeWidth .s64 ∧ 0x80 < 2 ^ nativeWidth .s8 := by decide

theorem witness_TextDatapathsAreDecimal :
    AllDigits (withText 0x10 (digits [1, 2, 3])).textAt 0x10 3 ∧ 4 ≤ 128 ∧ 2 ^ 128 - 1 < 2 ^ 128 := by
  unfold AllDigits Digit
  decide

theorem witness_DivisionLawOverCommands :
    (pair 0 (2 ^ 128 - 1) 10).RegsOk ∧ (0 : Nibble) ≠ 15#4 ∧ (pair 0 (2 ^ 128 - 1) 10).err = .none ∧
      (pair 0 (2 ^ 128 - 1) 10).tagOf 0 = 0 ∧ (pair 0 (2 ^ 128 - 1) 10).tagOf 1 = 0 ∧
      (pair 0 (2 ^ 128 - 1) 10).wide 1 ≠ 0 ∧ (2 : Reg) ≠ 3 ∧ (2 : Reg) ≠ 0 ∧ (2 : Reg) ≠ 1 ∧ (3 : Reg) ≠ 0 ∧
      (3 : Reg) ≠ 1 := by decide +kernel

/-- Five digits that end at TEXT_BYTES, where the 39 of the largest value of that width would not fit. -/
theorem witness_FormatThenParseGivesTheValueBack :
    { single 0 12345 with params := ⟨0, 44⟩ }.Inv ∧ (0 : Nibble) ≠ 15#4 ∧
      { single 0 12345 with params := ⟨0, 44⟩ }.err = .none ∧ { single 0 12345 with params := ⟨0, 44⟩ }.tagOf 0 = 0 ∧
      (39#32).toNat + (digitString ({ single 0 12345 with params := ⟨0, 44⟩ }.wide 0)).length ≤ 44 ∧
      ¬ (39#32).toNat + maxDigits (128 * 2 ^ (0 : Nibble).toNat) ≤ 44 := by
  have h : digitString ({ single 0 12345 with params := ⟨0, 44⟩ }.wide 0) = digits [1, 2, 3, 4, 5] := by
    simp [digitString, digits, single, State.wide]
  rw [h]
  decide +kernel

/-- a in W0, b and c in W1. -/
theorem witness_LessThanIsAStrictTotalOrder :
    (pair 1 5 7).err = .none ∧ (pair 1 5 7).tagOf 0 = 1 ∧ (pair 1 5 7).tagOf 1 = 1 := by decide

theorem witness_WidenThenNarrowIsTheIdentity :
    (single 2 (2 ^ 100)).RegsOk ∧ (2 : Nibble).toNat < (single 2 (2 ^ 100)).params.k.val ∧
      (single 2 (2 ^ 100)).err = .none ∧ (single 2 (2 ^ 100)).tagOf 0 = 2 := by decide +kernel

theorem witness_NegationAndShiftLaws :
    (pair 0 5 (2 ^ 127)).RegsOk ∧ (0 : Nibble) ≠ 15#4 ∧ (pair 0 5 (2 ^ 127)).err = .none ∧
      (pair 0 5 (2 ^ 127)).tagOf 0 = 0 ∧ (2 : Reg) ≠ 0 ∧ (127#64).toNat < 128 * 2 ^ (0 : Nibble).toNat ∧
      (pair 0 5 (2 ^ 127)).tagOf 1 = 0 ∧ (pair 0 5 (2 ^ 127)).wide 1 = 2 ^ (127#64).toNat := by decide +kernel

theorem witness_PseudoInstructionExpansions :
    (single 0 (2 ^ 128 - 1)).err = .none ∧ (single 0 (2 ^ 128 - 1)).tagOf 0 = 0 ∧ (1 : Reg) ≠ 0 := by decide


end Sys2Proof.Tests
end

section
/-! The operand-width check of R22, said once for all thirty commands: the first source whose tag is not the code it needs
is the error that the command raises. -/

namespace Sys2Proof.Machine

/-- The OperandType error of the first of some sources whose tag is not the code it must have, if there is one (R22). -/
def sourceFault (s : State) : List (Reg × Nibble) → Option UnitError
  | [] => none
  | (r, c) :: rest => if s.tagOf r = c then sourceFault s rest else some (.operandType r (s.tagOf r) c)

variable {s : State} {r r1 r2 : Reg} {c c1 c2 : Nibble} {rest : List (Reg × Nibble)} {e : UnitError} {o : Opcode}

theorem sourceFault_cons_of_eq (h : s.tagOf r = c) : sourceFault s ((r, c) :: rest) = sourceFault s rest := if_pos h

theorem sourceFault_cons_of_ne (h : s.tagOf r ≠ c) :
    sourceFault s ((r, c) :: rest) = some (.operandType r (s.tagOf r) c) := if_neg h

/-- A check that stands before others raises its own error, or leaves the error to the others. -/
theorem reading_of_sourceFault {k : Nat → Except UnitError State} (h : sourceFault s ((r, c) :: rest) = some e)
    (hk : sourceFault s rest = some e → k (s.wide r) = .error e) : reading s c r k = .error e := by
  by_cases ht : s.tagOf r = c
  · rw [reading_ok k ht]
    exact hk (sourceFault_cons_of_eq ht ▸ h)
  · rw [reading_error k ht]
    rw [sourceFault_cons_of_ne ht, Option.some.injEq] at h
    rw [h]

/-- A command that reads one source first raises that source's fault, whatever follows the check. -/
theorem command_of_sourceFault_one {k : State → Nat → Except UnitError State} (he : s.err = .none)
    (h : sourceFault s [(r, c)] = some e) :
    command o (fun s => reading s c r (k s)) s = .next (s.raise o.toByte e) :=
  command_error he (reading_of_sourceFault h nofun)

/-- A command that reads two sources first raises the fault of the first one at fault, whatever follows the checks. -/
theorem command_of_sourceFault_two {k : State → Nat → Nat → Except UnitError State} (he : s.err = .none)
    (h : sourceFault s [(r1, c1), (r2, c2)] = some e) :
    command o (fun s => reading s c1 r1 fun a => reading s c2 r2 (k s a)) s = .next (s.raise o.toByte e) :=
  command_error he (reading_of_sourceFault h fun h2 => reading_of_sourceFault h2 nofun)

section

variable {rd rs1 rs2 : Reg} {wc : Nibble}

theorem unary_of_sourceFault {f : Nat → Nat} (he : s.err = .none) (h : sourceFault s [(rs1, wc)] = some e) :
    unary o rd rs1 wc f s = .next (s.raise o.toByte e) :=
  command_of_sourceFault_one he h

theorem unaryNative_of_sourceFault {f : Nat → Nat} (he : s.err = .none) (h : sourceFault s [(rs1, wc)] = some e) :
    unaryNative o rs1 wc f s = .next (s.raise o.toByte e) :=
  command_of_sourceFault_one he h

theorem binary_of_sourceFault {f : Nat → Nat → Nat} (he : s.err = .none)
    (h : sourceFault s [(rs1, wc), (rs2, wc)] = some e) :
    binary o rd rs1 rs2 wc f s = .next (s.raise o.toByte e) :=
  command_of_sourceFault_two he h

/-- A dividend or divisor of another width is reported before a divisor of 0 (R187). -/
theorem dividing_of_sourceFault {f : Nat → Nat → Nat} (he : s.err = .none)
    (h : sourceFault s [(rs1, wc), (rs2, wc)] = some e) :
    dividing o rd rs1 rs2 wc f s = .next (s.raise o.toByte e) :=
  command_of_sourceFault_two he h

theorem relation_of_sourceFault {p : Nat → Nat → Bool} (he : s.err = .none)
    (h : sourceFault s [(rs1, wc), (rs2, wc)] = some e) :
    relation o rs1 rs2 wc p s = .next (s.raise o.toByte e) :=
  command_of_sourceFault_two he h

end

/-- R22 of every command: with no error pending, a fault of its sources is what it raises, and all it does. -/
theorem exec_of_sourceFault (i : Instr) (he : s.err = .none) (h : sourceFault s (sourcesOf i) = some e) :
    exec i s = .next (s.raise i.opcode.toByte e) := by
  cases i with
  | clr | ldn | parse | parsez | clrerr => cases h
  | mov | neg | inc | dec | shl | shr | not => exact unary_of_sourceFault he h
  | tonat | test => exact unaryNative_of_sourceFault he h
  | add | sub | mul | and | or | xor => exact binary_of_sourceFault he h
  | div | mod => exact dividing_of_sourceFault he h
  | eq | ne | lt | le | gt | ge => exact relation_of_sourceFault he h
  | resize =>
    simp only [exec, execResize]
    exact command_of_sourceFault_one he h
  | fmt =>
    simp only [exec, execFmt]
    exact command_of_sourceFault_one he h

/-- A register of the register invariant that is not EMPTY holds a value of its width (R21). -/
theorem State.RegOk.wide_lt (h : s.RegOk r) (hne : s.tagOf r ≠ emptyTag) : s.wide r < modulus (s.tagOf r) := by
  rcases h with ⟨hempty, _⟩ | ⟨_, hlt⟩
  · exact absurd hempty hne
  · exact hlt

end Sys2Proof.Machine

namespace Sys2Proof

theorem fields_op (i : Instr) : i.fields.op = i.opcode.toByte := by cases i <;> rfl

end Sys2Proof

namespace Sys2Proof.Claims

open Sys2Proof.Machine

/-- The byte that the statements read from the encoded word is the byte that the meanings raise errors with. -/
theorem opByte_eq_toByte (i : Instr) : opByte i = i.opcode.toByte :=
  (congrArg Fields.op (fieldsOf_wordOf i.fields)).trans (fields_op i)

/-- A fault of a command's sources, in the words of the statements. -/
theorem exec_eq_afterError_of_sourceFault {i : Instr} {s : State} {e : UnitError} (he : s.err = .none)
    (h : sourceFault s (sourcesOf i) = some e) : exec i s = .next (afterError s (opByte i) e) := by
  rw [opByte_eq_toByte]
  exact exec_of_sourceFault i he h

/-- Settles O21: the first source at fault is the error raised (`exec_of_sourceFault`), and a tag that passes the check is
not EMPTY, so the invariant of R21 bounds the value. -/
theorem operandWidthCheck : Obligations.OperandWidthCheck := by
  unfold Obligations.OperandWidthCheck
  refine ⟨fun i s r c rest he hs ht => ?_, fun i s r1 r2 c1 c2 he hs ht1 ht2 => ?_, fun s r c hregs hc ht => ?_⟩
  · exact exec_eq_afterError_of_sourceFault he (hs ▸ sourceFault_cons_of_ne ht)
  · refine exec_eq_afterError_of_sourceFault he ?_
    rw [hs, sourceFault_cons_of_eq ht1, sourceFault_cons_of_ne ht2]
  · subst ht
    exact (hregs r).wide_lt hc

end Sys2Proof.Claims
end

section
/-! The host's turn at the port, and what a READ returns (R46): the register itself when the read is valid, a free value
when it is not, and nothing of the unit changed in either case. -/

namespace Sys2Proof.Machine

variable {s : State} {p : ReadPort} {rest : List HostOp}

/-- The register that a read port shows (R27, R44). -/
def State.portWord (s : State) : ReadPort → BitVec 64
  | .status => s.status
  | .nres => s.nres
  | .einfo => s.einfo
  | .id => idWord s.params

/-- R46: STATUS and ID are valid at any time, the other registers while BUSY = 0. -/
def State.ReadValid (s : State) (p : ReadPort) : Prop := s.busy = false ∨ p = .status ∨ p = .id

theorem read_of_readValid (h : s.ReadValid p) : s.read p = s.reply (.word (s.portWord p)) := by
  cases p with
  | status | id => rfl
  | nres | einfo =>
    have hb : s.busy = false := by simpa [State.ReadValid] using h
    simp [State.read, State.portWord, hb]

theorem read_of_not_readValid (h : ¬ s.ReadValid p) : s.read p = s.replyFreeWord := by
  obtain ⟨hb, hstatus, hid⟩ : s.busy = true ∧ p ≠ .status ∧ p ≠ .id := by simpa [State.ReadValid] using h
  cases p with
  | status => exact absurd rfl hstatus
  | id => exact absurd rfl hid
  | nres | einfo => exact if_pos hb

@[simp] theorem takeOp_portWord : (s.takeOp rest).portWord p = s.portWord p := by
  cases p with
  | status => exact takeOp_status s rest
  | nres | einfo | id => rfl

@[simp] theorem takeOp_readValid : (s.takeOp rest).ReadValid p ↔ s.ReadValid p := by simp [State.ReadValid]

end Sys2Proof.Machine

namespace Sys2Proof.Claims

open Sys2Proof.Machine

variable {s : State} {p : ReadPort} {op : HostOp} {rest : List HostOp} {r : Reply}

/-- At the host's turn a step is the host's operation. -/
theorem step_of_hostTurn (h : HostTurn s op rest) : step s = .next ((s.takeOp rest).perform op) := by
  obtain ⟨hhost, hwait⟩ := h
  rcases step_cases s with ⟨f, hf, hdue, _⟩ | ⟨_, ⟨hnil, _⟩ | ⟨op', rest', hhost', hstep⟩⟩
  · exact absurd hdue (by simp [hwait f hf])
  · exact absurd (hhost.symm.trans hnil) (by simp)
  · cases hhost.symm.trans hhost'
    exact hstep

/-- What a port operation that only returns the value `r` leaves: one more value read, `rest` still to do, and the unit as it
was. -/
def Answered (s : State) (rest : List HostOp) (r : Reply) (t : State) : Prop :=
  t.replies = s.replies ++ [r] ∧ t.host = rest ∧ SameUnit s t ∧ t.busy = s.busy ∧ SameCommand s t

theorem sameUnit_takeOp (s : State) (rest : List HostOp) : SameUnit s (s.takeOp rest) :=
  ⟨rfl, rfl, rfl, rfl, rfl, rfl, rfl, fun _ => rfl⟩

theorem sameCommand_takeOp (s : State) (rest : List HostOp) : SameCommand s (s.takeOp rest) := by
  rw [SameCommand, takeOp_inFlight, Option.map_map]
  rfl

theorem answered_reply : Answered s rest r ((s.takeOp rest).reply r) :=
  ⟨rfl, rfl, sameUnit_takeOp s rest, takeOp_busy s rest, sameCommand_takeOp s rest⟩

theorem answered_replyFreeWord :
    Answered s rest (.word (Config.busyWord s.draws)) (s.takeOp rest).replyFreeWord :=
  ⟨rfl, rfl, sameUnit_takeOp s rest, takeOp_busy s rest, sameCommand_takeOp s rest⟩

/-- R46 in one statement: a READ returns a word, which is the register's when the read is valid. -/
theorem answered_read (s : State) (p : ReadPort) (rest : List HostOp) :
    ∃ v, Answered s rest (.word v) ((s.takeOp rest).read p) ∧ (s.ReadValid p → v = s.portWord p) := by
  by_cases hv : s.ReadValid p
  · rw [read_of_readValid (takeOp_readValid.2 hv), takeOp_portWord]
    exact ⟨s.portWord p, answered_reply, fun _ => rfl⟩
  · rw [read_of_not_readValid (mt takeOp_readValid.1 hv)]
    exact ⟨Config.busyWord s.draws, answered_replyFreeWord, fun h => absurd h hv⟩

/-- Settles O10: at its turn the host's READ is performed (`step_of_hostTurn`), and `answered_read` says what it leaves; each
port's clause is the case in which its read is valid. -/
theorem registerReadsReturnTheirValues : Obligations.RegisterReadsReturnTheirValues := by
  unfold Obligations.RegisterReadsReturnTheirValues
  intro s p rest hturn
  obtain ⟨v, ⟨hreplies, hhost, hunit, hbusy, hcmd⟩, hvalue⟩ := answered_read s p rest
  refine ⟨_, v, step_of_hostTurn hturn, hreplies, hhost, hunit, hbusy, hcmd, ?_, ?_, ?_, ?_⟩
  · rintro rfl
    exact hvalue (.inr (.inl rfl))
  · rintro rfl
    exact hvalue (.inr (.inr rfl))
  · rintro rfl hidle
    exact hvalue (.inl hidle)
  · rintro rfl hidle
    exact hvalue (.inl hidle)

end Sys2Proof.Claims
end

section
/-! The decoder, said once of every operation: which fields it accepts (R67, R68), the operation of the command it selects,
and where ARG goes in that command (R65). -/

namespace Sys2Proof

variable {k : Fin 8} {f : Fields} {wc aux : Nibble} {unused : List Nibble} {arg : BitVec 64} {o : Opcode} {i : Instr}

theorem widthLegal_iff : widthLegal k wc = true ↔ wc.toNat ≤ k.val := by simp [widthLegal]

/-- R64: the native type codes are 0x0 to 0x7. -/
theorem nativeType_ofCode_isSome_iff : (NativeType.ofCode aux).isSome = true ↔ aux.toNat < 8 := by
  revert aux; decide

theorem exists_checked_eq_ok :
    (∃ j, checked k wc unused i = .ok j) ↔ (∀ n ∈ unused, n = 0#4) ∧ wc.toNat ≤ k.val := by
  simp [checked_eq_ok, widthLegal_iff]

theorem exists_checkedNative_eq_ok {command : NativeType → Instr} :
    (∃ j, checkedNative aux (fun nt => checked k wc unused (command nt)) = .ok j) ↔
      aux.toNat < 8 ∧ (∀ n ∈ unused, n = 0#4) ∧ wc.toNat ≤ k.val := by
  rw [← nativeType_ofCode_isSome_iff, checkedNative]
  cases NativeType.ofCode aux with
  | none => simp
  | some nt => simpa using exists_checked_eq_ok

theorem exists_checkedSource_eq_ok {next : Except DecodeError Instr} :
    (∃ j, checkedSource k aux next = .ok j) ↔ aux.toNat ≤ k.val ∧ ∃ j, next = .ok j := by
  simp [checkedSource_eq_ok, widthLegal_iff]

/-- A command that is selected is one of the operation the OP byte names. -/
theorem opcode_of_decodeOperation (h : decodeOperation k f arg o = .ok i) : i.opcode = o := by
  cases o with
  | ldn | tonat =>
    obtain ⟨nt, -, h⟩ := checkedNative_eq_ok.1 h
    obtain ⟨-, -, rfl⟩ := checked_eq_ok.1 h
    rfl
  | resize =>
    obtain ⟨-, h⟩ := checkedSource_eq_ok.1 h
    obtain ⟨-, -, rfl⟩ := checked_eq_ok.1 h
    rfl
  | _ =>
    obtain ⟨-, -, rfl⟩ := checked_eq_ok.1 h
    rfl

/-- The command with its operand taken from another ARG (R65). -/
def Instr.withArg (arg : BitVec 64) : Instr → Instr
  | .ldn rd wc nt _ => .ldn rd wc nt arg
  | .shl rd rs1 wc _ => .shl rd rs1 wc arg
  | .shr rd rs1 wc _ => .shr rd rs1 wc arg
  | .parse rd wc _ _ => .parse rd wc (argBase arg) (argLength arg)
  | .parsez rd wc _ => .parsez rd wc (argBase arg)
  | .fmt rs1 wc _ => .fmt rs1 wc (argBase arg)
  | i => i

/-- No check looks at ARG: another ARG selects the same command, with its operand taken from that ARG. -/
theorem decodeOperation_withArg (arg' : BitVec 64) (h : decodeOperation k f arg o = .ok i) :
    decodeOperation k f arg' o = .ok (i.withArg arg') := by
  cases o with
  | ldn | tonat =>
    obtain ⟨nt, hnt, h⟩ := checkedNative_eq_ok.1 h
    obtain ⟨hunused, hwc, rfl⟩ := checked_eq_ok.1 h
    exact checkedNative_eq_ok.2 ⟨nt, hnt, checked_eq_ok.2 ⟨hunused, hwc, rfl⟩⟩
  | resize =>
    obtain ⟨hswc, h⟩ := checkedSource_eq_ok.1 h
    obtain ⟨hunused, hwc, rfl⟩ := checked_eq_ok.1 h
    exact checkedSource_eq_ok.2 ⟨hswc, checked_eq_ok.2 ⟨hunused, hwc, rfl⟩⟩
  | _ =>
    obtain ⟨hunused, hwc, rfl⟩ := checked_eq_ok.1 h
    exact checked_eq_ok.2 ⟨hunused, hwc, rfl⟩

theorem decode_withArg {word : BitVec 32} (arg' : BitVec 64) (h : decode k ⟨word, arg⟩ = .ok i) :
    decode k ⟨word, arg'⟩ = .ok (i.withArg arg') := by
  obtain ⟨hrsv, o, ho, h⟩ := decodeFields_eq_ok.1 h
  exact decodeFields_eq_ok.2 ⟨hrsv, o, ho, decodeOperation_withArg arg' h⟩

/-- The operand of a decoded command is the one its own ARG gives. -/
theorem withArg_of_decode {word : BitVec 32} (h : decode k ⟨word, arg⟩ = .ok i) : i.withArg arg = i :=
  Except.ok.inj ((decode_withArg arg h).symm.trans h)

/-- R180: only the word 0x0000003F is CLRERR, because CLRERR has no field but OP. -/
theorem word_of_decode_clrerr {c : Command} (h : decode k c = .ok .clrerr) : c.word = 0x0000003F#32 := by
  obtain ⟨hrsv, o, ho, h⟩ := decodeFields_eq_ok.1 h
  obtain rfl : Opcode.clrerr = o := opcode_of_decodeOperation h
  obtain ⟨hunused, -, -⟩ := checked_eq_ok.1 h
  obtain ⟨hrd, hrs1, hrs2, hwc, haux⟩ := by simpa using hunused
  rw [← wordOf_fieldsOf c.word, wordOf, hrsv, haux, hwc, hrs2, hrs1, hrd, ← opcode_toByte_of_ofByte ho]
  decide

end Sys2Proof
end

section
/-! The decoder against R68 as the statements read it from the bits of the word, the completion of a command (R70, R192),
and the bits of ARG that a command uses (R65). -/

namespace Sys2Proof.Claims

open Sys2Proof.Machine

variable {k : Fin 8} {f : Fields} {arg : BitVec 64} {word : BitVec 32} {o : Opcode} {i : Instr}

/-! ### R68 of the fields of a word -/

/-- The row of R67 for an operation. -/
def rowOf (o : Opcode) : FieldRow :=
  let row := FieldRow.mk o.toByte.toNat
  match o with
  | .clr | .parse | .parsez => row true false false true .zero
  | .mov | .neg | .inc | .dec | .shl | .shr | .not => row true true false true .zero
  | .ldn => row true false false true .native
  | .resize => row true true false true .width
  | .tonat => row false true false true .native
  | .add | .sub | .mul | .div | .mod | .and | .or | .xor => row true true true true .zero
  | .test | .fmt => row false true false true .zero
  | .eq | .ne | .lt | .le | .gt | .ge => row false true true true .zero
  | .clrerr => row false false false false .zero

theorem rowOf_op (o : Opcode) : (rowOf o).op = o.toByte.toNat := by cases o <;> rfl

/-- The table of the statements has one row for each operation, and no other. -/
theorem mem_fieldTable_iff {row : FieldRow} : row ∈ fieldTable ↔ ∃ o, rowOf o = row := by
  have htable : ∀ row ∈ fieldTable, ∃ o ∈ Opcode.all, rowOf o = row := by decide
  constructor
  · intro h
    obtain ⟨o, -, ho⟩ := htable row h
    exact ⟨o, ho⟩
  · rintro ⟨o, rfl⟩
    cases o <;> decide

/-- The fields that a row of R67 lets pass: none of the conditions 3 to 6 of R68 holds. -/
def FieldRow.Obeyed (k : Fin 8) (f : Fields) (row : FieldRow) : Prop :=
  (row.rd = false → f.rd = 0#4) ∧ (row.rs1 = false → f.rs1 = 0#4) ∧ (row.rs2 = false → f.rs2 = 0#4) ∧
    (row.wc = false → f.wc = 0#4) ∧ (row.aux = .zero → f.aux = 0#4) ∧ f.wc.toNat ≤ k.val ∧
    (row.aux = .native → f.aux.toNat < 8) ∧ (row.aux = .width → f.aux.toNat ≤ k.val)

/-- The decoder's checks of an operation are those of its row. -/
theorem exists_decodeOperation_eq_ok :
    (∃ i, decodeOperation k f arg o = .ok i) ↔ (rowOf o).Obeyed k f := by
  cases o with
  | ldn | tonat =>
    refine exists_checkedNative_eq_ok.trans ?_
    simp [FieldRow.Obeyed, rowOf, and_comm, and_assoc, and_left_comm]
  | resize =>
    refine exists_checkedSource_eq_ok.trans ((and_congr_right' exists_checked_eq_ok).trans ?_)
    simp [FieldRow.Obeyed, rowOf, and_comm, and_left_comm]
  | _ =>
    refine exists_checked_eq_ok.trans ?_
    simp [FieldRow.Obeyed, rowOf, and_assoc]

/-- A nibble of the word, as the fields of R61 read it. -/
theorem nibbleAt_eq (word : BitVec 32) (n : Nat) : nibbleAt word n = (word.extractLsb' n 4).toNat := by
  simp [nibbleAt, BitVec.extractLsb'_toNat, Nat.shiftRight_eq_div_pow]

theorem not_violated_iff {row : FieldRow} : ¬ row.Violated k.val word ↔ row.Obeyed k (fieldsOf word) := by
  simp [FieldRow.Violated, FieldRow.Obeyed, fieldsOf, nibbleAt_eq, BitVec.toNat_eq]

theorem fieldsOf_op_toNat : (fieldsOf word).op.toNat = word.toNat % 256 := by
  simp [fieldsOf, BitVec.extractLsb'_toNat]

/-- A row of the table is the word's own when it is the row of the operation that OP names. -/
theorem rowOf_op_eq_iff : (rowOf o).op = word.toNat % 256 ↔ Opcode.ofByte (fieldsOf word).op = some o := by
  rw [rowOf_op, ← fieldsOf_op_toNat, BitVec.toNat_inj]
  constructor
  · intro h
    rw [← h, opcode_ofByte_toByte]
  · exact opcode_toByte_of_ofByte

/-- R68 turned round: a word is legal when RSV is 0, OP names an operation, and the fields obey its row. -/
theorem not_illegal_iff :
    ¬ Illegal k.val word ↔
      (fieldsOf word).rsv = 0#4 ∧
        ∃ o, Opcode.ofByte (fieldsOf word).op = some o ∧ (rowOf o).Obeyed k (fieldsOf word) := by
  have hrsv : nibbleAt word 28 = 0 ↔ (fieldsOf word).rsv = 0#4 := by
    rw [nibbleAt_eq, BitVec.toNat_eq]
    rfl
  simp only [Illegal, not_or, not_not, hrsv, not_forall, not_exists, not_and, mem_fieldTable_iff, not_violated_iff,
    forall_exists_index, forall_apply_eq_imp_iff, exists_exists_eq_and, rowOf_op_eq_iff]
  cases Opcode.ofByte (fieldsOf word).op <;> simp

/-- The decoder answers a command exactly for the words that R68 does not call illegal, whatever ARG is. -/
theorem exists_decode_eq_ok {c : Command} : (∃ i, decode k c = .ok i) ↔ ¬ Illegal k.val c.word := by
  simp only [not_illegal_iff, ← exists_decodeOperation_eq_ok (arg := c.arg), decode, decodeFields_eq_ok]
  constructor
  · rintro ⟨i, hrsv, o, ho, hi⟩
    exact ⟨hrsv, o, ho, i, hi⟩
  · rintro ⟨hrsv, o, ho, i, hi⟩
    exact ⟨i, hrsv, o, ho, hi⟩

theorem exists_decode_eq_error {c : Command} : (∃ e, decode k c = .error e) ↔ Illegal k.val c.word := by
  rw [← not_iff_not, ← exists_decode_eq_ok]
  cases decode k c <;> simp

/-! ### The completion of a command -/

variable {s : State} {c : Command}

theorem step_of_completing (h : Completing s c) : step s = complete c s := by
  obtain ⟨f, hf, rfl, hdue⟩ := h
  simp [step, hf, hdue]

theorem complete_of_decode (h : decode s.params.k c = .ok i) : complete c s = exec i (afterBusy s) := by
  rw [complete, h]
  rfl

/-- R70: an illegal word raises IllegalCommand and does nothing else. -/
theorem complete_of_illegal (he : s.err = .none) (h : Illegal s.params.k.val c.word) :
    complete c s = .next (afterError (afterBusy s) (c.word.extractLsb' 0 8) (.illegalCommand c.word)) := by
  rcases complete_cases s c with ⟨i, hi, -⟩ | ⟨e, -, ⟨-, hc⟩ | ⟨hpending, -⟩⟩
  · exact absurd h (exists_decode_eq_ok.1 ⟨i, hi⟩)
  · exact hc
  · exact absurd he hpending

/-- R192: while an error is pending, a word that is not CLRERR's only lets BUSY fall. -/
theorem complete_of_pending (he : s.err ≠ .none) (hword : c.word ≠ 0x0000003F#32) :
    complete c s = .next (afterBusy s) := by
  rcases complete_cases s c with ⟨i, hi, hc⟩ | ⟨e, -, ⟨hnone, -⟩ | ⟨-, hc⟩⟩
  · have hclrerr : i ≠ .clrerr := by
      rintro rfl
      exact hword (word_of_decode_clrerr hi)
    exact hc.trans (exec_pending i s.retire hclrerr he)
  · exact absurd hnone he
  · exact hc

/-! ### The bits of ARG that a command uses -/

theorem argBase_toNat (arg : BitVec 64) : (argBase arg).toNat = arg.toNat % 2 ^ 32 := by
  simp [argBase, BitVec.extractLsb'_toNat]

/-- R65: a command whose operand comes from ARG does the same with any ARG that has the same bits in the places it uses. -/
theorem exec_withArg_congr {arg' : BitVec 64} (h : usedArg i arg = usedArg i arg') (s : State) :
    exec (i.withArg arg') s = exec (i.withArg arg) s := by
  cases i with
  | ldn rd wc nt =>
    have hfield : nativeField nt arg = nativeField nt arg' := h
    simp only [Instr.withArg, exec, execLdn, hfield]
  | shl | shr | parse =>
    obtain rfl := BitVec.eq_of_toNat_eq h
    rfl
  | parsez | fmt =>
    have hbase : argBase arg = argBase arg' := by
      rw [BitVec.toNat_eq, argBase_toNat, argBase_toNat]
      exact h
    rw [Instr.withArg, Instr.withArg, hbase]
  | _ => rfl

/-- Settles O3: the decoder's checks of each operation are the row of R67 (`exists_decodeOperation_eq_ok`), the rows are the
table of the statement (`mem_fieldTable_iff`), and `complete_of_illegal` is the rejection. -/
theorem exactlyTheIllegalWordsAreRejected : Obligations.ExactlyTheIllegalWordsAreRejected := by
  unfold Obligations.ExactlyTheIllegalWordsAreRejected
  refine fun k c => ⟨exists_decode_eq_error, fun s hk he hillegal => ?_⟩
  subst hk
  exact complete_of_illegal he hillegal

/-- Settles O5: with another ARG the word selects the same command with its operand taken from that ARG
(`decode_withArg`), and what the command does depends on the used bits alone (`exec_withArg_congr`). -/
theorem unnamedArgBitsAreIgnored : Obligations.UnnamedArgBitsAreIgnored := by
  unfold Obligations.UnnamedArgBitsAreIgnored
  intro k word arg arg' i hi
  refine ⟨i.withArg arg', decode_withArg arg' hi, fun hused s => ?_⟩
  rw [exec_withArg_congr hused s, withArg_of_decode hi]

/-- Settles O7: the step is the completion of the command (`step_of_completing`), and each clause is the lemma of its case;
a legal word is one that decodes (`exists_decode_eq_ok`). -/
theorem pendingErrorAndDecodeChecksComeFirst : Obligations.PendingErrorAndDecodeChecksComeFirst := by
  unfold Obligations.PendingErrorAndDecodeChecksComeFirst
  intro s c hcompleting
  rw [step_of_completing hcompleting]
  refine ⟨complete_of_illegal, fun _ hlegal => ?_, fun he hword => ⟨complete_of_pending he hword, rfl⟩⟩
  obtain ⟨i, hi⟩ := exists_decode_eq_ok.2 hlegal
  exact ⟨i, hi, complete_of_decode hi⟩

end Sys2Proof.Claims
end

section
/-! Sign extension and native integers (R9, R83, R86) as operations on bit vectors, and the ends of the commands of
41_construction.md from a state with no error pending. -/

namespace Sys2Proof.Machine

/-! ### Native integers -/

/-- `sext_n` of R9 is the sign extension of bit vectors. -/
theorem toNat_signExtend_ofNat {n m : Nat} (hm : m ≤ n) (v : Nat) :
    ((BitVec.ofNat m v).signExtend n).toNat = signExtend n m (v % 2 ^ m) := by
  have hmsb : (BitVec.ofNat m v).msb = (v % 2 ^ m).testBit (m - 1) := by
    rw [BitVec.msb_eq_getLsbD_last, ← BitVec.testBit_toNat, BitVec.toNat_ofNat]
  rw [BitVec.toNat_signExtend, BitVec.toNat_setWidth_of_le hm, BitVec.toNat_ofNat, hmsb, signExtend]
  split <;> rfl

section

variable (nt : NativeType) (v : Nat)

/-- The n-bit value of the low N bits of `v`, the field widened as the sign of the type asks. -/
theorem nativeValue_mod {n : Nat} (hn : 64 ≤ n) :
    nativeValue nt n (v % 2 ^ nativeWidth nt) =
      if nativeSigned nt then ((BitVec.ofNat (nativeWidth nt) v).signExtend n).toNat else v % 2 ^ nativeWidth nt := by
  rw [nativeValue, toNat_signExtend_ofNat (Nat.le_trans (nativeWidth_le nt) hn)]

/-- R83: the native value is the mathematical value of the field modulo 2^n. -/
theorem nativeValue_eq_toInt_emod {n : Nat} (hn : 64 ≤ n) :
    nativeValue nt n (v % 2 ^ nativeWidth nt) =
      if nativeSigned nt then ((BitVec.ofNat (nativeWidth nt) v).toInt % ((2 ^ n : Nat) : Int)).toNat
      else v % 2 ^ nativeWidth nt := by
  rw [nativeValue_mod nt v hn, BitVec.signExtend, BitVec.toNat_ofInt]

/-- R86: the value of NRES is the field widened to 64 bits. -/
theorem ofNat_toNative :
    BitVec.ofNat 64 (toNative nt v) =
      if nativeSigned nt then (BitVec.ofNat (nativeWidth nt) v).signExtend 64
      else (BitVec.ofNat (nativeWidth nt) v).setWidth 64 := by
  rw [toNative, nativeValue_mod nt v le_rfl, ← BitVec.toNat_ofNat, apply_ite (BitVec.ofNat 64), BitVec.ofNat_toNat,
    BitVec.ofNat_toNat, BitVec.setWidth_eq]

/-- R64: N and the sign of a native type, from its AUX code. -/
theorem nativeWidth_and_nativeSigned_of_toCode :
    nativeWidth nt = 8 * 2 ^ (nt.toCode.toNat % 4) ∧ nativeSigned nt = decide (4 ≤ nt.toCode.toNat) := by
  cases nt <;> decide

end

/-! ### The ends of the commands -/

/-- Writing back a register's own value and tag changes nothing. -/
theorem setWide_self (s : State) (r : Reg) : s.setWide r (s.tagOf r) (s.wide r) = s := by
  simp [State.setWide, State.tagOf, State.wide]

variable {s : State} {rd rs1 : Reg} {wc swc : Nibble} {nt : NativeType} {arg : BitVec 64}

theorem exec_clr (he : s.err = .none) : exec (.clr rd wc) s = .next (s.setWide rd wc 0) := by
  rw [exec, execClr]
  exact command_ok he rfl

theorem exec_mov (he : s.err = .none) (ht : s.tagOf rs1 = wc) :
    exec (.mov rd rs1 wc) s = .next (s.setWide rd wc (s.wide rs1)) :=
  unary_ok he ht

theorem exec_ldn (he : s.err = .none) :
    exec (.ldn rd wc nt arg) s = .next (s.setWide rd wc (nativeValue nt (widthOf wc) (nativeField nt arg))) := by
  rw [exec, execLdn]
  exact command_ok he rfl

theorem exec_resize (he : s.err = .none) (ht : s.tagOf rs1 = swc) :
    exec (.resize rd rs1 wc swc) s = .next (s.setWide rd wc (s.wide rs1 % modulus wc)) := by
  rw [exec, execResize]
  exact command_ok he (reading_ok _ ht)

theorem exec_tonat (he : s.err = .none) (ht : s.tagOf rs1 = wc) :
    exec (.tonat rs1 wc nt) s = .next (s.setNative (toNative nt (s.wide rs1))) :=
  unaryNative_ok he ht

end Sys2Proof.Machine

namespace Sys2Proof

/-- R68 condition 6: the word of a RESIZE whose source width code is above K is rejected for it. -/
theorem decode_encode_resize_of_lt {k : Fin 8} {rd rs1 : Reg} {wc swc : Nibble} (h : k.val < swc.toNat) :
    decode k (encode (.resize rd rs1 wc swc)) = .error .sourceWidth := by
  have hswc : ¬ widthLegal k swc = true := by rw [widthLegal_iff]; omega
  rw [decode, encode, fieldsOf_wordOf, Instr.fields, Laws.FieldsRoundTrip.decodeFields_fieldsFor, decodeOperation]
  exact if_neg hswc

end Sys2Proof

namespace Sys2Proof.Claims

open Sys2Proof.Machine

/-- Settles O23: LDN writes the native value of the field of ARG (`exec_ldn`), which is its mathematical value modulo 2^w
(`nativeValue_eq_toInt_emod`), because w is at least 64. -/
theorem ldnResult : Obligations.LdnResult := by
  unfold Obligations.LdnResult
  refine ⟨fun s rd wc nt arg he => ?_, nativeWidth_and_nativeSigned_of_toCode, fun _ _ _ _ => opByte_eq_toByte _,
    by decide⟩
  have hw : 64 ≤ widthOf wc := Nat.le_trans (by decide) (widthOf_ge wc)
  rw [exec_ldn he, nativeField, nativeValue_eq_toInt_emod nt _ hw]
  rfl

/-- Settles O25: TONAT writes only NRES (`exec_tonat`), and the word written is the low N bits widened to 64
(`ofNat_toNative`). -/
theorem tonatResult : Obligations.TonatResult := by
  unfold Obligations.TonatResult
  refine ⟨fun s rs1 wc nt he ht => ?_, fun _ _ _ => opByte_eq_toByte _, by decide⟩
  rw [exec_tonat he ht, State.setNative, ofNat_toNative]
  rfl

/-- Settles O22: the ends of CLR and MOV (`exec_clr`, `exec_mov`); a MOV of a register to itself writes back what it holds
(`setWide_self`). -/
theorem clrAndMovResults : Obligations.ClrAndMovResults := by
  unfold Obligations.ClrAndMovResults
  refine ⟨fun _ _ _ => exec_clr, fun _ _ _ _ => exec_mov, fun s r wc he ht => ?_, fun _ _ => opByte_eq_toByte _,
    fun _ _ _ => opByte_eq_toByte _, by decide, by decide⟩
  subst ht
  rw [exec_mov he rfl, setWide_self]

/-- Settles O24: a source of width SWC is reduced modulo 2^w (`exec_resize`), one of another width is the fault of the only
source (`exec_of_sourceFault`), and SWC > K is rejected by the decoder (`decode_encode_resize_of_lt`). -/
theorem resizeResult : Obligations.ResizeResult := by
  unfold Obligations.ResizeResult
  refine ⟨fun _ _ _ _ _ => exec_resize, fun _ _ _ _ _ he ht => ?_, fun _ _ _ _ => opByte_eq_toByte _,
    fun _ _ _ _ _ hk => ⟨_, decode_encode_resize_of_lt hk⟩, by decide⟩
  exact exec_of_sourceFault (.resize ..) he (sourceFault_cons_of_ne ht)

end Sys2Proof.Claims
end

section
/-! The ends of the commands of 42_arithmetic.md from a state with no error pending: each writes RD alone, from the values
that its sources held before, so that RD may be a source too (R63). -/

namespace Sys2Proof.Machine

variable {s : State} {rd rs1 rs2 : Reg} {wc : Nibble}

section

variable (he : s.err = .none) (h1 : s.tagOf rs1 = wc)

include he h1

theorem exec_neg :
    exec (.neg rd rs1 wc) s = .next (s.setWide rd wc ((modulus wc - 1 - s.wide rs1 + 1) % modulus wc)) :=
  unary_ok he h1

theorem exec_inc : exec (.inc rd rs1 wc) s = .next (s.setWide rd wc ((s.wide rs1 + 1) % modulus wc)) :=
  unary_ok he h1

theorem exec_dec :
    exec (.dec rd rs1 wc) s = .next (s.setWide rd wc (((s.wide rs1 : Int) - 1) % (modulus wc : Int)).toNat) :=
  unary_ok he h1

variable (h2 : s.tagOf rs2 = wc)

include h2

theorem exec_add :
    exec (.add rd rs1 rs2 wc) s = .next (s.setWide rd wc ((s.wide rs1 + s.wide rs2) % modulus wc)) :=
  binary_ok he h1 h2

theorem exec_sub :
    exec (.sub rd rs1 rs2 wc) s =
      .next (s.setWide rd wc (((s.wide rs1 : Int) - (s.wide rs2 : Int)) % (modulus wc : Int)).toNat) :=
  binary_ok he h1 h2

theorem exec_mul :
    exec (.mul rd rs1 rs2 wc) s = .next (s.setWide rd wc (s.wide rs1 * s.wide rs2 % modulus wc)) :=
  binary_ok he h1 h2

end

end Sys2Proof.Machine

namespace Sys2Proof.Claims

open Sys2Proof.Machine

/-- Settles O26: the ends of ADD and SUB (`exec_add`, `exec_sub`), where 2^w is the modulus of the width code. -/
theorem addAndSubResults : Obligations.AddAndSubResults := by
  unfold Obligations.AddAndSubResults
  exact ⟨fun _ _ _ _ _ he h1 h2 => ⟨exec_add he h1 h2, exec_sub he h1 h2⟩,
    fun _ _ _ _ => ⟨opByte_eq_toByte _, opByte_eq_toByte _⟩, by decide, by decide⟩

/-- Settles O27: the ends of NEG, INC and DEC (`exec_neg`, `exec_inc`, `exec_dec`), where 2^w is the modulus of the width
code. -/
theorem negIncAndDecResults : Obligations.NegIncAndDecResults := by
  unfold Obligations.NegIncAndDecResults
  exact ⟨fun _ _ _ _ he h1 => ⟨exec_neg he h1, exec_inc he h1, exec_dec he h1⟩,
    fun _ _ _ => ⟨opByte_eq_toByte _, opByte_eq_toByte _, opByte_eq_toByte _⟩, by decide, by decide, by decide⟩

/-- Settles O28: the end of MUL (`exec_mul`), where 2^w is the modulus of the width code. -/
theorem mulResult : Obligations.MulResult := by
  unfold Obligations.MulResult
  exact ⟨fun _ _ _ _ _ => exec_mul, fun _ _ _ _ => opByte_eq_toByte _, by decide⟩

end Sys2Proof.Claims
end

section
/-! The ends of the commands of 43_division.md from a state with no error pending and sources of the right width: the
quotient or the remainder in RD, or DivisionByZero of RS2 when the divisor is 0. -/

namespace Sys2Proof.Machine

variable {s : State} {rd rs1 rs2 : Reg} {wc : Nibble}

variable (he : s.err = .none) (h1 : s.tagOf rs1 = wc) (h2 : s.tagOf rs2 = wc)

include he h1 h2

section

variable (h0 : s.wide rs2 ≠ 0)

include h0

theorem exec_div : exec (.div rd rs1 rs2 wc) s = .next (s.setWide rd wc (s.wide rs1 / s.wide rs2)) :=
  dividing_ok he h1 h2 h0

theorem exec_mod : exec (.mod rd rs1 rs2 wc) s = .next (s.setWide rd wc (s.wide rs1 % s.wide rs2)) :=
  dividing_ok he h1 h2 h0

end

section

variable (h0 : s.wide rs2 = 0)

include h0

theorem exec_div_by_zero :
    exec (.div rd rs1 rs2 wc) s = .next (s.raise Opcode.div.toByte (.divisionByZero rs2)) :=
  dividing_zero he h1 h2 h0

theorem exec_mod_by_zero :
    exec (.mod rd rs1 rs2 wc) s = .next (s.raise Opcode.mod.toByte (.divisionByZero rs2)) :=
  dividing_zero he h1 h2 h0

end

end Sys2Proof.Machine

namespace Sys2Proof.Claims

open Sys2Proof.Machine

/-- Settles O29: the ends of DIV and MOD by a divisor that is not 0 (`exec_div`, `exec_mod`) and by 0 (`exec_div_by_zero`,
`exec_mod_by_zero`), where the error state names the OP byte of the command. -/
theorem divAndModResults : Obligations.DivAndModResults := by
  unfold Obligations.DivAndModResults
  refine ⟨fun _ _ _ _ _ he h1 h2 => ⟨fun h0 => ?nonzero, fun h0 => ?zero⟩,
    fun _ _ _ _ => ⟨opByte_eq_toByte _, opByte_eq_toByte _⟩, by decide, by decide⟩
  case nonzero => exact ⟨exec_div he h1 h2 h0, exec_mod he h1 h2 h0⟩
  case zero => exact ⟨exec_div_by_zero he h1 h2 h0, exec_mod_by_zero he h1 h2 h0⟩

end Sys2Proof.Claims
end

section
/-! The ends of the commands of 44_bitops.md from a state with no error pending and sources of the right width: SHL to XOR
write RD alone, and TEST writes NRES alone. -/

namespace Sys2Proof.Machine

variable {s : State} {rd rs1 rs2 : Reg} {wc : Nibble} {amount : BitVec 64}

section

variable (he : s.err = .none) (h1 : s.tagOf rs1 = wc)

include he h1

theorem exec_shl :
    exec (.shl rd rs1 wc amount) s =
      .next (s.setWide rd wc
        (if amount.toNat ≥ widthOf wc then 0 else s.wide rs1 * 2 ^ amount.toNat % modulus wc)) :=
  unary_ok he h1

theorem exec_shr :
    exec (.shr rd rs1 wc amount) s =
      .next (s.setWide rd wc (if amount.toNat ≥ widthOf wc then 0 else s.wide rs1 / 2 ^ amount.toNat)) :=
  unary_ok he h1

theorem exec_not : exec (.not rd rs1 wc) s = .next (s.setWide rd wc (modulus wc - 1 - s.wide rs1)) :=
  unary_ok he h1

theorem exec_test : exec (.test rs1 wc) s = .next (s.setNative (if s.wide rs1 = 0 then 0 else 1)) :=
  unaryNative_ok he h1

variable (h2 : s.tagOf rs2 = wc)

include h2

theorem exec_and : exec (.and rd rs1 rs2 wc) s = .next (s.setWide rd wc (s.wide rs1 &&& s.wide rs2)) :=
  binary_ok he h1 h2

theorem exec_or : exec (.or rd rs1 rs2 wc) s = .next (s.setWide rd wc (s.wide rs1 ||| s.wide rs2)) :=
  binary_ok he h1 h2

theorem exec_xor : exec (.xor rd rs1 rs2 wc) s = .next (s.setWide rd wc (s.wide rs1 ^^^ s.wide rs2)) :=
  binary_ok he h1 h2

end

end Sys2Proof.Machine

namespace Sys2Proof.Claims

open Sys2Proof.Machine

/-- Settles O30: the ends of SHL and SHR (`exec_shl`, `exec_shr`), where w is the width of the width code. -/
theorem shlAndShrResults : Obligations.ShlAndShrResults := by
  unfold Obligations.ShlAndShrResults
  exact ⟨fun _ _ _ _ _ he h1 => ⟨exec_shl he h1, exec_shr he h1⟩,
    fun _ _ _ _ => ⟨opByte_eq_toByte _, opByte_eq_toByte _⟩, by decide, by decide⟩

/-- Settles O31: the ends of NOT (`exec_not`), where 2^w is the modulus of the width code, and of AND, OR and XOR
(`exec_and`, `exec_or`, `exec_xor`). -/
theorem bitwiseResults : Obligations.BitwiseResults := by
  unfold Obligations.BitwiseResults
  exact ⟨fun _ _ _ _ => exec_not,
    fun _ _ _ _ _ he h1 h2 => ⟨exec_and he h1 h2, exec_or he h1 h2, exec_xor he h1 h2⟩,
    fun _ _ _ => opByte_eq_toByte _,
    fun _ _ _ _ => ⟨opByte_eq_toByte _, opByte_eq_toByte _, opByte_eq_toByte _⟩,
    by decide, by decide, by decide, by decide⟩

/-- Settles O32: the end of TEST (`exec_test`), whose 0 or 1 is the word that NRES then holds. -/
theorem testResult : Obligations.TestResult := by
  unfold Obligations.TestResult
  refine ⟨fun s rs1 wc he h1 => ?_, fun _ _ => opByte_eq_toByte _, by decide⟩
  rw [exec_test he h1, State.setNative, apply_ite (BitVec.ofNat 64)]
  rfl

end Sys2Proof.Claims
end

section
/-! The ends of the commands of 45_ordering.md from a state with no error pending and sources of the right width: each
relation writes 1 or 0 to NRES alone. -/

namespace Sys2Proof.Machine

variable {s : State} {rs1 rs2 : Reg} {wc : Nibble}

variable (he : s.err = .none) (h1 : s.tagOf rs1 = wc) (h2 : s.tagOf rs2 = wc)

include he h1 h2

/-- A relation whose test of the two source values decides `P` writes 1 to NRES if `P` holds, else 0 (R24). -/
theorem relation_ok_of_iff {o : Opcode} {p : Nat → Nat → Bool} {P : Prop} [Decidable P]
    (hp : p (s.wide rs1) (s.wide rs2) = true ↔ P) :
    relation o rs1 rs2 wc p s = .next (s.setNative (if P then 1 else 0)) := by
  rw [relation_ok he h1 h2, Bool.toNat, Bool.cond_eq_ite]
  simp only [hp]

theorem exec_eq : exec (.eq rs1 rs2 wc) s = .next (s.setNative (if s.wide rs1 = s.wide rs2 then 1 else 0)) :=
  relation_ok_of_iff he h1 h2 decide_eq_true_iff

theorem exec_ne : exec (.ne rs1 rs2 wc) s = .next (s.setNative (if s.wide rs1 = s.wide rs2 then 0 else 1)) := by
  rw [← ite_not]
  exact relation_ok_of_iff he h1 h2 (by simp)

theorem exec_lt : exec (.lt rs1 rs2 wc) s = .next (s.setNative (if s.wide rs1 < s.wide rs2 then 1 else 0)) :=
  relation_ok_of_iff he h1 h2 decide_eq_true_iff

/-- LE is the negation of less-than with the sources exchanged (R154). -/
theorem exec_le : exec (.le rs1 rs2 wc) s = .next (s.setNative (if s.wide rs1 ≤ s.wide rs2 then 1 else 0)) :=
  relation_ok_of_iff he h1 h2 (by simp)

/-- GT is less-than with the sources exchanged (R155). -/
theorem exec_gt : exec (.gt rs1 rs2 wc) s = .next (s.setNative (if s.wide rs1 > s.wide rs2 then 1 else 0)) :=
  relation_ok_of_iff he h1 h2 decide_eq_true_iff

/-- GE is the negation of less-than (R156). -/
theorem exec_ge : exec (.ge rs1 rs2 wc) s = .next (s.setNative (if s.wide rs1 ≥ s.wide rs2 then 1 else 0)) :=
  relation_ok_of_iff he h1 h2 (by simp)

end Sys2Proof.Machine

namespace Sys2Proof.Claims

open Sys2Proof.Machine

/-- NRES written with one of two naturals holds one of two words, in the words of the statements. -/
theorem setNative_ite (s : State) (P : Prop) [Decidable P] (m n : Nat) :
    s.setNative (if P then m else n) = afterNative s (if P then BitVec.ofNat 64 m else BitVec.ofNat 64 n) := by
  rw [State.setNative, afterNative, apply_ite (BitVec.ofNat 64)]

/-- Settles O33: the ends of EQ, NE, LT, LE, GT and GE (`exec_eq` to `exec_ge`), whose 1 or 0 is the word that NRES then
holds (`setNative_ite`). -/
theorem relationResults : Obligations.RelationResults := by
  unfold Obligations.RelationResults
  refine ⟨fun s rs1 rs2 wc he h1 h2 => ?_,
    fun _ _ _ => ⟨opByte_eq_toByte _, opByte_eq_toByte _, opByte_eq_toByte _, opByte_eq_toByte _, opByte_eq_toByte _,
      opByte_eq_toByte _⟩,
    by decide, by decide, by decide, by decide, by decide, by decide⟩
  rw [exec_eq he h1 h2, exec_ne he h1 h2, exec_lt he h1 h2, exec_le he h1 h2, exec_gt he h1 h2, exec_ge he h1 h2]
  simp only [setNative_ite, BitVec.ofNat_eq_ofNat, and_self]

end Sys2Proof.Claims
end

section
/-! Decimal text (46_text.md R160 to R168): the loops of PARSE and PARSEZ over a run of digits, the digit string of FMT, and
the ends of the three commands from a state with no error pending. -/

namespace Sys2Proof.Machine

variable {s : State} {rd rs1 : Reg} {wc : Nibble} {base length : BitVec 32} {v : Nat} {e : UnitError}

variable (he : s.err = .none)

include he

theorem exec_parse_out_of_text (hb : base.toNat + length.toNat > s.params.textBytes) :
    exec (.parse rd wc base length) s = .next (s.raise Opcode.parse.toByte (.textBounds base)) := by
  rw [exec, execParse]
  exact command_error he (if_pos hb)

section

variable (hb : base.toNat + length.toNat ≤ s.params.textBytes)

include hb

theorem exec_parse_of_ok (h : parseBounded s.textAt (modulus wc) length.toNat base.toNat 0 = .ok v) :
    exec (.parse rd wc base length) s = .next (s.setWide rd wc v) := by
  rw [exec, execParse]
  exact command_ok he (by rw [if_neg hb.not_gt, h])

theorem exec_parse_of_error (h : parseBounded s.textAt (modulus wc) length.toNat base.toNat 0 = .error e) :
    exec (.parse rd wc base length) s = .next (s.raise Opcode.parse.toByte e) := by
  rw [exec, execParse]
  exact command_error he (by rw [if_neg hb.not_gt, h])

end

theorem exec_parsez_of_ok
    (h : parseTerminated s.textAt (modulus wc) base (s.params.textBytes - base.toNat) base.toNat 0 = .ok v) :
    exec (.parsez rd wc base) s = .next (s.setWide rd wc v) := by
  rw [exec, execParsez]
  exact command_ok he (by rw [h])

theorem exec_parsez_of_error
    (h : parseTerminated s.textAt (modulus wc) base (s.params.textBytes - base.toNat) base.toNat 0 = .error e) :
    exec (.parsez rd wc base) s = .next (s.raise Opcode.parsez.toByte e) := by
  rw [exec, execParsez]
  exact command_error he (by rw [h])

section

variable (h1 : s.tagOf rs1 = wc)

include h1

theorem exec_fmt (hb : base.toNat + (formatDecimal (s.wide rs1)).length ≤ s.params.textBytes) :
    exec (.fmt rs1 wc base) s =
      .next ((s.writeText base.toNat (formatDecimal (s.wide rs1))).setNative (formatDecimal (s.wide rs1)).length) := by
  rw [exec, execFmt]
  exact command_ok he ((reading_ok _ h1).trans (if_neg hb.not_gt))

theorem exec_fmt_out_of_text (hb : base.toNat + (formatDecimal (s.wide rs1)).length > s.params.textBytes) :
    exec (.fmt rs1 wc base) s = .next (s.raise Opcode.fmt.toByte (.textBounds base)) := by
  rw [exec, execFmt]
  exact command_error he ((reading_ok _ h1).trans (if_pos hb))

end

end Sys2Proof.Machine

namespace Sys2Proof.Claims

open Sys2Proof.Machine

/-! ### Runs of digits -/

theorem isDigit_iff {c : Byte} : isDigit c = true ↔ Digit c := by simp [isDigit, Digit]

theorem Digit.ne_zero {c : Byte} (h : Digit c) : c ≠ 0 := by
  rintro rfl
  exact absurd h.1 (by decide)

section

variable {text : Nat → Byte} {b n : Nat}

theorem AllDigits.mono {k : Nat} (h : AllDigits text b n) (hk : k ≤ n) : AllDigits text b k :=
  fun i hi => h i (Nat.lt_of_lt_of_le hi hk)

theorem allDigits_succ_iff : AllDigits text b (n + 1) ↔ AllDigits text b n ∧ Digit (text (b + n)) := by
  simp only [AllDigits, Nat.lt_succ_iff_lt_or_eq, or_imp, forall_and, forall_eq]

theorem decimalValue_succ :
    decimalValue text b (n + 1) = decimalValue text b n * 10 + digitValue (text (b + n)) := by
  simp [decimalValue, List.range_succ, digitValue]

/-- R161 at one more digit: the value may be reduced after each digit. -/
theorem decimalValue_succ_mod (m : Nat) :
    (decimalValue text b n % m * 10 + digitValue (text (b + n))) % m = decimalValue text b (n + 1) % m := by
  rw [decimalValue_succ, Nat.add_mod, Nat.mod_mul_mod, ← Nat.add_mod]

/-- R162: after a run of digits the loop of PARSE stands behind it, with its value so far, reduced. -/
theorem parseBounded_of_allDigits (m left : Nat) (h : AllDigits text b n) :
    parseBounded text m (n + left) b 0 = parseBounded text m left (b + n) (decimalValue text b n % m) := by
  induction n generalizing left with
  | zero => simp [decimalValue]
  | succ n ih =>
    obtain ⟨hn, hd⟩ := allDigits_succ_iff.1 h
    calc parseBounded text m (n + 1 + left) b 0
      _ = parseBounded text m (left + 1) (b + n) (decimalValue text b n % m) := by
        rw [Nat.add_right_comm, Nat.add_assoc, ih _ hn]
      _ = parseBounded text m left (b + (n + 1)) (decimalValue text b (n + 1) % m) := by
        rw [parseBounded, if_pos (isDigit_iff.2 hd), decimalValue_succ_mod, Nat.add_assoc]

/-- R163: after a run of digits the loop of PARSEZ stands behind it, since no digit is the terminator. -/
theorem parseTerminated_of_allDigits (m : Nat) (base : BitVec 32) (left : Nat) (h : AllDigits text b n) :
    parseTerminated text m base (n + left) b 0 =
      parseTerminated text m base left (b + n) (decimalValue text b n % m) := by
  induction n generalizing left with
  | zero => simp [decimalValue]
  | succ n ih =>
    obtain ⟨hn, hd⟩ := allDigits_succ_iff.1 h
    calc parseTerminated text m base (n + 1 + left) b 0
      _ = parseTerminated text m base (left + 1) (b + n) (decimalValue text b n % m) := by
        rw [Nat.add_right_comm, Nat.add_assoc, ih _ hn]
      _ = parseTerminated text m base left (b + (n + 1)) (decimalValue text b (n + 1) % m) := by
        rw [parseTerminated, if_neg hd.ne_zero, if_pos (isDigit_iff.2 hd), decimalValue_succ_mod, Nat.add_assoc]

/-- R163: inside TEXT, what comes behind the run of digits is what the loop of PARSEZ looks at next. -/
theorem parseTerminated_inside {textBytes : Nat} (m : Nat) (base : BitVec 32) (h : AllDigits text b n)
    (hn : b + n < textBytes) :
    ∃ left, parseTerminated text m base (textBytes - b) b 0 =
      parseTerminated text m base (left + 1) (b + n) (decimalValue text b n % m) := by
  refine ⟨textBytes - b - n - 1, ?_⟩
  rw [← parseTerminated_of_allDigits m base _ h]
  congr 1
  omega

/-- R163: digits to the end of TEXT take the loop of PARSEZ off the buffer. -/
theorem parseTerminated_off_the_end {textBytes : Nat} (m : Nat) (base : BitVec 32) (h : AllDigits text b n)
    (hn : textBytes ≤ b + n) : parseTerminated text m base (textBytes - b) b 0 = .error (.textBounds base) :=
  parseTerminated_of_allDigits m base 0 (h.mono (Nat.sub_le_iff_le_add'.2 hn))

end

/-! ### The digit string -/

theorem digitString_of_pos {v : Nat} (h : 0 < v) :
    digitString v = (Nat.digits 10 v).reverse.map digitByte := if_neg h.ne'

/-- The digits that FMT writes are the digits of the library, most significant first (R165). -/
theorem formatDecimal_eq_digitString (v : Nat) : formatDecimal v = digitString v := by
  induction v using Nat.strong_induction_on with
  | _ v ih =>
    by_cases hsmall : v < 10
    · rw [formatDecimal_small hsmall]
      rcases Nat.eq_zero_or_pos v with rfl | hpos
      · rfl
      · simp [digitString_of_pos hpos, Nat.digits_of_lt 10 v hpos.ne' hsmall]
    · have hten : 10 ≤ v := Nat.le_of_not_lt hsmall
      rw [formatDecimal_step hten, ih (v / 10) (by omega), digitString_of_pos (by omega),
        digitString_of_pos (by omega), Nat.digits_def' (by decide) (by omega : 0 < v)]
      simp

theorem formatDecimal_length (v : Nat) : (formatDecimal v).length = max 1 (Nat.digits 10 v).length := by
  rw [formatDecimal_eq_digitString]
  rcases Nat.eq_zero_or_pos v with rfl | hpos
  · rfl
  · have hlen : 1 ≤ (Nat.digits 10 v).length := List.length_pos_iff.2 (Nat.digits_ne_nil_iff_ne_zero.2 hpos.ne')
    rw [digitString_of_pos hpos, List.length_map, List.length_reverse, max_eq_right hlen]

/-- R6: no value of w bits has more digits than 2^w - 1. -/
theorem formatDecimal_length_le_maxDigits {w v : Nat} (h : v < 2 ^ w) : (formatDecimal v).length ≤ maxDigits w := by
  rw [maxDigits, formatDecimal_length, formatDecimal_length]
  exact max_le_max le_rfl (Nat.le_length_digits_le 10 _ _ (Nat.le_sub_one_of_lt h))

/-! ### The statements -/

/-- Settles O34: the range check comes first (`exec_parse_out_of_text`); a range of digits ends with their value, and a run
of digits before its end stops at the byte that is none (`parseBounded_of_allDigits`). -/
theorem parseResult : Obligations.ParseResult := by
  unfold Obligations.ParseResult
  refine ⟨fun s rd wc base length he =>
      ⟨exec_parse_out_of_text he, fun hb => ⟨fun hall => ?digits, fun i hi hall hd => ?bad⟩⟩,
    fun _ _ _ _ => opByte_eq_toByte _, by decide⟩
  case digits => exact exec_parse_of_ok he hb (parseBounded_of_allDigits _ 0 hall)
  case bad =>
    refine exec_parse_of_error he hb ?_
    obtain ⟨left, hlen⟩ := Nat.exists_eq_add_of_lt hi
    rw [hlen, Nat.add_assoc, parseBounded_of_allDigits _ _ hall, parseBounded, if_neg (isDigit_iff.not.2 hd)]

/-- Settles O35: behind the run of digits (`parseTerminated_of_allDigits`) stands the terminator, another byte, or the end of
TEXT, and the loop ends there. -/
theorem parsezResult : Obligations.ParsezResult := by
  unfold Obligations.ParsezResult
  refine ⟨fun s rd wc base n he hall => ⟨fun hn h0 => ?terminator, fun hn h0 hd => ?bad, fun hn => ?out⟩,
    fun _ _ _ => opByte_eq_toByte _, by decide, by decide⟩
  case terminator =>
    obtain ⟨left, hloop⟩ := parseTerminated_inside (modulus wc) base hall hn
    exact exec_parsez_of_ok he (hloop.trans (if_pos h0))
  case bad =>
    obtain ⟨left, hloop⟩ := parseTerminated_inside (modulus wc) base hall hn
    exact exec_parsez_of_error he (hloop.trans ((if_neg h0).trans (if_neg (isDigit_iff.not.2 hd))))
  case out => exact exec_parsez_of_error he (parseTerminated_off_the_end _ base hall hn)

/-- Settles O36: digits that fit are written one by one from the base, and nothing else but NRES changes (`exec_fmt`);
digits that do not fit raise TextBounds (`exec_fmt_out_of_text`). The model's digit string is that of the statement
(`formatDecimal_eq_digitString`). -/
theorem fmtResult : Obligations.FmtResult := by
  unfold Obligations.FmtResult
  simp only [← formatDecimal_eq_digitString]
  refine ⟨fun s rs1 wc base he h1 => ⟨fun hb => ?fits, exec_fmt_out_of_text he h1⟩,
    fun wc a ha => ⟨formatDecimal_length_pos a, formatDecimal_length_le_maxDigits ha⟩,
    fun _ _ _ => opByte_eq_toByte _, by decide⟩
  case fits =>
    exact ⟨_, exec_fmt he h1 hb, rfl, writeText_textAt_inside s _ _, writeText_textAt_outside s _ _,
      fun _ => ⟨rfl, rfl⟩, ⟨rfl, rfl, rfl⟩, rfl, rfl, rfl, rfl, rfl, rfl⟩

end Sys2Proof.Claims
end

section
/-! CLRERR (R180): what it clears, the one word that selects it, and every other word whose OP is 0x3F. -/

namespace Sys2Proof.Claims

open Sys2Proof.Machine

variable {k : Fin 8} {c : Command} {s : State}

/-- In a state that keeps R27 there is nothing to clear while no error is pending. -/
theorem clearError_of_errorOk (hs : s.ErrorOk) (he : s.err = .none) : s.clearError = s := by
  obtain ⟨heop, heinfo⟩ := hs he
  rw [State.clearError, ← he, ← heop, ← heinfo]

/-- R180: 0x0000003F is CLRERR for every K and with every ARG, and no other word is. -/
theorem decode_eq_clrerr_iff : decode k c = .ok .clrerr ↔ c.word = 0x0000003F#32 := by
  obtain ⟨word, arg⟩ := c
  refine ⟨word_of_decode_clrerr, ?_⟩
  rintro rfl
  have hfields : fieldsOf 0x0000003F#32 = Instr.clrerr.fields := by decide
  have hzero : decode k ⟨0x0000003F#32, 0⟩ = .ok .clrerr := by
    rw [decode, hfields]
    exact Laws.FieldsRoundTrip.clrerr k rfl
  exact decode_withArg arg hzero

/-- R180: a word with OP = 0x3F and any other bit set is illegal, because OP selects CLRERR and CLRERR is one word. -/
theorem illegal_of_clrerr_op (hop : c.word.extractLsb' 0 8 = 0x3F#8) (hword : c.word ≠ 0x0000003F#32) :
    Illegal k.val c.word := by
  by_contra hlegal
  obtain ⟨i, hi⟩ := exists_decode_eq_ok.2 hlegal
  obtain ⟨-, o, ho, hoperation⟩ := decodeFields_eq_ok.1 hi
  obtain rfl : Opcode.clrerr = o := Option.some.inj ((congrArg Opcode.ofByte hop).symm.trans ho)
  obtain ⟨-, -, rfl⟩ := checked_eq_ok.1 hoperation
  exact hword (word_of_decode_clrerr hi)

/-- Settles O8: `State.clearError` is the state of the first clause, and `clearError_of_errorOk` that it may be the state
before; `decode_eq_clrerr_iff` is the word of CLRERR. Any other word with that OP is illegal (`illegal_of_clrerr_op`), so it
is rejected, or discarded while an error is pending. -/
theorem clrerrClearsOnlyTheError : Obligations.ClrerrClearsOnlyTheError := by
  unfold Obligations.ClrerrClearsOnlyTheError
  refine ⟨fun s => rfl, fun s hs he => congrArg Host.Outcome.next (clearError_of_errorOk hs he),
    fun k c => decode_eq_clrerr_iff, fun s c hcompleting hop hword => ?_⟩
  rw [step_of_completing hcompleting]
  split
  case isTrue he => rw [complete_of_illegal he (illegal_of_clrerr_op hop hword), hop]
  case isFalse he => exact complete_of_pending he hword

end Sys2Proof.Claims
end

section
/-! The EINFO layouts of R190 as numbers: two fields of a register word, one above the other, add up when the lower one stays
below the place of the upper one. -/

namespace Sys2Proof.Machine

/-- A field placed above bits that do not reach it, and not so high that it leaves the word, adds up with them. -/
theorem toNat_shiftLeft_or {n w : Nat} {high low : BitVec w} (hlow : low.toNat < 2 ^ n)
    (hhigh : high.toNat * 2 ^ n < 2 ^ w) : (high <<< n ||| low).toNat = high.toNat * 2 ^ n + low.toNat := by
  rw [BitVec.toNat_or, BitVec.toNat_shiftLeft, Nat.shiftLeft_eq, Nat.mod_eq_of_lt hhigh, Nat.mul_comm,
    ← Nat.two_pow_add_eq_or_of_lt hlow]

/-- A register number in a register word (R190). -/
theorem toNat_ofNat_reg (r : Reg) : (BitVec.ofNat 64 r.val).toNat = r.val := by
  rw [BitVec.toNat_ofNat, Nat.mod_eq_of_lt]
  omega

theorem info_invalidFormat_toNat {address : Nat} (value : Byte) (h : address < 2 ^ 32) :
    (UnitError.invalidFormat address value).info.toNat = value.toNat * 2 ^ 32 + address := by
  have hvalue : (value.setWidth 64).toNat = value.toNat := BitVec.toNat_setWidth_of_le (by decide)
  have haddress : ((BitVec.ofNat 32 address).setWidth 64).toNat = address := by
    rw [BitVec.toNat_setWidth_of_le (by decide), BitVec.toNat_ofNat, Nat.mod_eq_of_lt h]
  rw [UnitError.info, toNat_shiftLeft_or (by rwa [haddress]) (by omega), hvalue, haddress]

theorem info_operandType_toNat (r : Reg) (tag required : Nibble) :
    (UnitError.operandType r tag required).info.toNat = required.toNat * 2 ^ 8 + tag.toNat * 2 ^ 4 + r.val := by
  have hr := toNat_ofNat_reg r
  have htag : (tag.setWidth 64).toNat = tag.toNat := BitVec.toNat_setWidth_of_le (by decide)
  have hrequired : (required.setWidth 64).toNat = required.toNat := BitVec.toNat_setWidth_of_le (by decide)
  have hlow : (tag.setWidth 64 <<< 4 ||| BitVec.ofNat 64 r.val).toNat = tag.toNat * 2 ^ 4 + r.val := by
    rw [toNat_shiftLeft_or (by omega) (by omega), htag, hr]
  rw [UnitError.info, BitVec.or_assoc, toNat_shiftLeft_or (by omega) (by omega), hlow, hrequired, Nat.add_assoc]

end Sys2Proof.Machine

namespace Sys2Proof.Claims

open Sys2Proof.Machine

/-- Settles O18: InvalidFormat and OperandType are the layouts of more than one field (`info_invalidFormat_toNat`,
`info_operandType_toNat`); the others are one field at bit 0, which widening to 64 bits leaves as it is. -/
theorem errorInformationLayouts : Obligations.ErrorInformationLayouts := by
  unfold Obligations.ErrorInformationLayouts
  exact ⟨fun _ => info_invalidFormat_toNat, toNat_ofNat_reg, fun _ => BitVec.toNat_setWidth_of_le (by decide),
    info_operandType_toNat, fun _ => BitVec.toNat_setWidth_of_le (by decide)⟩

end Sys2Proof.Claims
end

section
/-! Errors are precise (R189): of the ends of a command (`Ends`) only the error leaves an error where there was none, and a
word that is rejected ends in the same way. -/

namespace Sys2Proof

/-- The OP byte of a word that decodes is the one its command is encoded with (R61). -/
theorem toByte_opcode_of_decode {k : Fin 8} {c : Command} {i : Instr} (h : decode k c = .ok i) :
    i.opcode.toByte = c.word.extractLsb' 0 8 := by
  obtain ⟨-, o, ho, hoperation⟩ := decodeFields_eq_ok.1 h
  rw [opcode_of_decodeOperation hoperation]
  exact opcode_toByte_of_ofByte ho

end Sys2Proof

namespace Sys2Proof.Machine

variable {i : Instr} {c : Command} {s t : State}

theorem Ends.exists_eq_raise (h : Ends i s t) (he : s.err = .none) (ht : t.err ≠ .none) :
    ∃ e, t = s.raise i.opcode.toByte e := by
  cases h with
  | error e => exact ⟨e, rfl⟩
  | wide | native | text => exact absurd he ht

/-- R189 of a command: an error that it leaves is one it raised, and raising it is all it did. -/
theorem exists_eq_raise_of_exec (he : s.err = .none) (h : exec i s = .next t) (ht : t.err ≠ .none) :
    ∃ e, t = s.raise i.opcode.toByte e := by
  rcases exec_cases i s with ⟨-, hclear⟩ | ⟨-, hpending, -⟩ | ⟨-, -, u, hu, hends⟩
  · cases h.symm.trans hclear
    exact absurd rfl ht
  · exact absurd he hpending
  · cases h.symm.trans hu
    exact hends.exists_eq_raise he ht

/-- R189 of a completion: BUSY falls, and the error of the command or of the rejected word is all that is written. -/
theorem exists_eq_raise_of_complete (he : s.err = .none) (h : complete c s = .next t) (ht : t.err ≠ .none) :
    ∃ e, t = s.retire.raise (c.word.extractLsb' 0 8) e := by
  rcases complete_cases s c with ⟨i, hi, hexec⟩ | ⟨-, -, ⟨-, hreject⟩ | ⟨hpending, -⟩⟩
  · rw [← toByte_opcode_of_decode hi]
    exact exists_eq_raise_of_exec he (hexec.symm.trans h) ht
  · cases h.symm.trans hreject
    exact ⟨_, rfl⟩
  · exact absurd he hpending

end Sys2Proof.Machine

namespace Sys2Proof.Claims

open Sys2Proof.Machine

/-- Settles O20: `exists_eq_raise_of_exec` for a command, and `exists_eq_raise_of_complete` for a step that completes one,
whose state is idle because raising an error leaves BUSY as it fell. -/
theorem errorsArePrecise : Obligations.ErrorsArePrecise := by
  unfold Obligations.ErrorsArePrecise
  refine ⟨fun i s t he hexec ht => ?command, fun s t c he hcompleting hstep ht => ?step⟩
  case command =>
    rw [opByte_eq_toByte]
    exact exists_eq_raise_of_exec he hexec ht
  case step =>
    rw [step_of_completing hcompleting] at hstep
    obtain ⟨e, rfl⟩ := exists_eq_raise_of_complete he hstep ht
    exact ⟨rfl, e, rfl⟩

end Sys2Proof.Claims
end

section
/-! The decoder and the encoder are inverse to each other (R60, R61, R69): the encoder reads back whatever the decoder's checks
let pass, because a field the command does not use is 0 in both. -/

namespace Sys2Proof

variable {k : Fin 8} {f : Fields} {arg : BitVec 64} {o : Opcode} {i : Instr} {c : Command}

/-- Every command is read back from its fields and ARG, for every K it keeps to. -/
theorem decodeFields_fields (i : Instr) : Laws.FieldsRoundTrip.Statement i :=
  match i with
  | .clr rd wc => Laws.FieldsRoundTrip.clr rd wc
  | .mov rd rs1 wc => Laws.FieldsRoundTrip.mov rd rs1 wc
  | .ldn rd wc nt arg => Laws.FieldsRoundTrip.ldn rd wc nt arg
  | .resize rd rs1 wc swc => Laws.FieldsRoundTrip.resize rd rs1 wc swc
  | .tonat rs1 wc nt => Laws.FieldsRoundTrip.tonat rs1 wc nt
  | .add rd rs1 rs2 wc => Laws.FieldsRoundTrip.add rd rs1 rs2 wc
  | .sub rd rs1 rs2 wc => Laws.FieldsRoundTrip.sub rd rs1 rs2 wc
  | .neg rd rs1 wc => Laws.FieldsRoundTrip.neg rd rs1 wc
  | .inc rd rs1 wc => Laws.FieldsRoundTrip.inc rd rs1 wc
  | .dec rd rs1 wc => Laws.FieldsRoundTrip.dec rd rs1 wc
  | .mul rd rs1 rs2 wc => Laws.FieldsRoundTrip.mul rd rs1 rs2 wc
  | .div rd rs1 rs2 wc => Laws.FieldsRoundTrip.div rd rs1 rs2 wc
  | .mod rd rs1 rs2 wc => Laws.FieldsRoundTrip.mod rd rs1 rs2 wc
  | .shl rd rs1 wc amount => Laws.FieldsRoundTrip.shl rd rs1 wc amount
  | .shr rd rs1 wc amount => Laws.FieldsRoundTrip.shr rd rs1 wc amount
  | .not rd rs1 wc => Laws.FieldsRoundTrip.not rd rs1 wc
  | .and rd rs1 rs2 wc => Laws.FieldsRoundTrip.and rd rs1 rs2 wc
  | .or rd rs1 rs2 wc => Laws.FieldsRoundTrip.or rd rs1 rs2 wc
  | .xor rd rs1 rs2 wc => Laws.FieldsRoundTrip.xor rd rs1 rs2 wc
  | .test rs1 wc => Laws.FieldsRoundTrip.test rs1 wc
  | .eq rs1 rs2 wc => Laws.FieldsRoundTrip.eq rs1 rs2 wc
  | .ne rs1 rs2 wc => Laws.FieldsRoundTrip.ne rs1 rs2 wc
  | .lt rs1 rs2 wc => Laws.FieldsRoundTrip.lt rs1 rs2 wc
  | .le rs1 rs2 wc => Laws.FieldsRoundTrip.le rs1 rs2 wc
  | .gt rs1 rs2 wc => Laws.FieldsRoundTrip.gt rs1 rs2 wc
  | .ge rs1 rs2 wc => Laws.FieldsRoundTrip.ge rs1 rs2 wc
  | .parse rd wc base length => Laws.FieldsRoundTrip.parse rd wc base length
  | .parsez rd wc base => Laws.FieldsRoundTrip.parsez rd wc base
  | .fmt rs1 wc base => Laws.FieldsRoundTrip.fmt rs1 wc base
  | .clrerr => Laws.FieldsRoundTrip.clrerr

/-- The decoder's checks of an operation leave a command that keeps to K and is encoded with the fields it was read from. -/
theorem fields_of_decodeOperation (h : decodeOperation k f arg o = .ok i) :
    i.wellFormed k = true ∧ i.fields = { f with rsv := 0#4, op := o.toByte } := by
  cases o with
  | ldn | tonat =>
    obtain ⟨nt, hnt, h⟩ := checkedNative_eq_ok.1 h
    obtain ⟨hunused, hwc, rfl⟩ := checked_eq_ok.1 h
    simp_all [Instr.wellFormed, Instr.widthCode, Instr.sourceWidthCode, Instr.fields, fieldsFor,
      nativeType_toCode_of_ofCode hnt]
  | resize =>
    obtain ⟨hswc, h⟩ := checkedSource_eq_ok.1 h
    obtain ⟨hunused, hwc, rfl⟩ := checked_eq_ok.1 h
    simp_all [Instr.wellFormed, Instr.widthCode, Instr.sourceWidthCode, Instr.fields, fieldsFor]
  | _ =>
    obtain ⟨hunused, hwc, rfl⟩ := checked_eq_ok.1 h
    simp_all [Instr.wellFormed, Instr.widthCode, Instr.sourceWidthCode, Instr.fields, fieldsFor]

theorem wellFormed_of_decode (h : decode k c = .ok i) : i.wellFormed k = true := by
  obtain ⟨-, o, -, h⟩ := decodeFields_eq_ok.1 h
  exact (fields_of_decodeOperation h).1

/-- R69: the command of a word is encoded to that word. -/
theorem wordOf_fields_of_decode (h : decode k c = .ok i) : wordOf i.fields = c.word := by
  obtain ⟨hrsv, o, ho, h⟩ := decodeFields_eq_ok.1 h
  rw [(fields_of_decodeOperation h).2, opcode_toByte_of_ofByte ho, ← hrsv]
  exact wordOf_fieldsOf c.word

end Sys2Proof

namespace Sys2Proof.Claims

open Sys2Proof.Machine

theorem argOf_argBase_argLength (arg : BitVec 64) : argOf (argBase arg) (argLength arg) = arg := by
  have hbase : ((argBase arg).setWidth 64).toNat = arg.toNat % 2 ^ 32 := by
    rw [BitVec.toNat_setWidth_of_le (by decide), argBase_toNat]
  have hlength : ((argLength arg).setWidth 64).toNat = arg.toNat / 2 ^ 32 := by
    rw [BitVec.toNat_setWidth_of_le (by decide), argLength, BitVec.extractLsb'_toNat, Nat.shiftRight_eq_div_pow,
      Nat.mod_eq_of_lt (by omega)]
  apply BitVec.eq_of_toNat_eq
  rw [argOf, toNat_shiftLeft_or (by omega) (by omega), hbase, hlength, Nat.div_add_mod']

/-- The encoder writes the bits of ARG that a command uses. -/
theorem usedArg_withArg (i : Instr) (arg : BitVec 64) :
    usedArg (i.withArg arg) (i.withArg arg).arg = usedArg (i.withArg arg) arg := by
  cases i with
  | parse =>
    simp only [Instr.withArg, Instr.arg, usedArg, argOf_argBase_argLength]
  | parsez | fmt =>
    simp only [Instr.withArg, Instr.arg, usedArg]
    rw [← argBase_toNat, ← argBase_toNat, argBase_argOf]
  | _ => rfl

/-- Settles O1: each command is read back from its fields (`decodeFields_fields`), and the fields from the word they make
(`fieldsOf_wordOf`). -/
theorem decodeOfEncodeIsTheCommand : Obligations.DecodeOfEncodeIsTheCommand := by
  unfold Obligations.DecodeOfEncodeIsTheCommand
  intro k i hi
  rw [decode, encode, fieldsOf_wordOf]
  exact decodeFields_fields i k hi

/-- Settles O2: what the decoder checked gives K and the fields (`wordOf_fields_of_decode`); the operand of the command is the
one its own ARG gives (`withArg_of_decode`), so the bits it uses are those of that ARG (`usedArg_withArg`). -/
theorem encodeOfDecodeIsTheWord : Obligations.EncodeOfDecodeIsTheWord := by
  unfold Obligations.EncodeOfDecodeIsTheWord
  intro k c i hi
  refine ⟨wellFormed_of_decode hi, wordOf_fields_of_decode hi, ?_⟩
  have hused := usedArg_withArg i c.arg
  rwa [withArg_of_decode hi] at hused

/-- Settles O4: the decoder, run on each word. -/
theorem specExampleWordsDecode : Obligations.SpecExampleWordsDecode := by
  unfold Obligations.SpecExampleWordsDecode
  decide

end Sys2Proof.Claims
end

section
/-! What a command leaves unchanged (R23, R24, R48, R189), read off the ends of a command (`Ends`). -/

namespace Sys2Proof.Machine

variable {i : Instr} {s t : State}

theorem exists_exec_eq_next (i : Instr) (s : State) : ∃ t, exec i s = .next t := by
  rcases exec_cases i s with ⟨-, h⟩ | ⟨-, -, h⟩ | ⟨-, -, t, h, -⟩ <;> exact ⟨_, h⟩

/-- What the state after a command can be: CLRERR's, the same state, or an end of the command. -/
theorem cases_of_exec (h : exec i s = .next t) : (i = .clrerr ∧ t = s.clearError) ∨ t = s ∨ Ends i s t := by
  rcases exec_cases i s with ⟨hi, h'⟩ | ⟨-, -, h'⟩ | ⟨-, -, u, h', hends⟩ <;> cases h.symm.trans h'
  · exact .inl ⟨hi, rfl⟩
  · exact .inr (.inl rfl)
  · exact .inr (.inr hends)

/-- The wide destination of a command and NRES are never both written (R23, R24). -/
theorem writesNative_of_destOf {rd : Reg} (h : destOf i = some rd) : writesNative i.opcode = false := by
  cases i with
  | tonat | test | eq | ne | lt | le | gt | ge | fmt | clrerr => cases h
  | _ => rfl

end Sys2Proof.Machine

namespace Sys2Proof.Claims

open Sys2Proof.Machine

variable {i : Instr} {s t : State}

theorem SamePort.refl (s : State) : SamePort s s := ⟨rfl, rfl, rfl, rfl, rfl, rfl⟩

theorem SameError.refl (s : State) : SameError s s := ⟨rfl, rfl, rfl⟩

theorem SameWide.refl (s : State) : SameWide s s := fun _ => ⟨rfl, rfl⟩

/-- No command changes the parameters, the command in flight, the host's side of the port or the model's counters. -/
theorem samePort_of_exec (h : exec i s = .next t) : SamePort s t := by
  rcases cases_of_exec h with ⟨-, rfl⟩ | rfl | hends
  · exact .refl s
  · exact .refl t
  · cases hends <;> exact .refl s

/-- Only FMT writes TEXT (R48). -/
theorem textAt_of_exec (h : exec i s = .next t) (hfmt : i.opcode ≠ .fmt) (a : Nat) : t.textAt a = s.textAt a := by
  rcases cases_of_exec h with ⟨-, rfl⟩ | rfl | hends
  · rfl
  · rfl
  · cases hends with
    | error | wide | native => rfl
    | text rs1 wc base hi => exact absurd (congrArg Instr.opcode hi) hfmt

/-- A command that changes NRES is one of R24, and it changes neither a wide register nor the error registers. -/
theorem frame_of_nres_ne (h : exec i s = .next t) (hn : t.nres ≠ s.nres) :
    writesNative i.opcode = true ∧ SameError s t ∧ SameWide s t := by
  rcases cases_of_exec h with ⟨-, rfl⟩ | rfl | hends
  · exact absurd rfl hn
  · exact absurd rfl hn
  · cases hends with
    | error | wide => exact absurd rfl hn
    | native v hw => exact ⟨hw, .refl s, .refl s⟩
    | text rs1 wc base hi => exact ⟨hi ▸ rfl, .refl s, .refl s⟩

/-- Settles O38: of the ends of a command only the wide write is left besides the error, and it is at the destination. -/
theorem wideCommandFrame : Obligations.WideCommandFrame := by
  unfold Obligations.WideCommandFrame
  intro i s t rd hd h
  have hnative := writesNative_of_destOf hd
  have hfmt : i.opcode ≠ .fmt := fun e => by simp [e, writesNative] at hnative
  have hnres : t.nres = s.nres := by
    by_contra hne
    exact absurd (frame_of_nres_ne h hne).1 (by simp [hnative])
  suffices hwide : (∀ r, r ≠ rd → t.wide r = s.wide r ∧ t.tagOf r = s.tagOf r) ∧ (SameError s t ∨ SameWide s t) from
    ⟨hwide.1, hnres, textAt_of_exec h hfmt, samePort_of_exec h, hwide.2⟩
  rcases cases_of_exec h with ⟨rfl, -⟩ | rfl | hends
  · cases hd
  · exact ⟨fun _ _ => ⟨rfl, rfl⟩, .inl (.refl t)⟩
  · cases hends with
    | error e => exact ⟨fun _ _ => ⟨rfl, rfl⟩, .inr (.refl s)⟩
    | wide rd' wc v hend =>
      obtain rfl : rd' = rd := Option.some.inj (hend.1.symm.trans hd)
      exact ⟨fun r hr => ⟨setWide_wide_other s rd' r wc v hr, setWide_tagOf_other s rd' r wc v hr⟩, .inl (.refl s)⟩
    | native v hw => exact absurd hw (by simp [hnative])
    | text rs1 wc base hi => exact absurd (congrArg Instr.opcode hi) hfmt

/-- Settles O39: of the ends of a command only the native result is left besides the error. -/
theorem nativeCommandFrame : Obligations.NativeCommandFrame := by
  unfold Obligations.NativeCommandFrame
  intro i s t hw hfmt h
  suffices hframe : SameWide s t ∧ (SameError s t ∨ t.nres = s.nres) from
    ⟨hframe.1, textAt_of_exec h hfmt, samePort_of_exec h, hframe.2⟩
  rcases cases_of_exec h with ⟨rfl, -⟩ | rfl | hends
  · cases hw
  · exact ⟨.refl t, .inl (.refl t)⟩
  · cases hends with
    | error e => exact ⟨.refl s, .inr rfl⟩
    | wide rd wc v hend => exact absurd hw (by simp [writesNative_of_destOf hend.1])
    | native v => exact ⟨.refl s, .inl (.refl s)⟩
    | text rs1 wc base hi => exact absurd (congrArg Instr.opcode hi) hfmt

/-- Settles O40: FMT ends with an error or with the digits of its source at the base, and bytes outside a range that is
written keep their values (`writeText_textAt_outside`). -/
theorem fmtFrame : Obligations.FmtFrame := by
  unfold Obligations.FmtFrame
  intro s t rs1 wc base h
  suffices hframe : SameWide s t ∧
      (∀ a, a < base.toNat ∨ base.toNat + (formatDecimal (s.wide rs1)).length ≤ a → t.textAt a = s.textAt a) ∧
      (SameError s t ∨ (t.nres = s.nres ∧ ∀ a, t.textAt a = s.textAt a)) from
    ⟨hframe.1, samePort_of_exec h, hframe.2⟩
  rcases cases_of_exec h with ⟨hclrerr, -⟩ | rfl | hends
  · cases hclrerr
  · exact ⟨.refl t, fun _ _ => rfl, .inl (.refl t)⟩
  · cases hends with
    | error e => exact ⟨.refl s, fun _ _ => rfl, .inr ⟨rfl, fun _ => rfl⟩⟩
    | wide rd wc v hend => cases hend.1
    | native v hw hd hfmt => exact absurd rfl hfmt
    | text rs1' wc' base' hi =>
      cases hi
      exact ⟨.refl s, writeText_textAt_outside s _ _, .inl (.refl s)⟩

/-- Settles O41: `frame_of_nres_ne`, and the commands of R24 one by one. -/
theorem onlyNativeCommandsWriteNres : Obligations.OnlyNativeCommandsWriteNres := by
  unfold Obligations.OnlyNativeCommandsWriteNres
  intro i s t h hn
  obtain ⟨hw, hframe⟩ := frame_of_nres_ne h hn
  have hlist : ∀ o, writesNative o = true → o ∈ [Opcode.tonat, .test, .eq, .ne, .lt, .le, .gt, .ge, .fmt] := by
    intro o ho
    cases o with
    | tonat | test | eq | ne | lt | le | gt | ge | fmt => decide
    | _ => cases ho
  exact ⟨hlist _ hw, hframe⟩

end Sys2Proof.Claims
end

section
/-! A whole step (R44 to R47, R210 to R218): the completion of a command, or one operation of the host, each with what it
leaves unchanged. -/

namespace Sys2Proof.Machine

variable {s t : State} {c : Command}

/-- A completion is what a command does, or the rejection of its word, after BUSY has fallen (R70, R191). -/
theorem cases_of_complete (h : complete c s = .next t) :
    (∃ i, decode s.params.k c = .ok i ∧ exec i s.retire = .next t) ∨
      t = s.retire.raise (c.word.extractLsb' 0 8) (.illegalCommand c.word) ∨ t = s.retire := by
  rcases complete_cases s c with ⟨i, hi, h'⟩ | ⟨-, -, ⟨-, h'⟩ | ⟨-, h'⟩⟩
  · exact .inl ⟨i, hi, h'.symm.trans h⟩
  · cases h.symm.trans h'
    exact .inr (.inl rfl)
  · cases h.symm.trans h'
    exact .inr (.inr rfl)

theorem exists_complete_eq_next (c : Command) (s : State) : ∃ t, complete c s = .next t := by
  rcases complete_cases s c with ⟨i, -, h⟩ | ⟨-, -, ⟨-, h⟩ | ⟨-, h⟩⟩
  · rw [h]
    exact exists_exec_eq_next i s.retire
  · exact ⟨_, h⟩
  · exact ⟨_, h⟩

/-- A unit with a command that is not yet due is busy, and it waits for an operation of the host that is not an ISSUE. -/
theorem host_of_not_unitActs {f : InFlight} (h : unitActs f s = false) :
    f.opsLeft ≠ 0 ∧ ∃ op rest, s.host = op :: rest ∧ ∀ c, op ≠ .issue c := by
  cases hh : s.host with
  | nil => simp [unitActs, hh] at h
  | cons op rest =>
    cases op with
    | issue c => simp [unitActs, hh] at h
    | read | textRead | textWrite | reset => simp_all [unitActs]

/-! ### The text port -/

section

variable {a : BitVec 32} {v : Byte}

/-- R47: a TEXT_WRITE that is not discarded. -/
theorem textWrite_of_idle (hb : s.busy = false) (ha : a.toNat < s.params.textBytes) :
    s.textWrite a v = { s with text := Memory.write s.text a.toNat v } := by
  simp [State.textWrite, hb, ha]

/-- R47: a TEXT_WRITE that is discarded. -/
theorem textWrite_of_discarded (h : s.busy = true ∨ a.toNat ≥ s.params.textBytes) : s.textWrite a v = s := by
  rcases h with h | h <;> simp [State.textWrite, h]

theorem textWrite_cases (s : State) (a : BitVec 32) (v : Byte) :
    (s.busy = false ∧ a.toNat < s.params.textBytes ∧
        s.textWrite a v = { s with text := Memory.write s.text a.toNat v }) ∨
      ((s.busy = true ∨ a.toNat ≥ s.params.textBytes) ∧ s.textWrite a v = s) := by
  by_cases hb : s.busy = true
  · exact .inr ⟨.inl hb, textWrite_of_discarded (.inl hb)⟩
  · by_cases ha : a.toNat < s.params.textBytes
    · have hidle := Bool.eq_false_of_not_eq_true hb
      exact .inl ⟨hidle, ha, textWrite_of_idle hidle ha⟩
    · have hout := Nat.le_of_not_lt ha
      exact .inr ⟨.inr hout, textWrite_of_discarded (.inr hout)⟩

theorem textRead_of_outside (ha : a.toNat ≥ s.params.textBytes) : s.textRead a = s.reply (.byte 0x00) := if_pos ha

theorem textRead_of_busy (ha : a.toNat < s.params.textBytes) (hb : s.busy = true) : s.textRead a = s.replyFreeByte := by
  rw [State.textRead, if_neg ha.not_ge, if_pos hb]

theorem textRead_of_idle (ha : a.toNat < s.params.textBytes) (hb : s.busy = false) :
    s.textRead a = s.reply (.byte (s.textAt a.toNat)) := by
  rw [State.textRead, if_neg ha.not_ge, if_neg (by simp [hb])]

theorem textAt_write_same :
    ({ s with text := Memory.write s.text a.toNat v } : State).textAt a.toNat = v := by simp [State.textAt]

theorem textAt_write_other {x : Nat} (h : x ≠ a.toNat) :
    ({ s with text := Memory.write s.text a.toNat v } : State).textAt x = s.textAt x := by
  simp [State.textAt, Memory.lookup_write_other _ _ _ _ h]

end

/-! ### The operations of the port -/

/-- Everything an operation of the host can do: an accepted command, a reply, a byte of TEXT written, or a RESET (R44). A
TEXT_WRITE that is discarded is among the second. -/
theorem perform_cases (s : State) (op : HostOp) :
    (∃ c, op = .issue c) ∨
      (∃ replies draws, s.perform op = { s with replies := replies, draws := draws }) ∨
      (∃ a v, op = .textWrite a v ∧ s.busy = false ∧ a.toNat < s.params.textBytes ∧
        s.perform op = { s with text := Memory.write s.text a.toNat v }) ∨
      op = .reset := by
  cases op with
  | issue c => exact .inl ⟨c, rfl⟩
  | read p =>
    by_cases hv : s.ReadValid p
    · exact .inr (.inl ⟨_, _, read_of_readValid hv⟩)
    · exact .inr (.inl ⟨_, _, read_of_not_readValid hv⟩)
  | textRead a =>
    by_cases ha : a.toNat < s.params.textBytes
    · cases hb : s.busy with
      | true => exact .inr (.inl ⟨_, _, textRead_of_busy ha hb⟩)
      | false => exact .inr (.inl ⟨_, _, textRead_of_idle ha hb⟩)
    · exact .inr (.inl ⟨_, _, textRead_of_outside (Nat.le_of_not_lt ha)⟩)
  | textWrite a v =>
    rcases textWrite_cases s a v with ⟨hb, ha, h⟩ | ⟨-, h⟩
    · exact .inr (.inr (.inl ⟨a, v, rfl, hb, ha, h⟩))
    · exact .inr (.inl ⟨_, _, h⟩)
  | reset => exact .inr (.inr (.inr rfl))

theorem status_resetPort (s : State) : s.resetPort.status = 0 := by
  simp [State.status, State.busy, State.resetPort, State.resetOf, ErrCode.toBits]

end Sys2Proof.Machine

namespace Sys2Proof.Claims

open Sys2Proof.Machine

variable {s t : State} {c : Command} {op : HostOp} {rest : List HostOp} {a : BitVec 32} {v : Byte}

theorem SameUnit.refl (s : State) : SameUnit s s := ⟨rfl, rfl, rfl, rfl, rfl, rfl, rfl, fun _ => rfl⟩

theorem SameUnit.trans {u : State} (h1 : SameUnit s t) (h2 : SameUnit t u) : SameUnit s u := by
  obtain ⟨hp, hw, ht, hn, he, ho, hi, hx⟩ := h1
  obtain ⟨hp', hw', ht', hn', he', ho', hi', hx'⟩ := h2
  exact ⟨hp'.trans hp, hw'.trans hw, ht'.trans ht, hn'.trans hn, he'.trans he, ho'.trans ho, hi'.trans hi,
    fun a => (hx' a).trans (hx a)⟩

/-- R45: a completion lets BUSY fall and touches neither the parameters nor the host's list. -/
theorem port_of_complete (h : complete c s = .next t) :
    t.params = s.params ∧ t.inFlight = none ∧ t.host = s.host := by
  rcases cases_of_complete h with ⟨i, -, hexec⟩ | rfl | rfl
  · obtain ⟨hparams, hflight, hhost, -⟩ := samePort_of_exec hexec
    exact ⟨hparams, hflight, hhost⟩
  · exact ⟨rfl, rfl, rfl⟩
  · exact ⟨rfl, rfl, rfl⟩

/-! ### Operations of the host -/

/-- The host's turn at an idle unit. -/
theorem hostTurn_of_idle (hidle : s.inFlight = none) (hhost : s.host = op :: rest) : HostTurn s op rest :=
  ⟨hhost, fun f hf => by simp [hidle] at hf⟩

/-- R45: the state after an idle unit has accepted a command. -/
theorem step_of_idle_issue (hidle : s.inFlight = none) (hhost : s.host = .issue c :: rest) :
    step s = .next ((s.takeOp rest).accept c) :=
  step_of_hostTurn (hostTurn_of_idle hidle hhost)

/-- R46, R47: an operation that is neither a TEXT_WRITE that lands nor a RESET leaves the unit as it was. -/
theorem sameUnit_perform (hreset : op ≠ .reset) (hwrite : ∀ a v, op = .textWrite a v → s.busy = true) :
    SameUnit s (s.perform op) := by
  rcases perform_cases s op with ⟨c, rfl⟩ | ⟨replies, draws, h⟩ | ⟨a, v, hop, hidle, -⟩ | h
  · exact .refl s
  · rw [h]
    exact .refl s
  · exact absurd (hwrite a v hop) (by simp [hidle])
  · exact absurd h hreset

/-- Only RESET changes a register or the error state at the port (R44). -/
theorem registers_of_perform (hreset : op ≠ .reset) :
    (s.perform op).w = s.w ∧ (s.perform op).tag = s.tag ∧ (s.perform op).nres = s.nres ∧ SameError s (s.perform op) := by
  rcases perform_cases s op with ⟨c, rfl⟩ | ⟨replies, draws, h⟩ | ⟨a, v, -, -, -, h⟩ | h
  · exact ⟨rfl, rfl, rfl, .refl s⟩
  · rw [h]
    exact ⟨rfl, rfl, rfl, .refl s⟩
  · rw [h]
    exact ⟨rfl, rfl, rfl, .refl s⟩
  · exact absurd h hreset

/-- At the port only a TEXT_WRITE to an idle unit and RESET change a byte of TEXT (R47, R210). -/
theorem writer_of_perform {x : Nat} (hne : (s.perform op).textAt x ≠ s.textAt x) :
    (∃ a v, op = .textWrite a v ∧ s.busy = false ∧ a.toNat = x) ∨ op = .reset := by
  rcases perform_cases s op with ⟨c, rfl⟩ | ⟨replies, draws, h⟩ | ⟨a, v, hop, hidle, -, h⟩ | h
  · exact absurd rfl hne
  · exact absurd (congrArg (State.textAt · x) h) hne
  · refine .inl ⟨a, v, hop, hidle, ?_⟩
    by_contra hx
    exact hne ((congrArg (State.textAt · x) h).trans (textAt_write_other (Ne.symm hx)))
  · exact .inr h

/-- R218: while a command in flight is not due, a step that is no RESET changes nothing of the unit, and the command keeps one
host operation less to wait for. -/
theorem step_of_waiting {f : InFlight} (hf : s.inFlight = some f) (hdue : unitActs f s = false)
    (hreset : ∀ op ∈ s.host.take f.opsLeft, op ≠ .reset) :
    ∃ op rest t, s.host = op :: rest ∧ step s = .next t ∧ SameUnit s t ∧ t.host = rest ∧
      t.inFlight = some { f with opsLeft := f.opsLeft - 1 } := by
  obtain ⟨hops, op, rest, hhost, hissue⟩ := host_of_not_unitActs hdue
  have hop : op ≠ .reset := by
    refine hreset op ?_
    obtain ⟨n, hn⟩ := Nat.exists_eq_succ_of_ne_zero hops
    simp [hhost, hn]
  have hturn : HostTurn s op rest := ⟨hhost, fun g hg => by cases hf.symm.trans hg; exact hdue⟩
  have hbusy : (s.takeOp rest).busy = true := by simp [State.busy, hf]
  refine ⟨op, rest, _, hhost, step_of_hostTurn hturn,
    (sameUnit_takeOp s rest).trans (sameUnit_perform hop fun _ _ _ => hbusy), ?_⟩
  have hflight : (s.takeOp rest).inFlight = some { f with opsLeft := f.opsLeft - 1 } := by simp [hf]
  rcases perform_cases (s.takeOp rest) op with ⟨c, h⟩ | ⟨replies, draws, h⟩ | ⟨a, v, -, hidle, -⟩ | h
  · exact absurd h (hissue c)
  · rw [h]
    exact ⟨rfl, hflight⟩
  · exact absurd hbusy (by simp [hidle])
  · exact absurd h hop

theorem answered_replyFreeByte :
    Answered s rest (.byte (Config.busyByte s.draws)) (s.takeOp rest).replyFreeByte :=
  ⟨rfl, rfl, sameUnit_takeOp s rest, takeOp_busy s rest, sameCommand_takeOp s rest⟩

/-- A run begins with one step. -/
theorem run_succ_of_step {M : Host.Core} {s t : M.State} (h : M.step s = .next t) (n : Nat) :
    M.run (n + 1) s = M.run n t := by
  rw [Host.Core.run, h]

/-! ### The statements -/

/-- Settles O6: the step is the completion (`step_of_completing`), and a word that decodes is executed. -/
theorem stepRunsTheDecodedCommand : Obligations.StepRunsTheDecodedCommand := by
  unfold Obligations.StepRunsTheDecodedCommand
  intro s c i hcompleting hi
  exact (step_of_completing hcompleting).trans (complete_of_decode hi)

/-- Settles O9: an idle unit accepts (`step_of_idle_issue`); an ISSUE that waits makes the command due, and its completion
leaves the host's list (`port_of_complete`). -/
theorem issueIsAcceptedOnlyWhenIdle : Obligations.IssueIsAcceptedOnlyWhenIdle := by
  unfold Obligations.IssueIsAcceptedOnlyWhenIdle
  refine fun s c rest hhost => ⟨fun hidle => ?idle, fun f hf => ?busy⟩
  case idle =>
    exact ⟨_, _, step_of_idle_issue hidle hhost, rfl, rfl, rfl, rfl, rfl, .refl s⟩
  case busy =>
    have hstep : step s = complete f.cmd s := step_of_completing ⟨f, hf, rfl, by simp [unitActs, hhost]⟩
    obtain ⟨t, ht⟩ := exists_complete_eq_next f.cmd s
    obtain ⟨-, hflight, hhost'⟩ := port_of_complete ht
    exact ⟨hstep, t, hstep.trans ht, hhost', by simp [State.busy, hflight]⟩

/-- Settles O11: outside TEXT the reply is 0x00, inside it is free while BUSY = 1 and the byte of TEXT while BUSY = 0; each is
a reply that changes nothing else (`Answered`). -/
theorem hostTextReads : Obligations.HostTextReads := by
  unfold Obligations.HostTextReads
  intro s a rest hturn
  suffices hanswer : ∃ v, Answered s rest (.byte v) ((s.takeOp rest).textRead a) ∧
      (a.toNat ≥ s.params.textBytes → v = 0x00#8) ∧
      (a.toNat < s.params.textBytes → s.busy = false → v = s.textAt a.toNat) by
    obtain ⟨v, ⟨hreplies, hhost, hunit, hbusy, hcmd⟩, hvalue⟩ := hanswer
    exact ⟨_, v, step_of_hostTurn hturn, hreplies, hhost, hunit, hbusy, hcmd, hvalue⟩
  by_cases ha : a.toNat < s.params.textBytes
  · cases hb : s.busy with
    | true =>
      rw [textRead_of_busy (s := s.takeOp rest) ha ((takeOp_busy s rest).trans hb)]
      exact ⟨_, answered_replyFreeByte, fun h => absurd ha h.not_gt, nofun⟩
    | false =>
      rw [textRead_of_idle (s := s.takeOp rest) ha ((takeOp_busy s rest).trans hb)]
      exact ⟨_, answered_reply, fun h => absurd ha h.not_gt, fun _ _ => rfl⟩
  · rw [textRead_of_outside (s := s.takeOp rest) (Nat.le_of_not_lt ha)]
    exact ⟨_, answered_reply, fun _ => rfl, fun h => absurd h ha⟩

/-- Settles O12: a TEXT_WRITE lands or is discarded (`textWrite_cases`), and landing is one write to the buffer
(`textAt_write_same`, `textAt_write_other`). -/
theorem hostTextWrites : Obligations.HostTextWrites := by
  unfold Obligations.HostTextWrites
  intro s a v rest hturn
  refine ⟨_, step_of_hostTurn hturn, ?_⟩
  rw [State.perform, ← takeOp_busy s rest]
  rcases textWrite_cases (s.takeOp rest) a v with ⟨hb, ha, h⟩ | ⟨hdiscarded, h⟩ <;> rw [h]
  · refine ⟨rfl, rfl, rfl, sameCommand_takeOp s rest, rfl, rfl, .refl s, .refl s,
      fun x hx => textAt_write_other hx, fun _ _ => textAt_write_same, fun h => ?_⟩
    rcases h with h | h
    · exact absurd h (by simp [hb])
    · exact absurd ha h.not_gt
  · refine ⟨rfl, rfl, rfl, sameCommand_takeOp s rest, rfl, rfl, .refl s, .refl s, fun x _ => rfl,
      fun hb ha => ?_, fun _ => rfl⟩
    rcases hdiscarded with h | h
    · exact absurd h (by simp [hb])
    · exact absurd ha h.not_gt

/-- Settles O13: the step is the RESET (`step_of_hostTurn`), whose state is the reset state but for what is the host's; it is
idle, so it accepts the next ISSUE. -/
theorem resetPortResetsTheUnit : Obligations.ResetPortResetsTheUnit := by
  unfold Obligations.ResetPortResetsTheUnit
  intro s rest hturn
  refine ⟨_, step_of_hostTurn hturn, fun r => ?_, rfl, status_resetPort _, rfl, rfl, rfl, rfl, rfl, fun _ => rfl,
    fun c rest' hrest => ?_⟩
  · simp [State.perform, State.resetPort, State.resetOf, State.wide, State.tagOf, emptyTag]
  · exact ⟨_, _, step_of_idle_issue rfl hrest, rfl, rfl, rfl, rfl⟩

/-- Settles O14: the fields of the reset state, evaluated. -/
theorem resetStateHoldsTheResetValues : Obligations.ResetStateHoldsTheResetValues := by
  unfold Obligations.ResetStateHoldsTheResetValues
  decide

/-- Settles O15: a completion answers a next state, and the host's turn always does. -/
theorem everyStepAnswersANextState : Obligations.EveryStepAnswersANextState := by
  unfold Obligations.EveryStepAnswersANextState
  intro s
  rcases step_cases s with ⟨f, -, -, h⟩ | ⟨-, ⟨-, h⟩ | ⟨op, rest, -, h⟩⟩
  · rw [h]
    exact exists_complete_eq_next f.cmd s
  · exact ⟨_, h⟩
  · exact ⟨_, h⟩

/-- Settles O16, by induction on the host operations that the latency lets land: the command is due, or the host's next
operation lands and leaves the unit as it was (`step_of_waiting`). -/
theorem commandInFlightCompletes : Obligations.CommandInFlightCompletes := by
  unfold Obligations.CommandInFlightCompletes
  intro s f hf hreset
  obtain ⟨cmd, ops⟩ := f
  induction ops generalizing s with
  | zero =>
    have hdue : unitActs ⟨cmd, 0⟩ s = true := by
      by_contra h
      exact (host_of_not_unitActs (Bool.eq_false_of_not_eq_true h)).1 rfl
    have hcompleting : Completing s cmd := ⟨_, hf, rfl, hdue⟩
    exact ⟨0, s, le_rfl, rfl, hcompleting, .refl s, step_of_completing hcompleting⟩
  | succ ops ih =>
    cases hdue : unitActs ⟨cmd, ops + 1⟩ s with
    | true =>
      have hcompleting : Completing s cmd := ⟨_, hf, rfl, hdue⟩
      exact ⟨0, s, Nat.zero_le _, rfl, hcompleting, .refl s, step_of_completing hcompleting⟩
    | false =>
      obtain ⟨op, rest, t, hhost, hstep, hunit, hrest, hflight⟩ := step_of_waiting hf hdue hreset
      obtain ⟨n, u, hn, hrun, hcompleting, hunit', hcomplete⟩ :=
        ih t hflight fun op' hop' => hreset op' (by simp_all)
      exact ⟨n + 1, u, Nat.succ_le_succ hn, (run_succ_of_step (M := core) hstep n).trans hrun, hcompleting,
        hunit.trans hunit', hcomplete⟩

/-- Settles O42: a completion changes TEXT only if its command is FMT (`textAt_of_exec`), and the host only by the operations
of `writer_of_perform`. -/
theorem textChangesOnlyThroughItsWriters : Obligations.TextChangesOnlyThroughItsWriters := by
  unfold Obligations.TextChangesOnlyThroughItsWriters
  intro s t x hstep hne
  rcases step_cases s with ⟨f, hf, hdue, h⟩ | ⟨hwait, ⟨-, h⟩ | ⟨op, rest, hhost, h⟩⟩
  · left
    rcases cases_of_complete (h.symm.trans hstep) with ⟨i, hi, hexec⟩ | rfl | rfl
    · cases i with
      | fmt rs1 wc base => exact ⟨f.cmd, rs1, wc, base, ⟨f, hf, rfl, hdue⟩, hi⟩
      | _ => exact absurd (textAt_of_exec hexec nofun x) hne
    · exact absurd rfl hne
    · exact absurd rfl hne
  · cases hstep.symm.trans h
    exact absurd rfl hne
  · right
    cases hstep.symm.trans h
    rcases writer_of_perform (s := s.takeOp rest) hne with ⟨a, v, rfl, hb, ha⟩ | rfl
    · exact .inl ⟨a, v, rest, hhost, by simpa [State.busy] using hb, ha⟩
    · exact .inr ⟨rest, hhost, hwait⟩

/-- Settles O43: a completion keeps the parameters (`port_of_complete`), and so does the host's turn (`perform_params`), which
leaves the registers unless it is a RESET (`registers_of_perform`). -/
theorem onlyCommandsAndResetWriteRegisters : Obligations.OnlyCommandsAndResetWriteRegisters := by
  unfold Obligations.OnlyCommandsAndResetWriteRegisters
  intro s t hstep
  rcases step_cases s with ⟨f, hf, hdue, h⟩ | ⟨hwait, ⟨-, h⟩ | ⟨op, rest, hhost, h⟩⟩
  · obtain ⟨hparams, -⟩ := port_of_complete (h.symm.trans hstep)
    exact ⟨hparams, congrArg idWord hparams, fun hnone => absurd ⟨f, hf, rfl, hdue⟩ (hnone f.cmd)⟩
  · cases hstep.symm.trans h
    exact ⟨rfl, rfl, fun _ _ => ⟨rfl, rfl, rfl, .refl s⟩⟩
  · cases hstep.symm.trans h
    have hparams := perform_params (s.takeOp rest) op
    refine ⟨hparams, congrArg idWord hparams, fun _ hreset => registers_of_perform ?_⟩
    rintro rfl
    exact hreset rest ⟨hhost, hwait⟩

end Sys2Proof.Claims
end

section
/-! The layouts of STATUS and ID as numbers (R27), the error codes and what raises each (R185), and D(w) (R6). -/

namespace Sys2Proof.Machine

variable {i : Instr} {s t : State} {e : UnitError}

theorem status_toNat (s : State) :
    s.status.toNat = s.eop.toNat * 2 ^ 16 + s.err.toBits.toNat * 2 ^ 8 + s.busy.toNat := by
  have heop : (s.eop.setWidth 64).toNat = s.eop.toNat := BitVec.toNat_setWidth_of_le (by decide)
  have herr : (s.err.toBits.setWidth 64).toNat = s.err.toBits.toNat := BitVec.toNat_setWidth_of_le (by decide)
  have hbusy : ((BitVec.ofBool s.busy).setWidth 64).toNat = s.busy.toNat := by
    rw [BitVec.toNat_setWidth_of_le (by decide), BitVec.toNat_ofBool]
  have hbit : s.busy.toNat < 2 := s.busy.toNat_lt
  have hlow : (s.err.toBits.setWidth 64 <<< 8 ||| (BitVec.ofBool s.busy).setWidth 64).toNat =
      s.err.toBits.toNat * 2 ^ 8 + s.busy.toNat := by
    rw [toNat_shiftLeft_or (by omega) (by omega), herr, hbusy]
  rw [State.status, BitVec.or_assoc, toNat_shiftLeft_or (by omega) (by omega), hlow, heop, Nat.add_assoc]

theorem idWord_toNat {p : Params} (h : p.textBytes ≤ 2 ^ 32 - 1) :
    (idWord p).toNat = p.textBytes * 2 ^ 32 + 1 * 2 ^ 16 + 16 * 2 ^ 8 + p.k.val := by
  have hk : (BitVec.ofNat 64 p.k.val).toNat = p.k.val := by
    rw [BitVec.toNat_ofNat, Nat.mod_eq_of_lt]
    omega
  have htext : (BitVec.ofNat 64 p.textBytes).toNat = p.textBytes := by
    rw [BitVec.toNat_ofNat, Nat.mod_eq_of_lt]
    omega
  have hnreg : (16#64 <<< 8 ||| BitVec.ofNat 64 p.k.val).toNat = 16 * 2 ^ 8 + p.k.val := by
    rw [toNat_shiftLeft_or (by omega) (by decide), hk]
    rfl
  have hrev : (1#64 <<< 16 ||| (16#64 <<< 8 ||| BitVec.ofNat 64 p.k.val)).toNat = 1 * 2 ^ 16 + (16 * 2 ^ 8 + p.k.val) := by
    rw [toNat_shiftLeft_or (by omega) (by decide), hnreg]
    rfl
  rw [idWord, BitVec.or_assoc, BitVec.or_assoc, toNat_shiftLeft_or (by omega) (by omega), hrev, htext]
  omega

/-! ### Which command raises which error -/

/-- The column "raised by" of R185, for the code of the state after a legal command. -/
def MayRaise (i : Instr) : ErrCode → Prop
  | .none => True
  | .invalidFormat => i.opcode = .parse ∨ i.opcode = .parsez
  | .divisionByZero => i.opcode = .div ∨ i.opcode = .mod
  | .illegalCommand => False
  | .operandType => sourcesOf i ≠ []
  | .textBounds => i.opcode = .parse ∨ i.opcode = .parsez ∨ i.opcode = .fmt

/-- R162: the loop of PARSE stops only at a byte that is no digit. -/
theorem code_of_parseBounded {text : Nat → Byte} {m n a acc : Nat} (h : parseBounded text m n a acc = .error e) :
    e.code = .invalidFormat := by
  induction n generalizing a acc with
  | zero => cases h
  | succ n ih =>
    rw [parseBounded] at h
    split at h
    · exact ih h
    · cases h
      rfl

/-- R163: the loop of PARSEZ stops at a byte that is neither digit nor terminator, or at the end of TEXT. -/
theorem code_of_parseTerminated {text : Nat → Byte} {m left a acc : Nat} {base : BitVec 32}
    (h : parseTerminated text m base left a acc = .error e) : e.code = .invalidFormat ∨ e.code = .textBounds := by
  induction left generalizing a acc with
  | zero =>
    cases h
    exact .inr rfl
  | succ left ih =>
    rw [parseTerminated] at h
    split at h
    · cases h
    · split at h
      · exact ih h
      · cases h
        exact .inl rfl

/-- The fault of a command's sources is OperandType (R22). -/
theorem code_of_sourceFault {l : List (Reg × Nibble)} (h : sourceFault s l = some e) : e.code = .operandType := by
  induction l with
  | nil => cases h
  | cons p rest ih =>
    by_cases ht : s.tagOf p.1 = p.2
    · exact ih (sourceFault_cons_of_eq ht ▸ h)
    · rw [sourceFault_cons_of_ne ht] at h
      cases h
      rfl

theorem tagOf_of_sourceFault_eq_none {l : List (Reg × Nibble)} (h : sourceFault s l = none) :
    ∀ p ∈ l, s.tagOf p.1 = p.2 := by
  induction l with
  | nil => exact nofun
  | cons p rest ih =>
    by_cases ht : s.tagOf p.1 = p.2
    · exact List.forall_mem_cons.2 ⟨ht, ih (sourceFault_cons_of_eq ht ▸ h)⟩
    · rw [sourceFault_cons_of_ne ht] at h
      cases h

/-- R185 of every command whose sources have the right widths. -/
theorem mayRaise_of_tags (he : s.err = .none) (htag : ∀ p ∈ sourcesOf i, s.tagOf p.1 = p.2) (h : exec i s = .next t) :
    MayRaise i t.err := by
  have of_wide : ∀ {rd wc v}, exec i s = .next (s.setWide rd wc v) → MayRaise i t.err := fun h' => by
    cases h.symm.trans h'
    rw [setWide_err, he]
    trivial
  have of_native : ∀ {v}, exec i s = .next (s.setNative v) → MayRaise i t.err := fun h' => by
    cases h.symm.trans h'
    rw [setNative_err, he]
    trivial
  have of_raise : ∀ {op e}, exec i s = .next (s.raise op e) → MayRaise i e.code → MayRaise i t.err := fun h' he' => by
    cases h.symm.trans h'
    exact he'
  cases i with
  | clr => exact of_wide (exec_clr he)
  | ldn => exact of_wide (exec_ldn he)
  | resize => exact of_wide (exec_resize he (htag _ (.head _)))
  | mov | neg | inc | dec | shl | shr | not => exact of_wide (unary_ok he (htag _ (.head _)))
  | add | sub | mul | and | or | xor => exact of_wide (binary_ok he (htag _ (.head _)) (htag _ (.tail _ (.head _))))
  | div rd rs1 rs2 | mod rd rs1 rs2 =>
    by_cases h0 : s.wide rs2 = 0
    · refine of_raise (dividing_zero he (htag _ (.head _)) (htag _ (.tail _ (.head _))) h0) ?_
      simp [MayRaise, UnitError.code, Instr.opcode]
    · exact of_wide (dividing_ok he (htag _ (.head _)) (htag _ (.tail _ (.head _))) h0)
  | tonat | test => exact of_native (unaryNative_ok he (htag _ (.head _)))
  | eq | ne | lt | le | gt | ge => exact of_native (relation_ok he (htag _ (.head _)) (htag _ (.tail _ (.head _))))
  | parse rd wc base length =>
    by_cases hb : base.toNat + length.toNat ≤ s.params.textBytes
    · cases hloop : parseBounded s.textAt (modulus wc) length.toNat base.toNat 0 with
      | ok v => exact of_wide (exec_parse_of_ok he hb hloop)
      | error e =>
        refine of_raise (exec_parse_of_error he hb hloop) ?_
        rw [code_of_parseBounded hloop]
        exact .inl rfl
    · exact of_raise (exec_parse_out_of_text he (Nat.lt_of_not_le hb)) (.inl rfl)
  | parsez rd wc base =>
    cases hloop : parseTerminated s.textAt (modulus wc) base (s.params.textBytes - base.toNat) base.toNat 0 with
    | ok v => exact of_wide (exec_parsez_of_ok he hloop)
    | error e =>
      refine of_raise (exec_parsez_of_error he hloop) ?_
      rcases code_of_parseTerminated hloop with hcode | hcode <;> rw [hcode]
      · exact .inr rfl
      · exact .inr (.inl rfl)
  | fmt rs1 wc base =>
    have ht := htag _ (.head _)
    by_cases hb : base.toNat + (formatDecimal (s.wide rs1)).length ≤ s.params.textBytes
    · cases h.symm.trans (exec_fmt he ht hb)
      rw [setNative_err, writeText_err, he]
      trivial
    · exact of_raise (exec_fmt_out_of_text he ht (Nat.lt_of_not_le hb)) (.inr (.inr rfl))
  | clrerr =>
    cases h
    trivial

/-- R185 of every command: a fault of its sources is OperandType, and without one it is `mayRaise_of_tags`. -/
theorem mayRaise_of_exec (he : s.err = .none) (h : exec i s = .next t) : MayRaise i t.err := by
  cases hfault : sourceFault s (sourcesOf i) with
  | none => exact mayRaise_of_tags he (tagOf_of_sourceFault_eq_none hfault) h
  | some e =>
    cases h.symm.trans (exec_of_sourceFault i he hfault)
    rw [raise_err, code_of_sourceFault hfault]
    intro hnil
    simp [hnil, sourceFault] at hfault

end Sys2Proof.Machine

namespace Sys2Proof.Claims

open Sys2Proof.Machine

/-- D(w) is d + 1 when 2^w - 1 lies between 10^d and 10^(d + 1). -/
theorem maxDigits_eq {w d : Nat} (hlow : 10 ^ d ≤ 2 ^ w - 1) (hhigh : 2 ^ w - 1 < 10 ^ (d + 1)) :
    maxDigits w = d + 1 := by
  have hpos : 2 ^ w - 1 ≠ 0 := (Nat.lt_of_lt_of_le (Nat.pow_pos (by decide)) hlow).ne'
  have hlog : Nat.log 10 (2 ^ w - 1) = d := Nat.log_eq_of_pow_le_of_lt_pow hlow hhigh
  rw [maxDigits, formatDecimal_length, Nat.length_digits 10 _ (by decide) hpos, hlog, max_eq_right (by omega)]

/-- Settles O17: the fields of each register add up (`status_toNat`, `idWord_toNat`). -/
theorem statusAndIdLayouts : Obligations.StatusAndIdLayouts := by
  unfold Obligations.StatusAndIdLayouts
  exact ⟨status_toNat, fun _ => idWord_toNat⟩

/-- Settles O19: `mayRaise_of_exec`, read at each code. -/
theorem onlyTheNamedCommandsRaiseEachError : Obligations.OnlyTheNamedCommandsRaiseEachError := by
  unfold Obligations.OnlyTheNamedCommandsRaiseEachError
  refine ⟨rfl, rfl, rfl, rfl, rfl, rfl, fun i s t he h => ?_⟩
  have hmay := mayRaise_of_exec he h
  refine ⟨fun ht => ?_, fun ht => ?_, fun ht => ?_, fun ht => ?_, fun ht => ?_⟩ <;> rw [ht] at hmay <;> exact hmay

/-- Settles O37: each 2^w - 1 lies between two powers of 10 (`maxDigits_eq`); the bound is
`formatDecimal_length_le_maxDigits`. -/
theorem digitCountsOfEachWidth : Obligations.DigitCountsOfEachWidth := by
  unfold Obligations.DigitCountsOfEachWidth
  refine ⟨maxDigits_eq ?_ ?_, maxDigits_eq ?_ ?_, maxDigits_eq ?_ ?_, maxDigits_eq ?_ ?_, maxDigits_eq ?_ ?_,
    maxDigits_eq ?_ ?_, maxDigits_eq ?_ ?_, maxDigits_eq ?_ ?_, fun _ _ => formatDecimal_length_le_maxDigits⟩
  all_goals decide +kernel

end Sys2Proof.Claims
end

section
/-! The invariant of a legal state (R5, R21, R27, R41): it holds at reset, and every step keeps it. -/

namespace Sys2Proof.Machine

variable {i : Instr} {s t : State} {c : Command} {op : HostOp}

/-- The width code that a command asks of a source is one of its two width codes. -/
theorem sourceCode_cases {p : Reg × Nibble} (h : p ∈ sourcesOf i) :
    i.widthCode = some p.2 ∨ i.sourceWidthCode = some p.2 := by
  cases i with
  | clr | ldn | parse | parsez | clrerr => cases h
  | mov | tonat | neg | inc | dec | shl | shr | not | test | fmt =>
    obtain rfl := List.mem_singleton.1 h
    exact .inl rfl
  | resize =>
    obtain rfl := List.mem_singleton.1 h
    exact .inr rfl
  | add | sub | mul | div | mod | and | or | xor | eq | ne | lt | le | gt | ge =>
    rcases List.mem_pair.1 h with rfl | rfl <;> exact .inl rfl

theorem widthLegal_of_widthCode {k : Fin 8} {wc : Nibble} (hi : i.wellFormed k = true) (h : i.widthCode = some wc) :
    wc.toNat ≤ k.val := by
  simp only [Instr.wellFormed, h, Option.all_some, Bool.and_eq_true] at hi
  exact widthLegal_iff.1 hi.1

theorem widthLegal_of_sourceCode {k : Fin 8} {p : Reg × Nibble} (hi : i.wellFormed k = true) (h : p ∈ sourcesOf i) :
    p.2.toNat ≤ k.val := by
  rcases sourceCode_cases h with h | h
  · exact widthLegal_of_widthCode hi h
  · simp only [Instr.wellFormed, h, Option.all_some, Bool.and_eq_true] at hi
    exact widthLegal_iff.1 hi.2

/-- A width code that is legal is not EMPTY (R21). -/
theorem ne_emptyTag_of_le {k : Fin 8} {wc : Nibble} (h : wc.toNat ≤ k.val) : wc ≠ emptyTag := by
  rintro rfl
  have : emptyTag.toNat = 15 := rfl
  omega

/-- In a legal state the sources that a command reads hold values of the widths it asks for. -/
theorem sources_lt_modulus (hs : s.RegsOk) (hi : i.wellFormed s.params.k = true)
    (htag : ∀ p ∈ sourcesOf i, s.tagOf p.1 = p.2) : ∀ p ∈ sourcesOf i, s.wide p.1 < modulus p.2 := by
  intro p hp
  have hne : s.tagOf p.1 ≠ emptyTag := htag p hp ▸ ne_emptyTag_of_le (widthLegal_of_sourceCode hi hp)
  simpa [htag p hp] using (hs p.1).wide_lt hne

/-- A wide write of a command that keeps to K keeps the register invariant. -/
theorem regsOk_of_wideEnd {rd : Reg} {wc : Nibble} {v : Nat} (hs : s.RegsOk) (hi : i.wellFormed s.params.k = true)
    (h : WideEnd i s rd wc v) : (s.setWide rd wc v).RegsOk := by
  obtain ⟨-, hwc, htag, hv⟩ := h
  intro r
  by_cases hr : r = rd
  · subst hr
    right
    rw [setWide_tagOf_same, setWide_wide_same]
    exact ⟨widthLegal_of_widthCode hi hwc, hv (sources_lt_modulus hs hi htag)⟩
  · rw [State.RegOk, setWide_tagOf_other s rd r wc v hr, setWide_wide_other s rd r wc v hr]
    exact hs r

/-- Writes inside TEXT keep the buffer's form and bounds. -/
theorem textOk_writeText {base : Nat} {bytes : List Byte} (hs : s.TextOk)
    (hb : base + bytes.length ≤ s.params.textBytes) : (s.writeText base bytes).TextOk := by
  refine ⟨Memory.wf_writeAll _ _ hs.1, fun c hc => ?_⟩
  rcases Memory.mem_writeAll hc with hc | ⟨-, hc⟩
  · exact hs.2 c hc
  · exact Nat.lt_of_lt_of_le hc hb

theorem textOk_write {a : Nat} {v : Byte} (hs : s.TextOk) (ha : a < s.params.textBytes) :
    ({ s with text := Memory.write s.text a v } : State).TextOk :=
  textOk_writeText (bytes := [v]) hs ha

/-- An error that is raised leaves nothing to say of R27. -/
theorem inv_raise {b : BitVec 8} {e : UnitError} (hs : s.Inv) : (s.raise b e).Inv := by
  obtain ⟨hparams, hregs, -, htext⟩ := hs
  exact ⟨hparams, hregs, fun h => absurd h (code_ne_none e), htext⟩

theorem inv_retire (hs : s.Inv) : s.retire.Inv := hs

/-- A command that keeps to K keeps the state legal. -/
theorem inv_of_exec (hs : s.Inv) (hi : i.wellFormed s.params.k = true) (h : exec i s = .next t) : t.Inv := by
  obtain ⟨hparams, hregs, herr, htext⟩ := hs
  rcases cases_of_exec h with ⟨-, rfl⟩ | rfl | hends
  · exact ⟨hparams, hregs, fun _ => ⟨rfl, rfl⟩, htext⟩
  · exact ⟨hparams, hregs, herr, htext⟩
  · cases hends with
    | error e => exact inv_raise ⟨hparams, hregs, herr, htext⟩
    | wide rd wc v hend => exact ⟨hparams, regsOk_of_wideEnd hregs hi hend, herr, htext⟩
    | native v => exact ⟨hparams, hregs, herr, htext⟩
    | text rs1 wc base _ _ hb => exact ⟨hparams, hregs, herr, textOk_writeText htext hb⟩

/-- A completion keeps the state legal, because the decoder lets pass only commands that keep to K. -/
theorem inv_of_complete (hs : s.Inv) (h : complete c s = .next t) : t.Inv := by
  rcases cases_of_complete h with ⟨i, hi, hexec⟩ | rfl | rfl
  · exact inv_of_exec (inv_retire hs) (wellFormed_of_decode hi) hexec
  · exact inv_raise (inv_retire hs)
  · exact inv_retire hs

/-- Every reset state whose parameters R5 admits is legal. -/
theorem inv_resetOf {p : Params} (hlow : maxDigits (128 * 2 ^ p.k.val) ≤ p.textBytes) (hhigh : p.textBytes ≤ 2 ^ 32 - 1) :
    (State.resetOf p).Inv := by
  refine ⟨⟨hlow, hhigh⟩, fun r => .inl ?_, fun _ => ⟨rfl, rfl⟩, rfl, nofun⟩
  simp [State.resetOf, State.tagOf, State.wide]

theorem inv_perform (hs : s.Inv) : (s.perform op).Inv := by
  rcases perform_cases s op with ⟨c, rfl⟩ | ⟨replies, draws, h⟩ | ⟨a, v, -, -, ha, h⟩ | rfl
  · exact hs
  · rw [h]
    exact hs
  · obtain ⟨hparams, hregs, herr, htext⟩ := hs
    rw [h]
    exact ⟨hparams, hregs, herr, textOk_write htext ha⟩
  · exact inv_resetOf hs.1.1 hs.1.2

end Sys2Proof.Machine

namespace Sys2Proof.Claims

open Sys2Proof.Machine

/-- Settles O44: `inv_resetOf`; the reference configuration has K = 3, and D(1024) = 309 digits fit in its 4096 bytes. -/
theorem resetStateIsLegal : Obligations.ResetStateIsLegal := by
  unfold Obligations.ResetStateIsLegal
  refine ⟨inv_resetOf ?_ (by decide), fun _ => inv_resetOf⟩
  obtain ⟨-, -, -, h1024, -⟩ := digitCountsOfEachWidth
  change maxDigits 1024 ≤ 4096
  rw [h1024]
  decide

/-- Settles O45: a step is a completion (`inv_of_complete`), nothing, or an operation of the host (`inv_perform`). -/
theorem everyStepKeepsTheStateLegal : Obligations.EveryStepKeepsTheStateLegal := by
  unfold Obligations.EveryStepKeepsTheStateLegal
  intro s t hs hstep
  rcases step_cases s with ⟨f, -, -, h⟩ | ⟨-, ⟨-, h⟩ | ⟨op, rest, -, h⟩⟩
  · exact inv_of_complete hs (h.symm.trans hstep)
  · cases hstep.symm.trans h
    exact hs
  · cases hstep.symm.trans h
    exact inv_perform (s := s.takeOp rest) hs

end Sys2Proof.Claims
end

section
/-! The recursive adder, subtractor, incrementer, decrementer and multiplier (R100 to R107) against their closed forms (R15),
each by induction on the level: the limbs of an operand are below 2^h, and put together they are the operand. -/

namespace Sys2Proof.Machine.Datapath

/-! ### Limbs -/

/-- An induction over levels for a claim about two operands: the operands of level n + 1 are limbs of level n put together. -/
theorem level_induction {P : Nat → Nat → Nat → Prop} (hleaf : ∀ a b, a < 2 ^ 64 → b < 2 ^ 64 → P 0 a b)
    (hjoin : ∀ n au al bu bl, (∀ a b, a < 2 ^ limbWidth n → b < 2 ^ limbWidth n → P n a b) →
      au < 2 ^ limbWidth n → al < 2 ^ limbWidth n → bu < 2 ^ limbWidth n → bl < 2 ^ limbWidth n →
      P (n + 1) (join (limbWidth n) au al) (join (limbWidth n) bu bl)) :
    ∀ n a b, a < 2 ^ limbWidth n → b < 2 ^ limbWidth n → P n a b := by
  intro n
  induction n with
  | zero => exact hleaf
  | succ n ih =>
    intro a b ha hb
    rw [← join_hi_lo (limbWidth n) a, ← join_hi_lo (limbWidth n) b]
    exact hjoin n _ _ _ _ ih (hi_lt ha) (lo_lt n a) (hi_lt hb) (lo_lt n b)

section

variable {h x y : Nat}

theorem hi_join (hy : y < 2 ^ h) : hi h (join h x y) = x := by
  rw [hi, join, Nat.mul_comm, Nat.mul_add_div (Nat.two_pow_pos h), Nat.div_eq_of_lt hy, Nat.add_zero]

theorem lo_join (hy : y < 2 ^ h) : lo h (join h x y) = y := by
  rw [lo, join, Nat.mul_comm, Nat.mul_add_mod, Nat.mod_eq_of_lt hy]

theorem join_inj {x' y' : Nat} (hy : y < 2 ^ h) (hy' : y' < 2 ^ h) : join h x y = join h x' y' ↔ x = x' ∧ y = y' := by
  constructor
  · intro e
    exact ⟨by rw [← hi_join (x := x) hy, e, hi_join hy'], by rw [← lo_join (x := x) hy, e, lo_join hy']⟩
  · rintro ⟨rfl, rfl⟩
    rfl

theorem join_eq_zero_iff : join h x y = 0 ↔ x = 0 ∧ y = 0 := by
  simp [join]

/-- The upper limb decides, and on a tie the lower one (R150). -/
theorem join_lt_join_iff {x' y' : Nat} (hy : y < 2 ^ h) (hy' : y' < 2 ^ h) :
    join h x y < join h x' y' ↔ x < x' ∨ x = x' ∧ y < y' := by
  simp only [join]
  rcases Nat.lt_trichotomy x x' with hlt | rfl | hgt
  · have : (x + 1) * 2 ^ h ≤ x' * 2 ^ h := Nat.mul_le_mul_right _ hlt
    rw [Nat.add_mul] at this
    simp only [hlt, true_or, iff_true]
    omega
  · simp
  · have : (x' + 1) * 2 ^ h ≤ x * 2 ^ h := Nat.mul_le_mul_right _ hgt
    rw [Nat.add_mul] at this
    simp only [hgt.ne', hgt.not_gt, false_and, or_self, iff_false]
    omega

/-- A sum of an upper part x and a lower part y, where what y has above 2^h is carried into the upper limb. -/
theorem join_carry : join h ((x + y / 2 ^ h) % 2 ^ h) (y % 2 ^ h) = (x * 2 ^ h + y) % (2 ^ h * 2 ^ h) := by
  rw [join, join_mod (Nat.mod_lt y (Nat.two_pow_pos h)), Nat.add_mul, Nat.add_assoc, Nat.div_add_mod']

end

/-! ### Addition and subtraction (R100, R102) -/

/-- The carry of R100 is found by comparison. -/
theorem carry_eq {p x y : Nat} (hx : x < p) (hy : y < p) : (if x > p - 1 - y then 1 else 0) = (x + y) / p := by
  split
  · exact (Nat.div_eq_of_lt_le (by omega) (by omega)).symm
  · exact (Nat.div_eq_of_lt (by omega)).symm

theorem add_eq {n a b : Nat} (ha : a < 2 ^ limbWidth n) (hb : b < 2 ^ limbWidth n) :
    add n a b = (a + b) % 2 ^ limbWidth n := by
  refine level_induction (P := fun n a b => add n a b = (a + b) % 2 ^ limbWidth n) (fun _ _ _ _ => rfl) ?_ n a b ha hb
  intro n au al bu bl ih hau hal hbu hbl
  have hp := two_le_two_pow_limbWidth n
  have hcarry : (al + bl) / 2 ^ limbWidth n < 2 ^ limbWidth n := by
    rw [← carry_eq hal hbl]
    split <;> omega
  rw [add, hi_join hal, hi_join hbl, lo_join hal, lo_join hbl, carry_eq hal hbl, ih au bu hau hbu, ih al bl hal hbl,
    ih _ _ (Nat.mod_lt _ (by omega)) hcarry, Nat.mod_add_mod, join_carry, two_pow_limbWidth_succ, join, join]
  congr 1
  ring

/-- The borrow of R102 is found by comparison: without one, the lower limbs leave 2^h over. -/
theorem borrow_eq {p x y : Nat} (hx : x < p) (hy : y < p) : (x + p - y) / p = 1 - if x < y then 1 else 0 := by
  split
  · exact Nat.div_eq_of_lt (by omega)
  · exact Nat.div_eq_of_lt_le (by omega) (by omega)

/-- Taking a borrow from a difference modulo p. -/
theorem mod_sub_borrow {p x c : Nat} (hx : 0 < x) (hp : 0 < p) (hc : c ≤ 1) :
    (x % p + p - c) % p = (x - 1 + (1 - c)) % p := by
  have e : x % p + p - c = x % p + (p - c) := by omega
  rw [e, Nat.mod_add_mod]
  rcases Nat.le_one_iff_eq_zero_or_eq_one.1 hc with rfl | rfl
  · rw [Nat.sub_zero, Nat.add_mod_right, Nat.sub_add_cancel hx]
  · have e1 : x + (p - 1) = x - 1 + p := by omega
    rw [e1, Nat.add_mod_right, Nat.sub_self, Nat.add_zero]

/-- A difference of two pairs of limbs, with p · p added, as an upper and a lower part. -/
theorem limb_difference {p au al bu bl : Nat} (hbu : bu < p) (hbl : bl < p) :
    (au + p - bu - 1) * p + (al + p - bl) = au * p + al + p * p - (bu * p + bl) := by
  obtain ⟨d, rfl⟩ := Nat.exists_eq_add_of_lt hbu
  have e : au + (bu + d + 1) - bu - 1 = au + d := by omega
  rw [e]
  have hsquare : (bu + d + 1) * (bu + d + 1) = bu * (bu + d + 1) + d * (bu + d + 1) + (bu + d + 1) := by ring
  rw [Nat.add_mul]
  omega

/-- The subtractor with the difference taken over the naturals: 2^w is added first. -/
theorem sub_eq {n a b : Nat} (ha : a < 2 ^ limbWidth n) (hb : b < 2 ^ limbWidth n) :
    sub n a b = (a + 2 ^ limbWidth n - b) % 2 ^ limbWidth n := by
  refine level_induction (P := fun n a b => sub n a b = (a + 2 ^ limbWidth n - b) % 2 ^ limbWidth n) (fun _ _ _ _ => rfl)
    ?_ n a b ha hb
  intro n au al bu bl ih hau hal hbu hbl
  have hp := two_le_two_pow_limbWidth n
  have hborrow : (if al < bl then 1 else 0) ≤ 1 := by split <;> omega
  rw [sub, hi_join hal, hi_join hbl, lo_join hal, lo_join hbl, ih au bu hau hbu, ih al bl hal hbl,
    ih _ _ (Nat.mod_lt _ (by omega)) (by omega), mod_sub_borrow (by omega) (by omega) hborrow, ← borrow_eq hal hbl,
    join_carry, limb_difference hbu hbl, two_pow_limbWidth_succ, join, join]

/-- A difference over the integers, modulo a power of 2, as one over the naturals. -/
theorem toNat_sub_emod {m a b : Nat} (hb : b ≤ m) : (((a : Int) - (b : Int)) % (m : Int)).toNat = (a + m - b) % m := by
  have e : ((a + m - b : Nat) : Int) = (a : Int) - b + m := by omega
  rw [← Int.add_emod_right, ← e, ← Int.natCast_emod, Int.toNat_natCast]

/-! ### Increment and decrement (R105, R106) -/

/-- The incrementer wraps to 0 exactly when it carries. -/
theorem inc_carry {p x : Nat} (hx : x < p) : (x + 1) / p = if (x + 1) % p = 0 then 1 else 0 := by
  rcases Nat.lt_or_eq_of_le (show x + 1 ≤ p from hx) with hlt | heq
  · rw [Nat.mod_eq_of_lt hlt, Nat.div_eq_of_lt hlt, if_neg (Nat.succ_ne_zero x)]
  · rw [heq, Nat.mod_self, if_pos rfl, Nat.div_self (by omega)]

theorem inc_eq {n a : Nat} (ha : a < 2 ^ limbWidth n) : inc n a = (a + 1) % 2 ^ limbWidth n := by
  refine level_induction (P := fun n a _ => inc n a = (a + 1) % 2 ^ limbWidth n) (fun _ _ _ _ => rfl) ?_ n a 0 ha
    (Nat.two_pow_pos _)
  intro n au al _ _ ih hau hal _ _
  have hinc : ∀ a, a < 2 ^ limbWidth n → inc n a = (a + 1) % 2 ^ limbWidth n := fun a ha => ih a a ha ha
  have hupper : (if (al + 1) % 2 ^ limbWidth n = 0 then (au + 1) % 2 ^ limbWidth n else au) =
      (au + (al + 1) / 2 ^ limbWidth n) % 2 ^ limbWidth n := by
    rw [inc_carry hal]
    split
    · rfl
    · rw [Nat.add_zero, Nat.mod_eq_of_lt hau]
  rw [inc, hi_join hal, lo_join hal, hinc al hal, hinc au hau, hupper, join_carry, two_pow_limbWidth_succ, join,
    Nat.add_assoc]

theorem dec_eq {n a : Nat} (ha : a < 2 ^ limbWidth n) : dec n a = (a + 2 ^ limbWidth n - 1) % 2 ^ limbWidth n := by
  refine level_induction (P := fun n a _ => dec n a = (a + 2 ^ limbWidth n - 1) % 2 ^ limbWidth n) (fun _ _ _ _ => rfl) ?_
    n a 0 ha (Nat.two_pow_pos _)
  intro n au al _ _ ih hau hal _ _
  have hp := two_le_two_pow_limbWidth n
  have hdec : ∀ a, a < 2 ^ limbWidth n → dec n a = (a + 2 ^ limbWidth n - 1) % 2 ^ limbWidth n :=
    fun a ha => ih a a ha ha
  have hupper : (if al = 0 then (au + 2 ^ limbWidth n - 1) % 2 ^ limbWidth n else au) =
      (au + 2 ^ limbWidth n - 0 - 1 + (al + 2 ^ limbWidth n - 1) / 2 ^ limbWidth n) % 2 ^ limbWidth n := by
    rw [borrow_eq hal (by omega)]
    split
    · next h => rw [if_pos (by omega), Nat.sub_self, Nat.add_zero, Nat.sub_zero]
    · next h =>
      rw [if_neg (by omega), Nat.sub_zero, Nat.sub_zero, Nat.sub_add_cancel (by omega), Nat.add_mod_right,
        Nat.mod_eq_of_lt hau]
  rw [dec, hi_join hal, lo_join hal, hdec al hal, hdec au hau, hupper, join_carry, limb_difference (by omega) (by omega),
    two_pow_limbWidth_succ, join, Nat.zero_mul, Nat.zero_add]

/-! ### Multiplication (R107) -/

/-- The lower half of a limb (R107). -/
theorem slice_low {q : Nat} (hq : 0 < q) (v : Nat) : slice v (q - 1) 0 = v % 2 ^ q := by
  rw [slice, Nat.pow_zero, Nat.div_one, Nat.sub_zero, Nat.sub_add_cancel hq]

/-- The upper half of a limb of width 2q (R107). -/
theorem slice_high {q v : Nat} (hq : 0 < q) (hv : v < 2 ^ q * 2 ^ q) : slice v (q + q - 1) q = v / 2 ^ q := by
  have e : q + q - 1 + 1 - q = q := by omega
  rw [slice, e, Nat.mod_eq_of_lt (Nat.div_lt_of_lt_mul hv)]

/-- The value that the quarter products of two limbs leave in the lower limb, before what it carries out is cut off. -/
def lowerSum (q a b : Nat) : Nat :=
  (a % q * (b % q) + a / q * (b % q) % q * q) % (q * q) + a % q * (b / q) % q * q

/-- What the quarter products of two limbs add to the upper limb: the product of the upper quarters, the upper halves of the
cross products, and the two carries. -/
def upperSum (q a b : Nat) : Nat :=
  a / q * (b / q) + a / q * (b % q) / q + a % q * (b / q) / q +
    (a % q * (b % q) + a / q * (b % q) % q * q) / (q * q) + lowerSum q a b / (q * q)

theorem quarter_product (q a b : Nat) : upperSum q a b * (q * q) + lowerSum q a b % (q * q) = a * b := by
  have ha := Nat.div_add_mod a q
  have hb := Nat.div_add_mod b q
  have hx := Nat.div_add_mod (a / q * (b % q)) q
  have hy := Nat.div_add_mod (a % q * (b / q)) q
  have hs1 := Nat.div_add_mod (a % q * (b % q) + a / q * (b % q) % q * q) (q * q)
  have hs2 := Nat.div_add_mod (lowerSum q a b) (q * q)
  have hsum : lowerSum q a b =
    (a % q * (b % q) + a / q * (b % q) % q * q) % (q * q) + a % q * (b / q) % q * q := rfl
  rw [upperSum]
  linear_combination q * hx + q * hy + hs1 + hs2 + hsum + (b / q * q + b % q) * ha + a * hb

theorem lowerSum_mod (q a b : Nat) : lowerSum q a b % (q * q) = a * b % (q * q) := by
  rw [← quarter_product q a b, Nat.add_comm, Nat.add_mul_mod_self_right, Nat.mod_mod]

theorem upperSum_eq {q : Nat} (hq : 0 < q) (a b : Nat) : upperSum q a b = a * b / (q * q) := by
  have hpos : 0 < q * q := Nat.mul_pos hq hq
  rw [← quarter_product q a b, Nat.add_comm, Nat.add_mul_div_right _ _ hpos, Nat.div_eq_of_lt (Nat.mod_lt _ hpos),
    Nat.zero_add]

/-- One level of the multiplier, over exact quarter products. -/
theorem mul_succ {n q a b : Nat} (hq : 0 < q) (hwidth : limbWidth n = q + q)
    (ih : ∀ a b, a < 2 ^ limbWidth n → b < 2 ^ limbWidth n → mul n a b = a * b % 2 ^ limbWidth n)
    (ha : a < 2 ^ limbWidth (n + 1)) (hb : b < 2 ^ limbWidth (n + 1)) :
    mul (n + 1) a b =
      join (limbWidth n)
        ((hi (limbWidth n) a * lo (limbWidth n) b % 2 ^ limbWidth n +
          lo (limbWidth n) a * hi (limbWidth n) b % 2 ^ limbWidth n +
          upperSum (2 ^ q) (lo (limbWidth n) a) (lo (limbWidth n) b)) % 2 ^ limbWidth n)
        (lowerSum (2 ^ q) (lo (limbWidth n) a) (lo (limbWidth n) b) % 2 ^ limbWidth n) := by
  have hal := lo_lt n a
  have hbl := lo_lt n b
  have hau := hi_lt ha
  have hbu := hi_lt hb
  have hhalf : (q + q) / 2 = q := by omega
  have hpow : 2 ^ (q + q) = 2 ^ q * 2 ^ q := Nat.pow_add 2 q q
  have hle : 2 ^ q ≤ 2 ^ q * 2 ^ q := Nat.le_mul_self _
  simp only [hwidth, hpow] at ih hau hal hbu hbl
  have hlo : ∀ x, x % 2 ^ q < 2 ^ q := fun x => Nat.mod_lt x (Nat.two_pow_pos q)
  have hhi : ∀ {x}, x < 2 ^ q * 2 ^ q → x / 2 ^ q < 2 ^ q := Nat.div_lt_of_lt_mul
  have hprod : ∀ {x y}, x < 2 ^ q → y < 2 ^ q → x * y < 2 ^ q * 2 ^ q := Nat.mul_lt_mul''
  have hquarter : ∀ {x y}, x < 2 ^ q → y < 2 ^ q → mul n x y = x * y := fun hx hy => by
    rw [ih _ _ (by omega) (by omega), Nat.mod_eq_of_lt (hprod hx hy)]
  simp only [mul, hwidth, hhalf, hpow, slice_low hq, slice_high hq hal, slice_high hq hbl,
    ih _ _ hau hbl, ih _ _ hal hbu, hquarter (hhi hal) (hhi hbl), hquarter (hhi hal) (hlo _),
    hquarter (hlo _) (hhi hbl), hquarter (hlo _) (hlo _), slice_high hq (hprod (hhi hal) (hlo _)),
    slice_high hq (hprod (hlo _) (hhi hbl))]
  simp only [upperSum, lowerSum, Nat.add_assoc]

theorem mul_eq {n a b : Nat} (ha : a < 2 ^ limbWidth n) (hb : b < 2 ^ limbWidth n) :
    mul n a b = a * b % 2 ^ limbWidth n := by
  induction n generalizing a b with
  | zero => rfl
  | succ n ih =>
    obtain ⟨q, hq, hwidth⟩ : ∃ q, 0 < q ∧ limbWidth n = q + q := ⟨32 * 2 ^ n, by positivity, by rw [limbWidth]; ring⟩
    have hpow : 2 ^ limbWidth n = 2 ^ q * 2 ^ q := by rw [hwidth, Nat.pow_add]
    have hparts : a * b = (hi (limbWidth n) a * lo (limbWidth n) b + lo (limbWidth n) a * hi (limbWidth n) b) *
        2 ^ limbWidth n + lo (limbWidth n) a * lo (limbWidth n) b +
        hi (limbWidth n) a * hi (limbWidth n) b * (2 ^ limbWidth n * 2 ^ limbWidth n) := by
      have e : join (limbWidth n) (hi (limbWidth n) a) (lo (limbWidth n) a) *
          join (limbWidth n) (hi (limbWidth n) b) (lo (limbWidth n) b) = a * b := by rw [join_hi_lo, join_hi_lo]
      rw [← e, join, join]
      ring
    rw [mul_succ hq hwidth (fun a b => ih) ha hb, hpow, lowerSum_mod,
      upperSum_eq (Nat.two_pow_pos q), ← hpow, Nat.add_mod, ← Nat.add_mod (_ * _), ← Nat.add_mod, join_carry, hparts,
      two_pow_limbWidth_succ, Nat.add_mul_mod_self_right]

end Sys2Proof.Machine.Datapath

namespace Sys2Proof.Claims

open Sys2Proof.Machine

/-- Settles O46: `Datapath.add_eq`, and `Datapath.sub_eq` with its difference read over the integers
(`Datapath.toNat_sub_emod`). -/
theorem adderAndSubtractorAreModular : Obligations.AdderAndSubtractorAreModular := by
  unfold Obligations.AdderAndSubtractorAreModular
  intro n a b ha hb
  rw [Datapath.toNat_sub_emod hb.le]
  exact ⟨Datapath.add_eq ha hb, Datapath.sub_eq ha hb⟩

/-- Settles O47: `Datapath.inc_eq`, and `Datapath.dec_eq` with its difference read over the integers
(`Datapath.toNat_sub_emod`). -/
theorem incrementerAndDecrementerAreModular : Obligations.IncrementerAndDecrementerAreModular := by
  unfold Obligations.IncrementerAndDecrementerAreModular
  intro n a ha
  rw [← Nat.cast_one (R := Int), Datapath.toNat_sub_emod (Nat.two_pow_pos _)]
  exact ⟨Datapath.inc_eq ha, Datapath.dec_eq ha⟩

/-- Settles O48: `Datapath.mul_eq`. -/
theorem splitMultiplierIsModular : Obligations.SplitMultiplierIsModular := by
  unfold Obligations.SplitMultiplierIsModular
  exact fun _ _ _ => Datapath.mul_eq

end Sys2Proof.Claims
end

section
/-! The shifters (R130, R132), the limb-by-limb logic and truth test (R134 to R138), the comparators (R150), the width converter
and native constructor (R80, R83) against their closed forms (R15). -/

namespace Sys2Proof.Machine.Datapath

/-! ### Comparison -/

theorem eq_iff {n a b : Nat} (ha : a < 2 ^ limbWidth n) (hb : b < 2 ^ limbWidth n) : eq n a b = true ↔ a = b := by
  refine level_induction (P := fun n a b => eq n a b = true ↔ a = b) (fun a b _ _ => ?_) ?_ n a b ha hb
  · simp [eq]
  · intro n au al bu bl ih hau hal hbu hbl
    rw [eq, hi_join hal, hi_join hbl, lo_join hal, lo_join hbl, Bool.and_eq_true, ih au bu hau hbu, ih al bl hal hbl,
      join_inj hal hbl]

theorem lt_iff {n a b : Nat} (ha : a < 2 ^ limbWidth n) (hb : b < 2 ^ limbWidth n) : lt n a b = true ↔ a < b := by
  refine level_induction (P := fun n a b => lt n a b = true ↔ a < b) (fun a b _ _ => ?_) ?_ n a b ha hb
  · simp [lt]
  · intro n au al bu bl ih hau hal hbu hbl
    rw [lt, hi_join hal, hi_join hbl, lo_join hal, lo_join hbl, join_lt_join_iff hal hbl]
    by_cases hupper : au = bu
    · rw [if_pos ((eq_iff hau hbu).2 hupper), ih al bl hal hbl]
      simp [hupper]
    · rw [if_neg (mt (eq_iff hau hbu).1 hupper), ih au bu hau hbu]
      simp [hupper]

/-! ### Logic -/

/-- Complementing two limbs below p is complementing below p · p. -/
theorem limb_complement {p x y : Nat} (hx : x < p) (hy : y < p) :
    (p - 1 - x) * p + (p - 1 - y) = p * p - 1 - (x * p + y) := by
  obtain ⟨d, rfl⟩ := Nat.exists_eq_add_of_lt hx
  have e : x + d + 1 - 1 - x = d := by omega
  have hsquare : (x + d + 1) * (x + d + 1) = x * (x + d + 1) + d * (x + d + 1) + (x + d + 1) := by ring
  rw [e]
  omega

theorem complement_eq {n a : Nat} (ha : a < 2 ^ limbWidth n) : complement n a = 2 ^ limbWidth n - 1 - a := by
  refine level_induction (P := fun n a _ => complement n a = 2 ^ limbWidth n - 1 - a) (fun _ _ _ _ => rfl) ?_ n a a ha ha
  intro n au al _ _ ih hau hal _ _
  rw [complement, hi_join hal, lo_join hal, ih au au hau hau, ih al al hal hal, two_pow_limbWidth_succ, join, join,
    limb_complement hau hal]

/-- An operation that works bit by bit works limb by limb. -/
theorem bitwise_eq {f : Nat → Nat → Nat} {g : Bool → Bool → Bool}
    (hbit : ∀ a b i, (f a b).testBit i = g (a.testBit i) (b.testBit i))
    (hlt : ∀ w a b, a < 2 ^ w → b < 2 ^ w → f a b < 2 ^ w) {n a b : Nat} (ha : a < 2 ^ limbWidth n)
    (hb : b < 2 ^ limbWidth n) : bitwise f n a b = f a b := by
  refine level_induction (P := fun n a b => bitwise f n a b = f a b) (fun _ _ _ _ => rfl) ?_ n a b ha hb
  intro n au al bu bl ih hau hal hbu hbl
  rw [bitwise, hi_join hal, hi_join hbl, lo_join hal, lo_join hbl, ih au bu hau hbu, ih al bl hal hbl]
  refine Nat.eq_of_testBit_eq fun i => ?_
  rw [testBit_join (hlt _ _ _ hal hbl), hbit (join _ _ _), testBit_join hal, testBit_join hbl]
  split <;> rw [hbit]

theorem truth_iff {n a : Nat} (ha : a < 2 ^ limbWidth n) : truth n a = true ↔ a ≠ 0 := by
  refine level_induction (P := fun n a _ => truth n a = true ↔ a ≠ 0) (fun a _ _ _ => ?_) ?_ n a a ha ha
  · simp [truth]
  · intro n au al _ _ ih hau hal _ _
    rw [truth, hi_join hal, lo_join hal, Bool.or_eq_true, ih au au hau hau, ih al al hal hal, ne_eq, ne_eq,
      ← not_and_or, ← join_eq_zero_iff (h := limbWidth n)]

/-! ### Shifts -/

section

variable {w h a s i x y : Nat}

theorem shiftLeft_mod_eq_zero (hs : w ≤ s) : a <<< s % 2 ^ w = 0 := by
  rw [Nat.shiftLeft_eq]
  exact Nat.mod_eq_zero_of_dvd (Dvd.dvd.mul_left (Nat.pow_dvd_pow 2 hs) a)

theorem shiftRight_eq_zero (ha : a < 2 ^ w) (hs : w ≤ s) : a >>> s = 0 :=
  Nat.shiftRight_eq_zero a s (Nat.lt_of_lt_of_le ha (Nat.pow_le_pow_right (by decide) hs))

theorem shiftRight_lt (ha : a < 2 ^ w) : a >>> s < 2 ^ w := Nat.lt_of_le_of_lt (Nat.shiftRight_le a s) ha

/-- Two limbs that have the bits of `x` at their places are `x`. -/
theorem join_eq_of_testBit {u v : Nat} (hv : v < 2 ^ h) (hlower : ∀ i, i < h → v.testBit i = x.testBit i)
    (hupper : ∀ i, u.testBit i = x.testBit (h + i)) : join h u v = x := by
  refine Nat.eq_of_testBit_eq fun i => ?_
  rw [testBit_join hv]
  split
  · next hi => exact hlower i hi
  · next hi => rw [hupper, Nat.add_sub_cancel' (Nat.le_of_not_lt hi)]

theorem testBit_hi : (hi h a).testBit i = a.testBit (h + i) := by
  rw [hi, Nat.testBit_div_two_pow, Nat.add_comm]

theorem testBit_lo : (lo h a).testBit i = (decide (i < h) && a.testBit i) := Nat.testBit_mod_two_pow a h i

theorem testBit_shl : (a <<< s % 2 ^ w).testBit i = (decide (i < w) && (decide (s ≤ i) && a.testBit (i - s))) := by
  rw [Nat.testBit_mod_two_pow, Nat.testBit_shiftLeft]

/-- R130 with 0 < s < h: what leaves the lower limb's top enters the upper limb. -/
theorem join_shl_within (hs : s < h) :
    join h (hi h a <<< s % 2 ^ h ||| lo h a >>> (h - s)) (lo h a <<< s % 2 ^ h) = a <<< s % 2 ^ (h + h) := by
  refine join_eq_of_testBit (Nat.mod_lt _ (Nat.two_pow_pos h)) (fun i hi => ?_) fun i => ?_
  · rw [testBit_shl, testBit_shl, testBit_lo]
    by_cases hsi : s ≤ i
    · simp [hi, hsi, show i < h + h by omega, show i - s < h by omega]
    · simp [hsi]
  · rw [Nat.testBit_or, testBit_shl, testBit_shl, Nat.testBit_shiftRight, testBit_lo, testBit_hi]
    by_cases hsi : s ≤ i
    · simp [hsi, show s ≤ h + i by omega, show ¬ h - s + i < h by omega, show h + (i - s) = h + i - s by omega]
    · simp [hsi, show s ≤ h + i by omega, show i < h by omega, show h + i - s < h by omega,
        show h - s + i = h + i - s by omega]

/-- R130 with h ≤ s: only the lower limb is left, in the upper one's place. -/
theorem join_shl_beyond (hs : h ≤ s) : join h (lo h a <<< (s - h) % 2 ^ h) 0 = a <<< s % 2 ^ (h + h) := by
  refine join_eq_of_testBit (Nat.two_pow_pos h) (fun i hi => ?_) fun i => ?_
  · simp [show ¬ s ≤ i by omega]
  · rw [testBit_shl, testBit_shl, testBit_lo]
    by_cases hsi : s ≤ h + i
    · by_cases hi : i < h
      · simp [hi, show s ≤ h + i by omega, show s ≤ i + h by omega, show h + i - s < h by omega,
          show i - (s - h) = h + i - s by omega]
      · simp [hi]
    · simp [hsi, show ¬ s - h ≤ i by omega]

/-- R132 with s < h, the mirror of R130. -/
theorem join_shr_within (hs : s < h) :
    join h (hi h a >>> s) (lo h a >>> s ||| hi h a <<< (h - s) % 2 ^ h) = a >>> s := by
  have hlower : lo h a >>> s ||| hi h a <<< (h - s) % 2 ^ h < 2 ^ h :=
    Nat.or_lt_two_pow (shiftRight_lt (Nat.mod_lt _ (Nat.two_pow_pos h))) (Nat.mod_lt _ (Nat.two_pow_pos h))
  refine join_eq_of_testBit hlower (fun i hi => ?_) fun i => ?_
  · rw [Nat.testBit_or, Nat.testBit_shiftRight, testBit_lo, testBit_shl, testBit_hi, Nat.testBit_shiftRight]
    by_cases hsi : s + i < h
    · simp [hsi, show ¬ h - s ≤ i by omega]
    · simp [hsi, hi, show h - s ≤ i by omega, show h + (i - (h - s)) = s + i by omega]
  · rw [Nat.testBit_shiftRight, Nat.testBit_shiftRight, testBit_hi, Nat.add_left_comm]

/-- R132 with h ≤ s, the mirror of R130. -/
theorem join_shr_beyond (ha : a < 2 ^ (h + h)) (hs : h ≤ s) : join h 0 (hi h a >>> (s - h)) = a >>> s := by
  have hhi : hi h a < 2 ^ h := Nat.div_lt_of_lt_mul (by rwa [← Nat.pow_add])
  refine join_eq_of_testBit (shiftRight_lt hhi) (fun i hi => ?_) fun i => ?_
  · rw [Nat.testBit_shiftRight, Nat.testBit_shiftRight, testBit_hi, show h + (s - h + i) = s + i by omega]
  · rw [Nat.testBit_shiftRight, Nat.zero_testBit, Nat.testBit_eq_false_of_lt]
    exact Nat.lt_of_lt_of_le ha (Nat.pow_le_pow_right (by decide) (by omega))

end

theorem shl_and_shr_eq {n a : Nat} (ha : a < 2 ^ limbWidth n) (s : Nat) :
    shl n a s = a <<< s % 2 ^ limbWidth n ∧ shr n a s = a >>> s := by
  induction n generalizing a s with
  | zero =>
    rw [shl, shr]
    split
    · next hs => exact ⟨(shiftLeft_mod_eq_zero hs).symm, (shiftRight_eq_zero ha hs).symm⟩
    · exact ⟨by rw [Nat.shiftLeft_eq, limbWidth_zero], (Nat.shiftRight_eq_div_pow a s).symm⟩
  | succ n ih =>
    have hlo := ih (lo_lt n a)
    have hhi := ih (hi_lt ha)
    rw [shl, shr]
    split
    · next hs => exact ⟨(shiftLeft_mod_eq_zero hs).symm, (shiftRight_eq_zero ha hs).symm⟩
    · rw [limbWidth_succ] at ha ⊢
      split
      · next hs =>
        rw [(hlo _).1, (hhi _).2]
        exact ⟨join_shl_beyond hs, join_shr_beyond ha hs⟩
      · next hs =>
        have hs' := Nat.lt_of_not_le hs
        rw [(hhi s).1, (hlo (limbWidth n - s)).2, (hlo s).1, (hhi s).2, (hlo s).2, (hhi (limbWidth n - s)).1]
        exact ⟨join_shl_within hs', join_shr_within hs'⟩

theorem shl_eq {n a : Nat} (ha : a < 2 ^ limbWidth n) (s : Nat) :
    shl n a s = if s ≥ limbWidth n then 0 else a * 2 ^ s % 2 ^ limbWidth n := by
  rw [(shl_and_shr_eq ha s).1]
  split
  · next hs => exact shiftLeft_mod_eq_zero hs
  · rw [Nat.shiftLeft_eq]

theorem shr_eq {n a : Nat} (ha : a < 2 ^ limbWidth n) (s : Nat) :
    shr n a s = if s ≥ limbWidth n then 0 else a / 2 ^ s := by
  rw [(shl_and_shr_eq ha s).2]
  split
  · next hs => exact shiftRight_eq_zero ha hs
  · rw [Nat.shiftRight_eq_div_pow]

/-! ### Width conversion and native construction -/

theorem limbWidth_mono {m n : Nat} (h : m ≤ n) : limbWidth m ≤ limbWidth n :=
  Nat.mul_le_mul_left 64 (Nat.pow_le_pow_right (by decide) h)

/-- Doubling puts 0 into the upper limb, so it keeps the value. -/
theorem doubles_eq (d n v : Nat) : doubles d n v = v := by
  induction d generalizing n v with
  | zero => rfl
  | succ d ih => rw [doubles, ih, double, join, Nat.zero_mul, Nat.zero_add]

/-- Halving `d` times reduces modulo the last width, which divides the others. -/
theorem halves_eq {d n v : Nat} (hv : v < 2 ^ limbWidth (n + d)) : halves d n v = v % 2 ^ limbWidth n := by
  induction d generalizing v with
  | zero => exact (Nat.mod_eq_of_lt hv).symm
  | succ d ih =>
    rw [halves, halve, ih (lo_lt (n + d) v), lo,
      Nat.mod_mod_of_dvd v (Nat.pow_dvd_pow 2 (limbWidth_mono (Nat.le_add_right n d)))]

theorem convert_eq {m v : Nat} (hv : v < 2 ^ limbWidth m) (n : Nat) : convert v m n = v % 2 ^ limbWidth n := by
  rw [convert]
  split
  · next hmn =>
    rw [doubles_eq, Nat.mod_eq_of_lt (Nat.lt_of_lt_of_le hv (Nat.pow_le_pow_right (by decide) (limbWidth_mono hmn)))]
  · next hmn => exact halves_eq (by rwa [Nat.add_sub_cancel' (by omega)])

/-- Sign extension by one limb of ones, or zero extension by one limb of zeros (R83). -/
theorem native_eq (nt : NativeType) (x n : Nat) :
    native nt x n = nativeValue nt (limbWidth n) x := by
  have hvalue : ∀ w, nativeValue nt w x =
      if nativeSigned nt && x.testBit (nativeWidth nt - 1) then x + (2 ^ w - 2 ^ nativeWidth nt) else x := by
    intro w
    rw [nativeValue, signExtend]
    cases nativeSigned nt <;> simp
  induction n with
  | zero => rw [native, limbWidth_zero, hvalue]
  | succ n ih =>
    rw [native, ih, hvalue, hvalue, join, two_pow_limbWidth_succ]
    split
    · have hpow : 2 ^ nativeWidth nt ≤ 2 ^ limbWidth n :=
        Nat.pow_le_pow_right (by decide) (Nat.le_trans (nativeWidth_le nt) (limbWidth_mono (Nat.zero_le n)))
      have hsquare := Nat.le_mul_self (2 ^ limbWidth n)
      rw [Nat.sub_mul, Nat.one_mul]
      omega
    · rw [Nat.zero_mul, Nat.zero_add]

end Sys2Proof.Machine.Datapath

namespace Sys2Proof.Claims

open Sys2Proof.Machine

/-- Settles O50: `Datapath.shl_eq` and `Datapath.shr_eq`. -/
theorem shiftersShift : Obligations.ShiftersShift := by
  unfold Obligations.ShiftersShift
  exact fun _ _ amount ha => ⟨Datapath.shl_eq ha amount, Datapath.shr_eq ha amount⟩

/-- Settles O51: `Datapath.eq_iff` and `Datapath.lt_iff`. -/
theorem comparatorsAreNumeric : Obligations.ComparatorsAreNumeric := by
  unfold Obligations.ComparatorsAreNumeric
  exact fun _ _ _ ha hb => ⟨Datapath.eq_iff ha hb, Datapath.lt_iff ha hb⟩

/-- Settles O52: `Datapath.complement_eq` and `Datapath.truth_iff`; AND, OR and XOR work bit by bit
(`Datapath.bitwise_eq`). -/
theorem limbLogicIsBitwise : Obligations.LimbLogicIsBitwise := by
  unfold Obligations.LimbLogicIsBitwise
  intro n a b ha hb
  refine ⟨Datapath.complement_eq ha, Datapath.bitwise_eq Nat.testBit_and (fun w a b h _ => ?_) ha hb,
    Datapath.bitwise_eq Nat.testBit_or (fun w a b => Nat.or_lt_two_pow) ha hb,
    Datapath.bitwise_eq Nat.testBit_xor (fun w a b => Nat.xor_lt_two_pow) ha hb, Datapath.truth_iff ha⟩
  exact Nat.lt_of_le_of_lt Nat.and_le_left h

/-- Settles O53: `Datapath.convert_eq` and `Datapath.native_eq`. -/
theorem converterAndNativeConstructor : Obligations.ConverterAndNativeConstructor := by
  unfold Obligations.ConverterAndNativeConstructor
  exact ⟨fun _ n _ hv => Datapath.convert_eq hv n, fun nt n x _ => Datapath.native_eq nt x n⟩

end Sys2Proof.Claims
end

section
/-! The restoring division (R120), and the text datapaths over it and over the multiplier and adder (R161, R165). -/

namespace Sys2Proof.Machine.Datapath

/-! ### Division -/

theorem bitlen_pos {b : Nat} (hb : b ≠ 0) : 0 < bitlen b := by simp [bitlen, hb]

theorem bitlen_le {w b : Nat} (hb : b < 2 ^ w) : bitlen b ≤ w := by
  rw [bitlen]
  split
  · exact Nat.zero_le w
  · next h0 => exact (Nat.log2_lt h0).2 hb

theorem lt_two_pow_bitlen (b : Nat) : b < 2 ^ bitlen b := by
  rw [bitlen]
  split
  · next h0 => simp [h0]
  · exact Nat.lt_log2_self

/-- The bit of the quotient that an iteration appends (R120). -/
theorem append_bit {qt w : Nat} (h : qt * 2 + 2 ≤ 2 ^ w) : qt * 2 % 2 ^ w ||| 1 = qt * 2 + 1 := by
  rw [Nat.mod_eq_of_lt (by omega), Nat.mul_comm]
  exact (Nat.two_pow_add_eq_or_of_lt (i := 1) (by decide) qt).symm

/-- The loop of R120 over m iterations: the quotient so far gets m more bits, those of what is left of the dividend, and the
remainder is what is left over. -/
theorem divisionLoop_eq {w b m r qt : Nat} (hr : r < b * 2 ^ m) (hqt : (qt + 1) * 2 ^ m ≤ 2 ^ w) :
    divisionLoop w m (b * 2 ^ m / 2) r qt = (qt * 2 ^ m + r / b, r % b) := by
  induction m generalizing r qt with
  | zero =>
    rw [Nat.pow_zero, Nat.mul_one] at hr
    rw [divisionLoop, Nat.div_eq_of_lt hr, Nat.mod_eq_of_lt hr, Nat.pow_zero, Nat.mul_one, Nat.add_zero]
  | succ m ih =>
    have hpow : 2 ^ (m + 1) = 2 * 2 ^ m := Nat.pow_succ'
    rw [hpow] at hr hqt ⊢
    have hd : b * (2 * 2 ^ m) / 2 = b * 2 ^ m := by
      rw [Nat.mul_left_comm, Nat.mul_div_cancel_left _ (by decide)]
    have hnext : (qt * 2 + 2) * 2 ^ m ≤ 2 ^ w := by
      rwa [← Nat.mul_assoc, Nat.add_mul] at hqt
    have hwhole : qt * 2 + 2 ≤ 2 ^ w := Nat.le_trans (Nat.le_mul_of_pos_right _ (Nat.two_pow_pos m)) hnext
    have hb : 0 < b := Nat.pos_of_ne_zero fun h => by simp [h] at hr
    rw [divisionLoop, hd]
    split
    · next hge =>
      rw [append_bit hwhole, ih (by rw [Nat.mul_left_comm] at hr; omega) hnext]
      obtain ⟨left, rfl⟩ := Nat.exists_eq_add_of_le hge
      rw [Nat.add_sub_cancel_left, Nat.mul_add_div hb, Nat.mul_add_mod]
      congr 1
      ring
    · next hlt =>
      have hfit : (qt * 2 + 1) * 2 ^ m ≤ 2 ^ w := Nat.le_trans (Nat.mul_le_mul_right _ (by omega)) hnext
      rw [Nat.mod_eq_of_lt (by omega), ih (Nat.lt_of_not_le hlt) hfit, Nat.mul_assoc]

/-- R120: w - bitlen(b) + 1 iterations are enough, because b · 2^bitlen(b) is above every dividend's top bit. -/
theorem divmod_eq {w a b : Nat} (ha : a < 2 ^ w) (hb : b < 2 ^ w) (h0 : b ≠ 0) : divmod w a b = (a / b, a % b) := by
  have hpos := bitlen_pos h0
  have hle := bitlen_le hb
  have hhalf : 2 ^ (bitlen b - 1) ≤ b := by
    rw [bitlen, if_neg h0, Nat.add_sub_cancel]
    exact Nat.log2_self_le h0
  have hdividend : a < b * 2 ^ (w - bitlen b + 1) := by
    refine Nat.lt_of_lt_of_le ha ?_
    calc 2 ^ w = 2 ^ (bitlen b - 1) * 2 ^ (w - bitlen b + 1) := by
          rw [← Nat.pow_add]
          congr 1
          omega
      _ ≤ b * 2 ^ (w - bitlen b + 1) := Nat.mul_le_mul_right _ hhalf
  have hquotient : (0 + 1) * 2 ^ (w - bitlen b + 1) ≤ 2 ^ w := by
    rw [Nat.zero_add, Nat.one_mul]
    exact Nat.pow_le_pow_right (by decide) (by omega)
  have hshift : b * 2 ^ (w - bitlen b) = b * 2 ^ (w - bitlen b + 1) / 2 := by
    rw [Nat.pow_succ, ← Nat.mul_assoc, Nat.mul_div_cancel _ (by decide)]
  rw [divmod, hshift, divisionLoop_eq hdividend hquotient, Nat.zero_mul, Nat.zero_add]

/-! ### Text -/

/-- The format loop leaves the digits of R165, the least significant first, when it may divide often enough. -/
theorem formatLoop_eq {w fuel v : Nat} (hw : 4 ≤ w) (hfuel : fuel ≤ w) (hpos : 0 < fuel) (hv : v < 2 ^ fuel) :
    formatLoop w fuel v = (formatDecimal v).reverse := by
  induction fuel generalizing v with
  | zero => exact absurd hpos (Nat.lt_irrefl 0)
  | succ fuel ih =>
    have hfull : v < 2 ^ w := Nat.lt_of_lt_of_le hv (Nat.pow_le_pow_right (by decide) hfuel)
    have hten : 10 < 2 ^ w := Nat.lt_of_lt_of_le (by decide) (Nat.pow_le_pow_right (by decide) hw)
    rw [formatLoop, divmod_eq hfull hten (by decide)]
    by_cases hsmall : v < 10
    · rw [if_pos (Nat.div_eq_of_lt hsmall), formatDecimal_small hsmall, Nat.mod_eq_of_lt hsmall]
      rfl
    · have hge := Nat.le_of_not_lt hsmall
      have hnext : v / 10 < 2 ^ fuel := by
        rw [Nat.pow_succ] at hv
        omega
      have hfuel' : 0 < fuel := Nat.pos_of_ne_zero fun h => by
        rw [h, Nat.pow_zero] at hnext
        omega
      rw [if_neg (by omega : v / 10 ≠ 0), formatDecimal_step hge, List.reverse_append,
        ih (by omega) hfuel' hnext]
      rfl

end Sys2Proof.Machine.Datapath

namespace Sys2Proof.Claims

open Sys2Proof.Machine

variable {text : Nat → Byte} {b n : Nat}

/-- R161: the accumulator over the multiplier and adder, after a run of digits and on what follows. -/
theorem parse_of_allDigits (level : Nat) {len : Nat} (h : AllDigits text b len) (rest : List Byte) :
    Datapath.parse level b (((List.range len).map fun i => text (b + i)) ++ rest) 0 =
      Datapath.parse level (b + len) rest (decimalValue text b len % 2 ^ Datapath.limbWidth level) := by
  induction len generalizing rest with
  | zero => simp [decimalValue]
  | succ len ih =>
    obtain ⟨hlen, hd⟩ := allDigits_succ_iff.1 h
    have h64 : 2 ^ 64 ≤ 2 ^ Datapath.limbWidth level :=
      Nat.pow_le_pow_right (by decide) (Datapath.limbWidth_mono (Nat.zero_le level))
    have hpos := Nat.two_pow_pos (Datapath.limbWidth level)
    have hdigit : digitValue (text (b + len)) < 2 ^ Datapath.limbWidth level := by
      have := (text (b + len)).isLt
      rw [digitValue]
      omega
    rw [List.range_succ, List.map_append, List.append_assoc, ih hlen, List.map_singleton, List.singleton_append,
      Datapath.parse, if_pos (isDigit_iff.2 hd),
      Datapath.mul_eq (Nat.mod_lt _ hpos) (Nat.lt_of_lt_of_le (by decide) h64),
      Datapath.add_eq (Nat.mod_lt _ hpos) hdigit, Nat.mod_add_mod, decimalValue_succ_mod, Nat.add_assoc]

/-- Settles O49: `Datapath.divmod_eq`. -/
theorem restoringDivisionIsExact : Obligations.RestoringDivisionIsExact := by
  unfold Obligations.RestoringDivisionIsExact
  exact fun _ _ _ => Datapath.divmod_eq

/-- Settles O54: the accumulator after all the digits (`parse_of_allDigits`), and the format loop with a division for each
bit (`Datapath.formatLoop_eq`). -/
theorem textDatapathsAreDecimal : Obligations.TextDatapathsAreDecimal := by
  unfold Obligations.TextDatapathsAreDecimal
  refine ⟨fun n text b len hall => ?_, fun w v hw hv => ?_⟩
  · simpa [Datapath.parse] using parse_of_allDigits n hall []
  · rw [Datapath.format, Datapath.formatLoop_eq hw le_rfl (by omega) hv, List.reverse_reverse,
      formatDecimal_eq_digitString]

end Sys2Proof.Claims
end

section
/-! Laws of several commands run one after the other: R72, R80, R85, R109, R123, R157 and R166. -/

namespace Sys2Proof.Claims

open Sys2Proof.Machine

variable {s t : State} {i : Instr} {rest : List Instr} {text : Nat → Byte}

theorem execAll_cons (h : exec i s = .next t) : execAll (i :: rest) s = execAll rest t := by rw [execAll, h]

/-- In a state with legal registers a register of width w holds a value below 2^w (R21). -/
theorem wide_lt_of_regsOk {r : Reg} {wc : Nibble} (hs : s.RegsOk) (hwc : wc ≠ emptyTag) (ht : s.tagOf r = wc) :
    s.wide r < modulus wc := by
  subst ht
  exact (hs r).wide_lt hwc

/-- The state after a wide write, register by register. -/
theorem exists_of_exec_setWide {rd : Reg} {wc : Nibble} {v : Nat} (he : s.err = .none)
    (h : exec i s = .next (s.setWide rd wc v)) :
    ∃ t, exec i s = .next t ∧ t.err = .none ∧ (∀ r, t.wide r = if r = rd then v else s.wide r) ∧
      ∀ r, t.tagOf r = if r = rd then wc else s.tagOf r :=
  ⟨_, h, he, fun r => setWide_wide s rd r wc v, fun r => setWide_tagOf s rd r wc v⟩

/-! ### The statements -/

/-- Settles O55: each command writes its own destination, so the later ones read the dividend, the divisor, the quotient and
the remainder; put together they are the dividend, which is below 2^w. -/
theorem divisionLawOverCommands : Obligations.DivisionLawOverCommands := by
  unfold Obligations.DivisionLawOverCommands
  intro s q m ra rb wc hs hwc he hta htb h0 hqm hqa hqb hma hmb
  have ha := wide_lt_of_regsOk hs hwc hta
  have hproduct : s.wide ra / s.wide rb * s.wide rb < modulus wc := Nat.lt_of_le_of_lt (Nat.div_mul_le_self _ _) ha
  obtain ⟨s1, hdiv, he1, hw1, ht1⟩ := exists_of_exec_setWide he (exec_div (rd := q) he hta htb h0)
  have hta1 : s1.tagOf ra = wc := by rw [ht1, if_neg hqa.symm, hta]
  have htb1 : s1.tagOf rb = wc := by rw [ht1, if_neg hqb.symm, htb]
  have hwa1 : s1.wide ra = s.wide ra := by rw [hw1, if_neg hqa.symm]
  have hwb1 : s1.wide rb = s.wide rb := by rw [hw1, if_neg hqb.symm]
  obtain ⟨s2, hmod, he2, hw2, ht2⟩ :=
    exists_of_exec_setWide he1 (exec_mod (rd := m) he1 hta1 htb1 (by rwa [hwb1]))
  have htq2 : s2.tagOf q = wc := by rw [ht2, if_neg hqm, ht1, if_pos rfl]
  have htb2 : s2.tagOf rb = wc := by rw [ht2, if_neg hmb.symm, htb1]
  obtain ⟨s3, hmul, he3, hw3, ht3⟩ := exists_of_exec_setWide he2 (exec_mul (rd := q) he2 htq2 htb2)
  have htq3 : s3.tagOf q = wc := by rw [ht3, if_pos rfl]
  have htm3 : s3.tagOf m = wc := by rw [ht3, if_neg hqm.symm, ht2, if_pos rfl]
  obtain ⟨s4, hadd, he4, hw4, ht4⟩ := exists_of_exec_setWide he3 (exec_add (rd := q) he3 htq3 htm3)
  have hq2 : s2.wide q = s.wide ra / s.wide rb := by rw [hw2, if_neg hqm, hw1, if_pos rfl]
  have hb2 : s2.wide rb = s.wide rb := by rw [hw2, if_neg hmb.symm, hwb1]
  have hm3 : s3.wide m = s.wide ra % s.wide rb := by rw [hw3, if_neg hqm.symm, hw2, if_pos rfl, hwa1, hwb1]
  refine ⟨s4, ?_, he4, ?_, by rw [ht4, if_pos rfl], ?_⟩
  · rw [execAll_cons hdiv, execAll_cons hmod, execAll_cons hmul, execAll_cons hadd]
    rfl
  · rw [hw4, if_pos rfl, hm3, hw3, if_pos rfl, hq2, hb2, Nat.mod_eq_of_lt hproduct, Nat.div_add_mod',
      Nat.mod_eq_of_lt ha]
  · rw [hw4, if_neg hqm.symm, hm3]
    exact Nat.mod_lt _ (Nat.pos_of_ne_zero h0)

/-- A run of bytes that are the digits of a value reads as that value (R161, R165). -/
theorem value_of_digits {b v : Nat}
    (h : ∀ (j : Nat) (hj : j < (formatDecimal v).length), text (b + j) = (formatDecimal v)[j]) :
    AllDigits text b (formatDecimal v).length ∧ decimalValue text b (formatDecimal v).length = v := by
  induction v using Nat.strong_induction_on with
  | _ v ih =>
    by_cases hsmall : v < 10
    · simp only [formatDecimal_small hsmall, List.length_singleton] at h ⊢
      have htext : text (b + 0) = digitByte v := h 0 (by decide)
      rw [allDigits_succ_iff, decimalValue_succ, htext, digitValue_digitByte hsmall]
      exact ⟨⟨nofun, isDigit_iff.1 (isDigit_digitByte hsmall)⟩, by simp [decimalValue]⟩
    · have hge := Nat.le_of_not_lt hsmall
      have hlast : v % 10 < 10 := Nat.mod_lt v (by decide)
      simp only [formatDecimal_step hge, List.length_append, List.length_singleton] at h ⊢
      obtain ⟨hall, hvalue⟩ := ih (v / 10) (by omega) fun j hj => by
        rw [h j (by omega), List.getElem_append_left hj]
      have htext : text (b + (formatDecimal (v / 10)).length) = digitByte (v % 10) := by
        rw [h _ (by omega), List.getElem_append_right le_rfl]
        simp
      rw [allDigits_succ_iff, decimalValue_succ, htext, digitValue_digitByte hlast, hvalue]
      exact ⟨⟨hall, isDigit_iff.1 (isDigit_digitByte hlast)⟩, Nat.div_add_mod' v 10⟩

/-- Settles O56: the bytes that FMT wrote are the digits of the source (`writeText_textAt_inside`), the loop of PARSE reads
them as its value (`value_of_digits`), and the value is below 2^w. -/
theorem formatThenParseGivesTheValueBack : Obligations.FormatThenParseGivesTheValueBack := by
  unfold Obligations.FormatThenParseGivesTheValueBack
  intro s rd rs1 wc base hs hwc he ht hb
  rw [← formatDecimal_eq_digitString] at hb
  obtain ⟨⟨-, hbytes⟩, hregs, -⟩ := hs
  have hv := wide_lt_of_regsOk hregs hwc ht
  have hlength : ((BitVec.ofNat 64 (formatDecimal (s.wide rs1)).length).setWidth 32).toNat =
      (formatDecimal (s.wide rs1)).length := by
    rw [BitVec.toNat_setWidth, BitVec.toNat_ofNat, Nat.mod_eq_of_lt, Nat.mod_eq_of_lt] <;> omega
  obtain ⟨hall, hvalue⟩ := value_of_digits (text := (s.writeText base.toNat (formatDecimal (s.wide rs1))).textAt)
    (writeText_textAt_inside s base.toNat _)
  refine ⟨_, _, exec_fmt he ht hb, exec_parse_of_ok he (by rwa [setNative_nres, hlength]) ?_, he,
    setWide_wide_same _ rd wc _, setWide_tagOf_same _ rd wc _⟩
  rw [setNative_nres, hlength]
  refine (parseBounded_of_allDigits (modulus wc) 0 hall).trans ?_
  rw [hvalue, Nat.mod_eq_of_lt hv]
  rfl

/-- Settles O57: the five commands write less-than and equality of the naturals (`exec_lt`, `exec_eq`), of which exactly one
holds of a pair, and less-than is transitive. -/
theorem lessThanIsAStrictTotalOrder : Obligations.LessThanIsAStrictTotalOrder := by
  unfold Obligations.LessThanIsAStrictTotalOrder
  intro s ra rb rc wc he hta htb htc
  refine ⟨_, _, _, _, _, exec_lt he hta htb, exec_eq he hta htb, exec_lt he htb hta, exec_lt he htb htc,
    exec_lt he hta htc, ?_, ?_⟩
  · rcases Nat.lt_trichotomy (s.wide ra) (s.wide rb) with hlt | heq | hgt
    · simp [hlt, hlt.ne, hlt.not_gt]
    · simp [heq]
    · simp [hgt, hgt.ne', hgt.not_gt]
  · have hone : ∀ P : Prop, [Decidable P] → BitVec.ofNat 64 (if P then 1 else 0) = 1 → P := fun P _ h => by
      by_contra hP
      simp [hP] at h
    intro hab hbc
    simp [Nat.lt_trans (hone _ hab) (hone _ hbc)]

/-- Settles O58: both expansions are one RESIZE each (`exec_resize`), and a value below 2^w is the same modulo 2^(2w) and
modulo 2^w. -/
theorem widenThenNarrowIsTheIdentity : Obligations.WidenThenNarrowIsTheIdentity := by
  unfold Obligations.WidenThenNarrowIsTheIdentity
  intro s rd re rs1 wc hs hwc he ht
  have hk := s.params.k.isLt
  have hsucc : (wc + 1).toNat = wc.toNat + 1 := by
    rw [BitVec.toNat_add]
    exact Nat.mod_eq_of_lt (by simp; omega)
  have hwiden : wc + 1 ≠ 0 := fun h => by
    rw [h] at hsucc
    simp at hsucc
  have hv : s.wide rs1 < modulus wc := wide_lt_of_regsOk hs (ne_emptyTag_of_le hwc.le) ht
  have hwide : s.wide rs1 < modulus (wc + 1) := by
    refine Nat.lt_of_lt_of_le hv (Nat.pow_le_pow_right (by decide) ?_)
    rw [widthOf, widthOf, hsucc]
    exact Nat.mul_le_mul_left _ (Nat.pow_le_pow_right (by decide) (Nat.le_succ _))
  refine ⟨_, _, _, if_neg hwiden, if_neg (by omega), (execAll_cons (exec_resize he ?_)).trans
    (execAll_cons (exec_resize he (setWide_tagOf_same s rd (wc + 1) _))), ?_, setWide_tagOf_same _ re wc _⟩
  · rw [ht, BitVec.add_sub_cancel]
  · rw [setWide_wide_same, setWide_wide_same, Nat.mod_eq_of_lt hwide, Nat.mod_eq_of_lt hv]

/-- Settles O59: -a and a add up to 2^w, or to 0 when a is 0; SHL by s < w and MUL by 2^s write the same product. -/
theorem negationAndShiftLaws : Obligations.NegationAndShiftLaws := by
  unfold Obligations.NegationAndShiftLaws
  refine fun s rd ra rb wc hs hwc he hta => ⟨fun hne => ?negation, fun amount hw htb hvalue => ?shift⟩
  case negation =>
    have hv := wide_lt_of_regsOk hs hwc hta
    have hother : ∀ v, (s.setWide rd wc v).tagOf ra = wc := fun v =>
      (setWide_tagOf_other s rd ra wc v hne.symm).trans hta
    refine ⟨_, (execAll_cons (exec_neg he hta)).trans <|
      execAll_cons (exec_add he (hother _) (setWide_tagOf_same s rd wc _)), ?_, setWide_tagOf_same _ rd wc _⟩
    have hsum : s.wide ra + (modulus wc - 1 - s.wide ra + 1) = modulus wc := by omega
    rw [setWide_wide_same, setWide_wide_same, setWide_wide_other s rd ra wc _ hne.symm, Nat.add_mod_mod, hsum,
      Nat.mod_self]
  case shift =>
    refine ⟨?_, exec_mul he hta htb⟩
    have hw' : amount.toNat < widthOf wc := hw
    rw [exec_shl he hta, if_neg hw'.not_ge, hvalue]
    rfl

/-- Settles O60: each expansion is the commands of its row, and their ends (`exec_mov`, `exec_inc`, `exec_dec`, `exec_ldn`) are
the results; Wd is not Ws, so the copy keeps the old value. -/
theorem pseudoInstructionExpansions : Obligations.PseudoInstructionExpansions := by
  unfold Obligations.PseudoInstructionExpansions
  refine ⟨fun s rd rs1 wc he ht hne => ?step, fun rd rs1 wc => rfl, fun s rd wc x he => ?load⟩
  case step =>
    have htag : ∀ v, (s.setWide rd wc v).tagOf rs1 = wc := fun v =>
      (setWide_tagOf_other s rd rs1 wc v hne.symm).trans ht
    have hsource : ∀ v, (s.setWide rd wc v).wide rs1 = s.wide rs1 := fun v =>
      setWide_wide_other s rd rs1 wc v hne.symm
    have hcopy : ∀ v, ((s.setWide rd wc (s.wide rs1)).setWide rs1 wc v).wide rd = s.wide rs1 := fun v => by
      rw [setWide_wide_other _ rs1 rd wc v hne, setWide_wide_same]
    refine ⟨⟨_, _, if_neg hne, (execAll_cons (exec_mov he ht)).trans (execAll_cons (exec_inc he (htag _))), hcopy _, ?_⟩,
      _, _, if_neg hne, (execAll_cons (exec_mov he ht)).trans (execAll_cons (exec_dec he (htag _))), hcopy _, ?_⟩
    · rw [setWide_wide_same, hsource]
      rfl
    · rw [setWide_wide_same, hsource]
      rfl
  case load =>
    refine ⟨_, rfl, (execAll_cons (exec_ldn he)).trans ?_⟩
    have hfield : nativeValue .u64 (widthOf wc) (nativeField .u64 x) = x.toNat := Nat.mod_eq_of_lt x.isLt
    rw [hfield]
    rfl

end Sys2Proof.Claims
end
